-- ==== Sys2Proof/Word.lean ====
section
/-! DEFINITION. The words of the model. A register of the hart and a CSR are `XLEN ∈ {32, 64}` bits (R3, R10, R25);
the model holds them in 64-bit words whose upper half is zero when `XLEN` is 32 (log 19). -/

namespace Sys2Proof

/-- One byte of memory (R30). -/
abbrev Byte := BitVec 8

/-- Storage for an `XLEN`-bit value (R3, R25). -/
abbrev Word := BitVec 64

/-- An instruction word (R41). -/
abbrev InstrWord := BitVec 32

/-- The number of an integer register as the encodings hold it, `x0` to `x31` (R25, R41). -/
abbrev RegNum := BitVec 5

/-- A CSR number, `csr = bits[31:20]` (R30, R44). -/
abbrev CsrNum := BitVec 12

end Sys2Proof
end

