-- ==== Sys2Proof/Syntax.lean ====
section
/-! DEFINITION. The ten instructions of spec/opcode_table.json (R42, R43), one constructor per row. Register numbers, CSR
numbers and immediates have the widths of their fields, so a term holds no value its encoding could not. -/

namespace Sys2Proof

/-- The instructions, with their operands as R41 to R44 lay them out. -/
inductive Instr where
  /-- `cbo.inval (rs1)` (R53, R85). -/
  | cboInval (rs1 : RegNum)
  /-- `cbo.clean (rs1)` (R54, R86). -/
  | cboClean (rs1 : RegNum)
  /-- `cbo.flush (rs1)` (R55, R86). -/
  | cboFlush (rs1 : RegNum)
  /-- `cbo.zero (rs1)` (R56, R86). -/
  | cboZero (rs1 : RegNum)
  /-- `csrrw rd, csr, rs1` (R91). -/
  | csrrw (rd : RegNum) (csr : CsrNum) (rs1 : RegNum)
  /-- `csrrs rd, csr, rs1` (R92). -/
  | csrrs (rd : RegNum) (csr : CsrNum) (rs1 : RegNum)
  /-- `csrrc rd, csr, rs1` (R93). -/
  | csrrc (rd : RegNum) (csr : CsrNum) (rs1 : RegNum)
  /-- `csrrwi rd, csr, uimm` (R94). -/
  | csrrwi (rd : RegNum) (csr : CsrNum) (uimm : BitVec 5)
  /-- `csrrsi rd, csr, uimm` (R95). -/
  | csrrsi (rd : RegNum) (csr : CsrNum) (uimm : BitVec 5)
  /-- `csrrci rd, csr, uimm` (R96). -/
  | csrrci (rd : RegNum) (csr : CsrNum) (uimm : BitVec 5)
deriving DecidableEq, Repr

end Sys2Proof
end

