-- ==== Sys2Proof/Decode.lean ====
section
/-! DEFINITION. Decoding and encoding (R41 to R44, R47), from the tables of 30_encoding.md. The encodings are those of the
ratified RISC-V extensions, which the spec adopts (D22; log 21). -/

namespace Sys2Proof

/-- Why a word is no instruction of this spec (R41, R47). -/
inductive DecodeError where
  /-- The length bits say it is no 32-bit instruction: `bits[1:0] ≠ 11` or `bits[4:2] = 111` (R41). -/
  | notThirtyTwoBits
  /-- `NotInScope`: a 32-bit word that matches no row of R42 and R43 (R47). -/
  | notInScope
  /-- Fewer than four bytes were given. -/
  | tooShort
deriving DecidableEq, Repr

/-- The I-type layout (R41): `imm12`/`csr` in 31:20, `rs1`/`uimm` in 19:15, `funct3` in 14:12, `rd` in 11:7, `opcode` in 6:0. -/
def encodeIType (imm : BitVec 12) (rs1 : BitVec 5) (funct3 : BitVec 3) (rd : BitVec 5) (opcode : BitVec 7) : InstrWord :=
  imm.setWidth 32 <<< 20 ||| rs1.setWidth 32 <<< 15 ||| funct3.setWidth 32 <<< 12 ||| rd.setWidth 32 <<< 7 |||
    opcode.setWidth 32

/-- `bits[31:20]`. -/
def fieldImm12 (w : InstrWord) : BitVec 12 := w.extractLsb' 20 12

/-- `bits[19:15]`. -/
def fieldRs1 (w : InstrWord) : BitVec 5 := w.extractLsb' 15 5

/-- `bits[14:12]`. -/
def fieldFunct3 (w : InstrWord) : BitVec 3 := w.extractLsb' 12 3

/-- `bits[11:7]`. -/
def fieldRd (w : InstrWord) : BitVec 5 := w.extractLsb' 7 5

/-- `bits[6:0]`. -/
def fieldOpcode (w : InstrWord) : BitVec 7 := w.extractLsb' 0 7

/-- Major opcode MISC-MEM (R42). -/
def opMiscMem : BitVec 7 := 0b0001111

/-- Major opcode SYSTEM (R43). -/
def opSystem : BitVec 7 := 0b1110011

/-- The cache-block instructions: `funct3 = 010`, `rd = 00000`, `imm12` selects (R42). -/
def decodeMiscMem (w : InstrWord) : Except DecodeError Instr :=
  if fieldFunct3 w = 0b010 ∧ fieldRd w = 0 then
    if fieldImm12 w = 0 then .ok (.cboInval (fieldRs1 w))
    else if fieldImm12 w = 1 then .ok (.cboClean (fieldRs1 w))
    else if fieldImm12 w = 2 then .ok (.cboFlush (fieldRs1 w))
    else if fieldImm12 w = 4 then .ok (.cboZero (fieldRs1 w))
    else .error .notInScope
  else .error .notInScope

/-- The CSR access instructions: `funct3` selects (R43). -/
def decodeSystem (w : InstrWord) : Except DecodeError Instr :=
  if fieldFunct3 w = 0b001 then .ok (.csrrw (fieldRd w) (fieldImm12 w) (fieldRs1 w))
  else if fieldFunct3 w = 0b010 then .ok (.csrrs (fieldRd w) (fieldImm12 w) (fieldRs1 w))
  else if fieldFunct3 w = 0b011 then .ok (.csrrc (fieldRd w) (fieldImm12 w) (fieldRs1 w))
  else if fieldFunct3 w = 0b101 then .ok (.csrrwi (fieldRd w) (fieldImm12 w) (fieldRs1 w))
  else if fieldFunct3 w = 0b110 then .ok (.csrrsi (fieldRd w) (fieldImm12 w) (fieldRs1 w))
  else if fieldFunct3 w = 0b111 then .ok (.csrrci (fieldRd w) (fieldImm12 w) (fieldRs1 w))
  else .error .notInScope

/-- The instruction a word stands for, or why it is none of this spec (R41, R47). -/
def decode (w : InstrWord) : Except DecodeError Instr :=
  if w.extractLsb' 0 2 ≠ 0b11 ∨ w.extractLsb' 2 3 = 0b111 then .error .notThirtyTwoBits
  else if fieldOpcode w = opMiscMem then decodeMiscMem w
  else if fieldOpcode w = opSystem then decodeSystem w
  else .error .notInScope

/-- The four bytes of an instruction word as memory holds them, lowest address first (R35: little-endian fetch). -/
def bytesOfWord (w : InstrWord) : List Byte :=
  [w.extractLsb' 0 8, w.extractLsb' 8 8, w.extractLsb' 16 8, w.extractLsb' 24 8]

/-- The word four bytes make, the first at the lowest address (R35). -/
def wordOfBytes (b0 b1 b2 b3 : Byte) : InstrWord :=
  b3.setWidth 32 <<< 24 ||| b2.setWidth 32 <<< 16 ||| b1.setWidth 32 <<< 8 ||| b0.setWidth 32

/-- Decode the first instruction of a list of bytes; answers it with the bytes left. -/
def decodeBytes : List Byte → Except DecodeError (Instr × List Byte)
  | b0 :: b1 :: b2 :: b3 :: rest => (decode (wordOfBytes b0 b1 b2 b3)).map (fun i => (i, rest))
  | _ => .error .tooShort

/-- The word of an instruction, from the tables of R42 and R43. -/
def encode : Instr → InstrWord
  | .cboInval rs1 => encodeIType 0 rs1 0b010 0 opMiscMem
  | .cboClean rs1 => encodeIType 1 rs1 0b010 0 opMiscMem
  | .cboFlush rs1 => encodeIType 2 rs1 0b010 0 opMiscMem
  | .cboZero rs1 => encodeIType 4 rs1 0b010 0 opMiscMem
  | .csrrw rd csr rs1 => encodeIType csr rs1 0b001 rd opSystem
  | .csrrs rd csr rs1 => encodeIType csr rs1 0b010 rd opSystem
  | .csrrc rd csr rs1 => encodeIType csr rs1 0b011 rd opSystem
  | .csrrwi rd csr uimm => encodeIType csr uimm 0b101 rd opSystem
  | .csrrsi rd csr uimm => encodeIType csr uimm 0b110 rd opSystem
  | .csrrci rd csr uimm => encodeIType csr uimm 0b111 rd opSystem

/-- A row of spec/opcode_table.json: a word is the row's if its bits under `mask` are `pattern`. -/
structure OpcodeRow where
  mnemonic : String
  mask : InstrWord
  pattern : InstrWord
deriving DecidableEq, Repr

/-- spec/opcode_table.json (R42, R43), for tests and claims to hold the decoder against; the decoder does not read it. -/
def opcodeTable : List OpcodeRow :=
  [ { mnemonic := "cbo.inval", mask := 0xFFF07FFF, pattern := 0x0000200F },
    { mnemonic := "cbo.clean", mask := 0xFFF07FFF, pattern := 0x0010200F },
    { mnemonic := "cbo.flush", mask := 0xFFF07FFF, pattern := 0x0020200F },
    { mnemonic := "cbo.zero", mask := 0xFFF07FFF, pattern := 0x0040200F },
    { mnemonic := "csrrw", mask := 0x0000707F, pattern := 0x00001073 },
    { mnemonic := "csrrs", mask := 0x0000707F, pattern := 0x00002073 },
    { mnemonic := "csrrc", mask := 0x0000707F, pattern := 0x00003073 },
    { mnemonic := "csrrwi", mask := 0x0000707F, pattern := 0x00005073 },
    { mnemonic := "csrrsi", mask := 0x0000707F, pattern := 0x00006073 },
    { mnemonic := "csrrci", mask := 0x0000707F, pattern := 0x00007073 } ]

/-- The word is the row's. -/
def OpcodeRow.matches (row : OpcodeRow) (w : InstrWord) : Bool := w &&& row.mask == row.pattern

/-- An instruction's mnemonic as the table spells it. -/
def mnemonicOf : Instr → String
  | .cboInval _ => "cbo.inval"
  | .cboClean _ => "cbo.clean"
  | .cboFlush _ => "cbo.flush"
  | .cboZero _ => "cbo.zero"
  | .csrrw _ _ _ => "csrrw"
  | .csrrs _ _ _ => "csrrs"
  | .csrrc _ _ _ => "csrrc"
  | .csrrwi _ _ _ => "csrrwi"
  | .csrrsi _ _ _ => "csrrsi"
  | .csrrci _ _ _ => "csrrci"

/-- The word made of the low `nbits` bits of `w`, every bit above them zero. -/
def tableWord (nbits w : Nat) : InstrWord := BitVec.ofNat 32 (w % 2 ^ nbits)

/-- The instruction the decoder reads from a row's word of `nbits` bits, through the bytes memory holds for it. -/
def decodeTableWord (nbits w : Nat) : Option Instr :=
  match decodeBytes (bytesOfWord (tableWord nbits w)) with
  | .ok (i, _) => some i
  | .error _ => none

end Sys2Proof
end

