-- ==== Sys2Proof/Config.lean ====
section
/-! DEFINITION. What an implementation fixes: the parameters of rule R3, as plain data, and the free values, as opaque
constants without a body. Every machine state carries the configuration it runs under (`State.cfg`), no step changes
it, and claims quantify over it: the model is a function of R3's parameters. -/

namespace Sys2Proof

/-- The two designs of the registers (R2); never active together. -/
inductive Scheme where
  | A  -- `CBIE`, `CBCFE`, `CBZE` (the default)
  | B  -- `INVW0E`, `INVW1E`, `INVW0I`, `INVW1I`
deriving DecidableEq, Repr

/-- The width of an integer register and of a CSR (R3). -/
inductive Xlen where
  | x32
  | x64
deriving DecidableEq, Repr

/-- `XLEN` as a number of bits. -/
def Xlen.bits : Xlen → Nat
  | .x32 => 32
  | .x64 => 64

/-- The nominal privilege of a mode, which `MPP` records (R105). -/
inductive Priv where
  | u
  | s
  | m
deriving DecidableEq, Repr

/-- The five modes (R4): `m` is M-mode, `shs` is S/HS-mode, `u` U-mode, `vs` VS-mode, `vu` VU-mode. -/
inductive Mode where
  | m
  | shs
  | u
  | vs
  | vu
deriving DecidableEq, Repr

/-- `VS` and `VU` are the virtualised modes (R4). -/
def Mode.virtualised : Mode → Bool
  | .m => false
  | .shs => false
  | .u => false
  | .vs => true
  | .vu => true

/-- The three registers (R10): `m` is `mcmocontrol`, `s` is `scmocontrol`, `h` is `hcmocontrol`. -/
inductive CmoReg where
  | m
  | s
  | h
deriving DecidableEq, Repr

/-- The one-bit fields of the two schemes (R13, R18). -/
inductive BitField where
  | cbcfe
  | cbze
  | invw0e
  | invw1e
  | invw0i
  | invw1i
deriving DecidableEq, Repr

/-- `FAULT_KIND`: the access type the scheme B faults report (R3, R101). -/
inductive FaultKind where
  | storeAmo
  | load
deriving DecidableEq, Repr

/-- `TVAL_ILLEGAL`: what an illegal instruction exception records (R3, R101). -/
inductive TvalIllegal where
  | instructionWord
  | zero
deriving DecidableEq, Repr

/-- What `raise` does with the outcome `Trap(exception, info, pc)`: `terminal` stops there (R104, a model of this
hardware alone); `entry` goes on with the trap entry of R105 (R104's model that embeds the hardware in a hart). -/
inductive TrapModel where
  | terminal
  | entry
deriving DecidableEq, Repr

/-- The positions of the fields in a register's word, the same in the three registers (R40). -/
structure FieldPositions where
  /-- `CBIE_LO`: `CBIE` occupies this bit and the next. -/
  cbieLo : Nat
  cbcfe : Nat
  cbze : Nat
  invw0e : Nat
  invw1e : Nat
  invw0i : Nat
  invw1i : Nat
deriving DecidableEq, Repr

/-- The bits the scheme A fields occupy (R40). -/
def FieldPositions.usedA (p : FieldPositions) : List Nat :=
  [p.cbieLo, p.cbieLo + 1, p.cbcfe, p.cbze]

/-- The bits the scheme B fields occupy (R40). -/
def FieldPositions.usedB (p : FieldPositions) : List Nat :=
  [p.invw0e, p.invw1e, p.invw0i, p.invw1i]

/-- `LEGAL(r, f)` of one register: the values each field can hold (R17). -/
structure LegalSets where
  cbie : List (BitVec 2)
  cbcfe : List Bool
  cbze : List Bool
  invw0e : List Bool
  invw1e : List Bool
  invw0i : List Bool
  invw1i : List Bool
deriving DecidableEq, Repr

/-- The legal set of a one-bit field. -/
def LegalSets.bit (l : LegalSets) : BitField → List Bool
  | .cbcfe => l.cbcfe
  | .cbze => l.cbze
  | .invw0e => l.invw0e
  | .invw1e => l.invw1e
  | .invw0i => l.invw0i
  | .invw1i => l.invw1i

/-- R3's constraint (`0b10 ∉ LEGAL(r, CBIE)`) and R17, U2 ("a non-empty set per register and field"). -/
def LegalSets.wf (l : LegalSets) : Bool :=
  !l.cbie.isEmpty && !l.cbie.contains 0b10#2 && !l.cbcfe.isEmpty && !l.cbze.isEmpty && !l.invw0e.isEmpty &&
    !l.invw1e.isEmpty && !l.invw0i.isEmpty && !l.invw1i.isEmpty

/-- The parameters of R3, and R104's choice of what follows a trap. -/
structure Config where
  /-- The name of this hart in a recorded event (R33); one hart (R112). -/
  hartId : Nat
  /-- `SCHEME`. -/
  scheme : Scheme
  /-- `XLEN`. -/
  xlen : Xlen
  /-- `H_IMPL`. -/
  hImpl : Bool
  /-- `ADDR_M`. -/
  addrM : CsrNum
  /-- `ADDR_S`. -/
  addrS : CsrNum
  /-- `ADDR_H`. -/
  addrH : CsrNum
  pos : FieldPositions
  /-- `LEGAL(mcmocontrol, ·)`. -/
  legalM : LegalSets
  /-- `LEGAL(scmocontrol, ·)`. -/
  legalS : LegalSets
  /-- `LEGAL(hcmocontrol, ·)`. -/
  legalH : LegalSets
  /-- `FAULT_KIND`. -/
  faultKind : FaultKind
  /-- `TVAL_ILLEGAL`. -/
  tvalIllegal : TvalIllegal
  /-- `CACHE_BLOCK_BYTES`. -/
  cacheBlockBytes : Nat
  /-- `RESET_PC`. -/
  resetPc : Word
  /-- `CSR_ACCESS_FAULT(mode, r)`: the refused accesses that raise a virtual instruction exception; every other refused
  access raises an illegal instruction exception (R3, R90). -/
  virtualAccess : List (Mode × CmoReg)
  trapModel : TrapModel
deriving DecidableEq, Repr

/-- `LEGAL(r, ·)`. -/
def Config.legal (c : Config) : CmoReg → LegalSets
  | .m => c.legalM
  | .s => c.legalS
  | .h => c.legalH

/-- The constraints the spec puts on its parameters: field positions pairwise distinct and `< XLEN` (R40), `LEGAL` sets as
R3 and R17 ask, distinct CSR numbers (R44), a cache block that a naturally aligned region can be, a power of two bytes that
fits the address space (R33, log 20), and a reset pc that is a 4-byte aligned `XLEN`-bit value (R26, R36). R40 does not say
whether "pairwise distinct" is meant within each scheme or across both: that it is asked within each scheme only, so that a
scheme A position may coincide with a scheme B one, is the model's choice (DESIGN CHOICE, log 24). -/
def Config.wf (c : Config) : Bool :=
  decide (c.pos.usedA.Nodup) && decide (c.pos.usedB.Nodup) &&
    (c.pos.usedA ++ c.pos.usedB).all (fun p => decide (p < c.xlen.bits)) &&
    c.legalM.wf && c.legalS.wf && c.legalH.wf &&
    decide ([c.addrM, c.addrS, c.addrH].Nodup) &&
    (List.range (c.xlen.bits + 1)).any (fun k => c.cacheBlockBytes == 2 ^ k) &&
    decide (c.resetPc.toNat % 4 = 0) && decide (c.resetPc.toNat < 2 ^ c.xlen.bits)

/-- D7's default instance of `LEGAL`: every non-reserved value is legal. -/
def LegalSets.everyValue : LegalSets :=
  { cbie := [0b00#2, 0b01#2, 0b11#2], cbcfe := [false, true], cbze := [false, true], invw0e := [false, true],
    invw1e := [false, true], invw0i := [false, true], invw1i := [false, true] }

/-- R90's default of `CSR_ACCESS_FAULT`: virtual instruction from `VS` and `VU` for the s- and h-registers. -/
def Config.defaultVirtualAccess : List (Mode × CmoReg) :=
  [(.vs, .s), (.vs, .h), (.vu, .s), (.vu, .h)]

/-- The configuration `State.reset` runs under: the defaults of R3 where it gives one, the instantiation `INST_ENVCFG` of
R3 (PRESUMED, log 4), and DESIGN CHOICES of log 4 and log 10 for the rest. No claim may take it for a fact about the hardware;
the statements quantify over every configuration. -/
def Config.standard : Config :=
  { hartId := 0
    scheme := .A
    xlen := .x64
    hImpl := true
    addrM := 0x30A
    addrS := 0x10A
    addrH := 0x60A
    pos := { cbieLo := 4, cbcfe := 6, cbze := 7, invw0e := 0, invw1e := 1, invw0i := 2, invw1i := 3 }
    legalM := LegalSets.everyValue
    legalS := LegalSets.everyValue
    legalH := LegalSets.everyValue
    faultKind := .storeAmo
    tvalIllegal := .instructionWord
    cacheBlockBytes := 64
    resetPc := 0x80000000
    virtualAccess := Config.defaultVirtualAccess
    trapModel := .entry }

/-- FREE VALUE (log 11): what `legalize` answers, before it is brought into `LEGAL(r, CBIE)`, when the written `CBIE` value
is not legal; a function of the register, the old value and the written value only (R23). Nothing constrains it. -/
opaque Config.reservedCbie : CmoReg → BitVec 2 → BitVec 2 → BitVec 2

/-- FREE VALUE (log 11): the same for a one-bit field whose written value is not legal (R23). -/
opaque Config.illegalBit : CmoReg → BitField → Bool → Bool → Bool

/-- FREE VALUE (log 9): whether the invalidate operation of this draw number leaves the byte at this address with the stale
value (`true`) or with its current value (`false`) (R33, U5). -/
opaque Config.exposesStale : Nat → Nat → Bool

/-- FREE VALUE (log 9): whether the update on its way to this address reaches memory at the point of this draw number (R32,
R37: no rule says when it does). -/
opaque Config.updateArrives : Nat → Nat → Bool

/-- FREE VALUE (log 17): which of the values a byte may be fetched as the fetch of this draw number finds at this address
(R37, N20: nothing is said of fetch coherence). -/
opaque Config.fetchSees : Nat → Nat → Nat

end Sys2Proof
end

