-- ==== Sys2Proof/Machine/State.lean ====
section
/-! DEFINITION. The machine's state as plain data, the reasons a step can stop, and the state after reset. INVENTORY.md lists
each field with the rule that names it. -/

namespace Sys2Proof.Machine

/-- The exceptions the instructions of this spec raise (R90, R100). -/
inductive ExceptionKind where
  /-- "illegal instruction exception" (R100, R90). -/
  | illegalInstruction
  /-- Virtual instruction exception, raised by refused CSR accesses only (R90). -/
  | virtualInstruction
  /-- "Page fault" (R75, R77). -/
  | pageFault
  /-- "Guest-page fault" (R76, R77). -/
  | guestPageFault
  /-- "Access fault" (R74 to R77). -/
  | accessFault
deriving DecidableEq, Repr

/-- What stops the machine. -/
inductive Fault where
  /-- R104's outcome `Trap(exception, info, pc)`, raised by an instruction when `trapModel` is `terminal`. Safe: a run that
  ends here proves nothing of what follows. -/
  | trap (kind : ExceptionKind) (info : Word) (pc : Word)
  /-- Raised by the fetch when a byte of the instruction has no value, nothing having written it (log 8). Safe: the hardware
  would read some byte and go on. -/
  | unwrittenByte (address : Nat)
deriving DecidableEq, Repr

/-- What the spec gives no meaning. -/
inductive Refusal where
  /-- Raised by an arm of `exec` whose instruction has no meaning yet. Safe. No arm is left so. -/
  | notModelled (mnemonic : String)
  /-- Raised by the fetch for a word that is no 32-bit instruction (R41, R47). Safe: the hart has other instructions. -/
  | notThirtyTwoBits (word : InstrWord)
  /-- Raised by the fetch for a 32-bit word that matches no row of R42 and R43: `NotInScope` (R47). Safe, for the same reason. -/
  | notInScope (word : InstrWord)
  /-- Raised by the six CSR instructions for a CSR number that is none of `ADDR_M`, `ADDR_S`, `ADDR_H` (R47). Safe: the hart
  has other CSRs. -/
  | csrNotInScope (csr : CsrNum)
  /-- Raised by CBO.CLEAN, CBO.FLUSH and CBO.ZERO under scheme B, where the document gives them no rule (R86). Safe. -/
  | noRuleUnderSchemeB
  /-- Raised by CBO.INVAL when a governing register holds the reserved `CBIE` value `10` (R58). Safe: no reachable state does. -/
  | reservedCbie
  /-- Raised by a cache-block instruction in a virtualised mode while `hcmocontrol` is absent (R11, R60): there is then no such
  mode and no such register to read. Safe: no reachable state is so. -/
  | absentHRegister
  /-- Raised by the fetch when the pc is not 4-byte aligned: instruction addresses are (R26, R41), and instruction fetch faults
  are outside the spec (R103). Safe: no reachable state is so. -/
  | misalignedPc
deriving DecidableEq, Repr

/-- The scheme A fields of a register (R13). -/
structure FieldsA where
  /-- `CBIE`: `00` trap, `01` flush, `10` reserved, `11` invalidate (R14). -/
  cbie : BitVec 2
  /-- `CBCFE` (R15). -/
  cbcfe : Bool
  /-- `CBZE` (R16). -/
  cbze : Bool
deriving DecidableEq, Repr

/-- The scheme B fields of a register (R18). -/
structure FieldsB where
  invw0e : Bool
  invw1e : Bool
  invw0i : Bool
  invw1i : Bool
deriving DecidableEq, Repr

/-- One of the three registers: the fields of both designs, of which only those of the scheme in force are ever read or
written (R2, log 22). -/
structure CmoCsr where
  a : FieldsA
  b : FieldsB
deriving DecidableEq, Repr

/-- The inputs of one access: what `CBO.INVAL` under scheme B is evaluated with, for the block it names (R21, R71, R85). -/
structure AccessInputs where
  /-- `eff_mode` as an input (R5, R21); `none` leaves it to `mstatus.MPRV` (log 6). -/
  effMode : Option Mode
  /-- `W_pmp`: partial joint write permission granted by the PMP and PMAs for the block accessed (R19). -/
  wPmp : Bool
  /-- `W_s`: the leaf PTE `W` bit of the `satp` or `vsatp` translation of the address. -/
  wS : Bool
  /-- `W_h`: the leaf PTE `W` bit of the `hgatp` translation of the address. -/
  wH : Bool
  /-- The guest physical address a guest-page fault of the access reports (R101). -/
  gpa : BitVec 64
deriving DecidableEq, Repr

/-- What the rules read and never write (R21, R71). -/
structure Inputs where
  /-- `satp.MODE == Bare`. -/
  satpBare : Bool
  /-- `vsatp.MODE == Bare`. -/
  vsatpBare : Bool
  /-- `hgatp.MODE == Bare`. -/
  hgatpBare : Bool
  /-- The inputs of each access of the run, the first access's first: any two accesses may have any verdicts (log 5). -/
  listed : List AccessInputs
  /-- The inputs of an access that the list has no entry for. -/
  otherwise : AccessInputs
deriving DecidableEq, Repr

/-- A trap vector register, `ytvec` (R105). -/
structure TrapVec where
  base : Word
  /-- Vectored mode; exceptions go to `base` in either mode (R105). -/
  vectored : Bool
deriving DecidableEq, Repr

/-- What a trap into one level records, and where it goes (R105). -/
structure TrapCsrs where
  epc : Word
  cause : Word
  tval : Word
  tvec : TrapVec
deriving DecidableEq, Repr

/-- The fields of `mstatus` the spec names (R5, R105, R121). -/
structure MStatus where
  mie : Bool
  mpie : Bool
  mpp : Priv
  mpv : Bool
  gva : Bool
  mprv : Bool
deriving DecidableEq, Repr

/-- The fields of `sstatus` (S/HS) and of `vsstatus` (VS) the spec names (R105); `spp` is set when the previous privilege was
supervisor. -/
structure SStatus where
  sie : Bool
  spie : Bool
  spp : Bool
deriving DecidableEq, Repr

/-- The fields of `hstatus` the spec names (R105, R106). -/
structure HStatus where
  spv : Bool
  spvp : Bool
  gva : Bool
deriving DecidableEq, Repr

/-- The state trap entry and return read and write (R101, R105 to R107). -/
structure TrapState where
  m : TrapCsrs
  hs : TrapCsrs
  vs : TrapCsrs
  mstatus : MStatus
  sstatus : SStatus
  vsstatus : SStatus
  hstatus : HStatus
  mtval2 : Word
  htval : Word
  /-- R107; the bit of an exception is the one whose number is its cause code (log 27). -/
  medeleg : BitVec 64
  /-- R107; the same layout (log 27). -/
  hedeleg : BitVec 64
deriving DecidableEq, Repr

/-- The kinds of cache-block operation (R33). -/
inductive CacheOpKind where
  | clean
  | flush
  | invalidate
  | zero
deriving DecidableEq, Repr

/-- A recorded `CacheOp`: `(hart, kind, addr)` (R33). -/
structure CacheEvent where
  hart : Nat
  kind : CacheOpKind
  addr : Word
deriving DecidableEq, Repr

/-- Bytes by address, addresses strictly rising; an unlisted address has no value (log 8). -/
abbrev Memory := List Host.Cell

/-- The state of the machine. -/
structure State where
  /-- The parameters the machine runs under (R3); no step changes them. -/
  cfg : Config
  /-- `cur_mode` (R5, R21). -/
  curMode : Mode
  /-- `H_EN` (R3, R21). -/
  hEn : Bool
  /-- `x0` to `x31` (R25). -/
  xregs : Vector Word 32
  /-- R26. -/
  pc : Word
  /-- `mcmocontrol` (R10). -/
  mcmo : CmoCsr
  /-- `scmocontrol` (R10, R12). -/
  scmo : CmoCsr
  /-- `hcmocontrol` (R10, R11). -/
  hcmo : CmoCsr
  inputs : Inputs
  /-- How many accesses were evaluated under scheme B; the model's own field, the place in `inputs.listed` (log 5). -/
  accesses : Nat
  trap : TrapState
  /-- The bytes memory holds (R30, R31). -/
  mem : Memory
  /-- The bytes of modified cache blocks: cached copies that have not yet updated memory (R31). -/
  modified : Memory
  /-- The bytes a clean or flush has sent to memory and that have not reached it yet: no rule says when they do (R32, R37,
  log 9). -/
  pending : Memory
  /-- Values that bytes had earlier, which a fetch may still find (R37, N20); the model's own field (log 17). -/
  past : List Host.Cell
  /-- How many draws of free values were made; the model's own field (logs 9, 17). -/
  draws : Nat
  /-- The recorded cache-block operations, in program order (R33). -/
  events : List CacheEvent
deriving DecidableEq, Repr

/-- What is unspecified after reset (R28, R120, R121): a draw. -/
structure ResetDraw where
  mcmo : CmoCsr
  scmo : CmoCsr
  hcmo : CmoCsr
  xregs : Vector Word 32
  hEn : Bool
  inputs : Inputs
  trap : TrapState
deriving DecidableEq, Repr

/-- The machine right after reset, for any configuration and any draw of what the spec leaves unspecified: M-mode, pc at
`RESET_PC`, `x0` zero, `mstatus.MIE` and `mstatus.MPRV` zero (R28, R121). -/
def State.resetWith (c : Config) (d : ResetDraw) : State :=
  { cfg := c
    curMode := .m
    hEn := d.hEn
    xregs := d.xregs.set 0 0#64
    pc := c.resetPc
    mcmo := d.mcmo
    scmo := d.scmo
    hcmo := d.hcmo
    inputs := d.inputs
    accesses := 0
    trap := { d.trap with mstatus := { d.trap.mstatus with mie := false, mprv := false } }
    mem := []
    modified := []
    pending := []
    past := []
    draws := 0
    events := [] }

/-- Log 1: every instruction permitted in every mode, the value R120 warns a model not to assume away. -/
def CmoCsr.permissive : CmoCsr :=
  { a := { cbie := 0b11, cbcfe := true, cbze := true }
    b := { invw0e := true, invw1e := true, invw0i := true, invw1i := true } }

/-- Trap registers all zero (log 7). -/
def TrapCsrs.zero : TrapCsrs :=
  { epc := 0, cause := 0, tval := 0, tvec := { base := 0, vectored := false } }

/-- The draw `State.reset` uses (DESIGN CHOICE, logs 1, 2, 3, 5, 7). -/
def ResetDraw.standard : ResetDraw :=
  { mcmo := CmoCsr.permissive
    scmo := CmoCsr.permissive
    hcmo := CmoCsr.permissive
    xregs := Vector.replicate 32 0
    hEn := true
    inputs :=
      { satpBare := true, vsatpBare := true, hgatpBare := true, listed := [],
        otherwise := { effMode := none, wPmp := false, wS := false, wH := false, gpa := 0 } }
    trap :=
      { m := TrapCsrs.zero
        hs := TrapCsrs.zero
        vs := TrapCsrs.zero
        mstatus := { mie := false, mpie := false, mpp := .u, mpv := false, gva := false, mprv := false }
        sstatus := { sie := false, spie := false, spp := false }
        vsstatus := { sie := false, spie := false, spp := false }
        hstatus := { spv := false, spvp := false, gva := false }
        mtval2 := 0
        htval := 0
        medeleg := 0
        hedeleg := 0 } }

/-- The machine right after reset, under the configuration and the draw the assumption log names. -/
def State.reset : State := State.resetWith Config.standard ResetDraw.standard

end Sys2Proof.Machine
end

