-- ==== Sys2Proof/Machine/Memory.lean ====
section
/-! DEFINITION. Memory as a sorted list of cells (R30): reading, writing and dropping one byte, and the canonical form. -/

namespace Sys2Proof.Machine

/-- The canonical form: addresses strictly rising. An unlisted address has no value, so no listed entry can equal what an
unlisted address reads as. -/
abbrev Memory.wf (m : Memory) : Prop := List.Pairwise (fun c d => c.1 < d.1) m

/-- The byte at an address, if it has a value. -/
def Memory.read : Memory → Nat → Option Byte
  | [], _ => none
  | (a', v) :: m, a => if a' = a then some v else Memory.read m a

/-- Give the byte at `a` the value `v`, keeping the addresses rising. -/
def Memory.write : Memory → Nat → Byte → Memory
  | [], a, v => [(a, v)]
  | (a', v') :: m, a, v =>
    if a < a' then (a, v) :: (a', v') :: m
    else if a' = a then (a, v) :: m
    else (a', v') :: Memory.write m a v

/-- Take every address that `p` holds of out of the list. -/
def Memory.dropWhere (p : Nat → Bool) (m : Memory) : Memory :=
  m.filter (fun c => !p c.1)

/-- Write each cell of a list, in the list's order. -/
def Memory.writeAll (cells : List Host.Cell) (m : Memory) : Memory :=
  cells.foldl (fun m c => Memory.write m c.1 c.2) m

/-- The cells of a list whose address the memory lists: what writing that memory over them replaces. -/
def Memory.replacedBy (m : Memory) (cells : List Host.Cell) : List Host.Cell :=
  cells.filter (fun c => (Memory.read m c.1).isSome)

end Sys2Proof.Machine
end

