-- ==== Sys2Proof/WellFormed.lean ====
section
/-! DEFINITION. Which instructions this spec gives a meaning: the widths of the operands are in their types, so the one check
left is that a CSR access names one of the three registers (R44, R47). It depends on `ADDR_M`, `ADDR_S`, `ADDR_H`. -/

namespace Sys2Proof

/-- The register whose number equals the `csr` field (R44), or none: a CSR outside this spec (R47). -/
def Config.regOf (c : Config) (csr : CsrNum) : Option CmoReg :=
  if csr = c.addrM then some .m
  else if csr = c.addrS then some .s
  else if csr = c.addrH then some .h
  else none

/-- The CSR number an instruction names, if it names one. -/
def Instr.csr? : Instr → Option CsrNum
  | .cboInval _ => none
  | .cboClean _ => none
  | .cboFlush _ => none
  | .cboZero _ => none
  | .csrrw _ csr _ => some csr
  | .csrrs _ csr _ => some csr
  | .csrrc _ csr _ => some csr
  | .csrrwi _ csr _ => some csr
  | .csrrsi _ csr _ => some csr
  | .csrrci _ csr _ => some csr

/-- An instruction is well-formed if it names no CSR, or one of the three of this spec (R47). -/
def Instr.wellFormed (c : Config) (i : Instr) : Bool :=
  match i.csr? with
  | none => true
  | some csr => (c.regOf csr).isSome

end Sys2Proof
end

