-- ==== Sys2Proof/Machine/Ops.lean ====
section
/-! DEFINITION. The named operations the meanings share: registers and pc, the three control registers (R17, R22, R23, R40),
the cache-block operations (R33), taking an exception (R104, R105, R107) and returning from one (R106). -/

namespace Sys2Proof.Machine

/-! ### `XLEN`-bit values -/

/-- The low `XLEN` bits of a word (R3). -/
def trunc (c : Config) (v : Word) : Word :=
  match c.xlen with
  | .x64 => v
  | .x32 => (v.setWidth 32).setWidth 64

/-! ### Integer registers and pc -/

/-- `x[i]`; `x0` reads as zero (R25). -/
def State.x (s : State) (i : RegNum) : Word :=
  if i = 0#5 then 0#64 else trunc s.cfg (s.xregs[i.toNat]'i.isLt)

/-- `x[i] <- v`; a write to `x0` is discarded (R25). -/
def State.setX (s : State) (i : RegNum) (v : Word) : State :=
  if i = 0#5 then s else { s with xregs := s.xregs.set i.toNat (trunc s.cfg v) i.isLt }

/-- `pc <- pc + 4`, modulo `2^XLEN` (R26). -/
def State.advance (s : State) : State :=
  { s with pc := trunc s.cfg (s.pc + 4) }

/-! ### Modes -/

/-- The nominal privilege of a mode (R105). -/
def privOf : Mode → Priv
  | .m => .m
  | .shs => .s
  | .u => .u
  | .vs => .s
  | .vu => .u

/-- `H_IMPL && H_EN`: `hcmocontrol` exists, and `VS` and `VU` are modes of the hart (R11). -/
def State.hPresent (s : State) : Bool := s.cfg.hImpl && s.hEn

/-- The mode of a privilege and a virtualisation bit; without the H-extension there is no virtualised mode (R4, R106). -/
def State.modeOf (s : State) (p : Priv) (v : Bool) : Mode :=
  match p, v && s.hPresent with
  | .m, _ => .m
  | .s, false => .shs
  | .s, true => .vs
  | .u, false => .u
  | .u, true => .vu

/-- The inputs of the access being evaluated (R21, R71): the list's entry for it, or the standing ones (log 5). -/
def State.access (s : State) : AccessInputs := (s.inputs.listed[s.accesses]?).getD s.inputs.otherwise

/-- One access was evaluated: the next one has inputs of its own (log 5). -/
def State.countAccess (s : State) : State := { s with accesses := s.accesses + 1 }

/-- `eff_mode` (R5): the input if one is given (R21); else `cur_mode`, unless M-mode runs with `mstatus.MPRV` set, which makes
it the mode that `MPP` and `MPV` name (log 6). -/
def State.effMode (s : State) : Mode :=
  match s.access.effMode with
  | some mode => mode
  | none =>
    if s.curMode = .m ∧ s.trap.mstatus.mprv = true then s.modeOf s.trap.mstatus.mpp s.trap.mstatus.mpv else s.curMode

/-! ### The three control registers -/

/-- What is stored for a register. -/
def State.csr (s : State) : CmoReg → CmoCsr
  | .m => s.mcmo
  | .s => s.scmo
  | .h => s.hcmo

/-- A register, if it is present (R11); a rule that reads an absent register gets nothing (R60). -/
def State.csr? (s : State) (r : CmoReg) : Option CmoCsr :=
  match r with
  | .m => some s.mcmo
  | .s => some s.scmo
  | .h => if s.hPresent then some s.hcmo else none

/-- Replace a register. -/
def State.setCsr (s : State) (r : CmoReg) (v : CmoCsr) : State :=
  match r with
  | .m => { s with mcmo := v }
  | .s => { s with scmo := v }
  | .h => { s with hcmo := v }

/-- One bit of a word. -/
def bitAt (b : Bool) (position : Nat) : Word := if b then 1#64 <<< position else 0#64

/-- The word of a register, built from its fields, every other bit zero (R22, R24, R40). -/
def packCsr (c : Config) (v : CmoCsr) : Word :=
  match c.scheme with
  | .A => trunc c (v.a.cbie.setWidth 64 <<< c.pos.cbieLo ||| bitAt v.a.cbcfe c.pos.cbcfe ||| bitAt v.a.cbze c.pos.cbze)
  | .B =>
    trunc c (bitAt v.b.invw0e c.pos.invw0e ||| bitAt v.b.invw1e c.pos.invw1e ||| bitAt v.b.invw0i c.pos.invw0i |||
      bitAt v.b.invw1i c.pos.invw1i)

/-- `CSRRead(r)` (R22). -/
def State.csrRead (s : State) (r : CmoReg) : Word := packCsr s.cfg (s.csr r)

/-- Bring a value into a legal set: itself if it is legal, else the set's first member. -/
def intoSet {α : Type} [BEq α] (legal : List α) (v : α) : α :=
  if legal.contains v then v else legal.headD v

/-- `legalize(r, CBIE, old, written)` (R17, R23, R45): the written value if it is legal, else some legal value, which nothing
further constrains (log 11). -/
def legalizeCbie (c : Config) (r : CmoReg) (old written : BitVec 2) : BitVec 2 :=
  if (c.legal r).cbie.contains written then written
  else intoSet (c.legal r).cbie (Config.reservedCbie r old written)

/-- `legalize(r, f, old, written)` of a one-bit field (R17, R23; log 11). -/
def legalizeBit (c : Config) (r : CmoReg) (f : BitField) (old written : Bool) : Bool :=
  if ((c.legal r).bit f).contains written then written
  else intoSet ((c.legal r).bit f) (Config.illegalBit r f old written)

/-- The `CBIE` bits of a written word (R40). -/
def cbieOf (c : Config) (w : Word) : BitVec 2 := (w >>> c.pos.cbieLo).setWidth 2

/-- The position of a one-bit field (R40). -/
def bitPosition (p : FieldPositions) : BitField → Nat
  | .cbcfe => p.cbcfe
  | .cbze => p.cbze
  | .invw0e => p.invw0e
  | .invw1e => p.invw1e
  | .invw0i => p.invw0i
  | .invw1i => p.invw1i

/-- The bit of a written word at a one-bit field's position (R40). -/
def bitOf (c : Config) (f : BitField) (w : Word) : Bool := w.getLsbD (bitPosition c.pos f)

/-- What a register holds after the word `w` is written to it: every field of the scheme in force legalised on its own, bits
that are no field's discarded (R23, R24). -/
def legalizedCsr (c : Config) (r : CmoReg) (old : CmoCsr) (w : Word) : CmoCsr :=
  match c.scheme with
  | .A =>
    { old with
      a :=
        { cbie := legalizeCbie c r old.a.cbie (cbieOf c w)
          cbcfe := legalizeBit c r .cbcfe old.a.cbcfe (bitOf c .cbcfe w)
          cbze := legalizeBit c r .cbze old.a.cbze (bitOf c .cbze w) } }
  | .B =>
    { old with
      b :=
        { invw0e := legalizeBit c r .invw0e old.b.invw0e (bitOf c .invw0e w)
          invw1e := legalizeBit c r .invw1e old.b.invw1e (bitOf c .invw1e w)
          invw0i := legalizeBit c r .invw0i old.b.invw0i (bitOf c .invw0i w)
          invw1i := legalizeBit c r .invw1i old.b.invw1i (bitOf c .invw1i w) } }

/-- `CSRWrite(r, w)` (R23). -/
def State.csrWrite (s : State) (r : CmoReg) (w : Word) : State :=
  s.setCsr r (legalizedCsr s.cfg r (s.csr r) (trunc s.cfg w))

/-! ### Memory as this hart sees it, and the cache-block operations -/

/-- The byte that stands below the cached copies at an address: the one on its way to memory, else what memory holds. For a
modified byte it is the stale one (R31, R32; log 9). -/
def State.stored (s : State) (a : Nat) : Option Byte :=
  (Memory.read s.pending a).or (Memory.read s.mem a)

/-- What a read of this hart finds at an address: the cached copy if the byte is modified, else what stands below it (R31). -/
def State.readByte (s : State) (a : Nat) : Option Byte :=
  (Memory.read s.modified a).or (s.stored a)

/-- Put a byte into memory itself, so that every read and fetch of this hart finds it; used to place a program (log 18). -/
def State.placeByte (s : State) (a : Nat) (v : Byte) : State :=
  { s with
    mem := Memory.write s.mem a v
    modified := Memory.dropWhere (fun a' => a' == a) s.modified
    pending := Memory.dropWhere (fun a' => a' == a) s.pending
    past := s.past.filter (fun c => !(c.1 == a)) }

/-- Place bytes at consecutive addresses. -/
def State.placeBytes (s : State) : Nat → List Byte → State
  | _, [] => s
  | a, v :: vs => State.placeBytes (s.placeByte a v) (a + 1) vs

/-- The byte at `a` is in the naturally aligned block of `CACHE_BLOCK_BYTES` that contains `addr` (R33). -/
def inBlock (c : Config) (addr : Word) (a : Nat) : Bool :=
  a / c.cacheBlockBytes == addr.toNat / c.cacheBlockBytes

/-- The addresses of that block. -/
def blockAddresses (c : Config) (addr : Word) : List Nat :=
  (List.range c.cacheBlockBytes).map (fun i => addr.toNat / c.cacheBlockBytes * c.cacheBlockBytes + i)

/-- The modified bytes of the block. -/
def State.modifiedIn (s : State) (addr : Word) : Memory := s.modified.filter (fun c => inBlock s.cfg addr c.1)

/-- Clean and flush: the modified bytes of the block are sent to memory (R32 b), which they reach at a later point that no rule
fixes (R37, log 9); no read of this hart changes (R33). -/
def State.updateBlock (s : State) (addr : Word) : State :=
  { s with
    pending := Memory.writeAll (s.modifiedIn addr) s.pending
    modified := Memory.dropWhere (inBlock s.cfg addr) s.modified
    past := s.past ++ Memory.replacedBy (s.modifiedIn addr) s.pending }

/-- The updates on their way that reach memory at this point (R32, R37; log 9). -/
def State.arriving (s : State) : Memory := s.pending.filter (fun c => Config.updateArrives s.draws c.1)

/-- What happens to the updates on their way between two instructions: some of them reach memory, as the free value
`Config.updateArrives` has it (R37, log 9). -/
def State.arrive (s : State) : State :=
  if s.pending.isEmpty then s
  else
    { s with
      mem := Memory.writeAll s.arriving s.mem
      pending := Memory.dropWhere (Config.updateArrives s.draws) s.pending
      past := s.past ++ Memory.replacedBy s.arriving s.mem
      draws := s.draws + 1 }

/-- Invalidate: each modified byte of the block is afterwards its current value or the stale one, as the free value
`Config.exposesStale` has it (R32, R33, U5; log 9). -/
def State.invalidateBlock (s : State) (addr : Word) : State :=
  { s with
    modified := Memory.dropWhere (fun a => inBlock s.cfg addr a && Config.exposesStale s.draws a) s.modified
    past := s.past ++ s.modifiedIn addr
    draws := s.draws + 1 }

/-- Make the cached copy of a byte `v`: a byte whose cached copy equals what stands below it is not modified (R31). -/
def cacheByte (below : Nat → Option Byte) (modified : Memory) (a : Nat) (v : Byte) : Memory :=
  if below a = some v then Memory.dropWhere (fun a' => a' == a) modified else Memory.write modified a v

/-- Zero: every byte of the block reads as zero (R33), in a cached copy that has not yet updated memory (log 9). -/
def State.zeroBlock (s : State) (addr : Word) : State :=
  { s with
    modified := (blockAddresses s.cfg addr).foldl (fun md a => cacheByte s.stored md a 0) s.modified
    past := s.past ++ s.modifiedIn addr }

/-- Record `(hart, kind, addr)` (R33). -/
def State.record (s : State) (kind : CacheOpKind) (addr : Word) : State :=
  { s with events := s.events ++ [{ hart := s.cfg.hartId, kind := kind, addr := addr }] }

/-- `CacheOp(kind, addr)`: the recorded event, and what R33 asks of a model that has memory. -/
def State.cacheOp (s : State) (kind : CacheOpKind) (addr : Word) : State :=
  match kind with
  | .clean => (s.updateBlock addr).record .clean addr
  | .flush => (s.updateBlock addr).record .flush addr
  | .invalidate => (s.invalidateBlock addr).record .invalidate addr
  | .zero => (s.zeroBlock addr).record .zero addr

/-! ### Exceptions -/

/-- Change the state of a next outcome; faults and refusals stay. -/
def mapNext (f : State → State) : Host.Outcome State Fault Refusal → Host.Outcome State Fault Refusal
  | .next s => .next (f s)
  | .fault r => .fault r
  | .refused r => .refused r

/-- The level a trap is taken into (R105). -/
inductive TrapLevel where
  | m
  | hs
  | vs
deriving DecidableEq, Repr

/-- The cause code (R101). -/
def causeCode (k : FaultKind) : ExceptionKind → Nat
  | .illegalInstruction => 2
  | .virtualInstruction => 22
  | .accessFault => match k with | .load => 5 | .storeAmo => 7
  | .pageFault => match k with | .load => 13 | .storeAmo => 15
  | .guestPageFault => match k with | .load => 21 | .storeAmo => 23

/-- What an illegal or a virtual instruction exception records: the instruction word zero-extended, or zero (R101). -/
def instrInfo (c : Config) (i : Instr) : Word :=
  match c.tvalIllegal with
  | .instructionWord => (encode i).setWidth 64
  | .zero => 0

/-- Where the trap goes (R105, R107): M unless `medeleg` delegates the exception from a lower mode, then S/HS unless `hedeleg`
delegates it further from a virtualised mode to VS; a guest-page fault never goes to VS. R107 does not say whether `hedeleg`
sends an exception to VS on its own or only where `medeleg` delegates it as well: that both bits are asked is the model's
(PRESUMED, log 25). Nor does it say whether S/HS is itself one of the "lower modes" that `medeleg` delegates from: that an
exception raised in S/HS goes to S/HS where its `medeleg` bit is set is the model's (PRESUMED, log 26). Nor does the spec give the
layout of the two registers: that the bit of an exception is the one whose number is its cause code of R101, by `FAULT_KIND`, is
the model's (PRESUMED, log 27). -/
def State.trapLevel (s : State) (k : ExceptionKind) : TrapLevel :=
  if s.curMode = .m ∨ s.trap.medeleg.getLsbD (causeCode s.cfg.faultKind k) = false then .m
  else if s.curMode.virtualised = true ∧ k ≠ .guestPageFault ∧
      s.trap.hedeleg.getLsbD (causeCode s.cfg.faultKind k) = true then .vs
  else .hs

/-- `yepc`, `ycause`, `ytval` on entry (R105); `ytvec` stays. -/
def TrapCsrs.enter (t : TrapCsrs) (epc cause tval : Word) : TrapCsrs :=
  { t with epc := epc, cause := cause, tval := tval }

/-- Whether the recorded value is a guest virtual address, for `GVA` (log 13). -/
def State.recordsGuestAddress (s : State) : ExceptionKind → Bool
  | .illegalInstruction => false
  | .virtualInstruction => false
  | .pageFault => s.effMode.virtualised
  | .guestPageFault => s.effMode.virtualised
  | .accessFault => s.effMode.virtualised

/-- `mtval2` or `htval` on entry: the guest physical address shifted right by 2 for a guest-page fault (R101), else what it
held (log 15). -/
def State.guestAddressRecorded (s : State) (k : ExceptionKind) (old : Word) : Word :=
  match k with
  | .guestPageFault => trunc s.cfg (s.access.gpa >>> 2)
  | .illegalInstruction => old
  | .virtualInstruction => old
  | .pageFault => old
  | .accessFault => old

/-- Trap entry into M (R105). -/
def State.enterM (s : State) (k : ExceptionKind) (info : Word) : State :=
  { s with
    curMode := .m
    pc := s.trap.m.tvec.base
    trap :=
      { s.trap with
        m := s.trap.m.enter s.pc (BitVec.ofNat 64 (causeCode s.cfg.faultKind k)) info
        mtval2 := s.guestAddressRecorded k s.trap.mtval2
        mstatus :=
          { s.trap.mstatus with
            mpp := privOf s.curMode
            mpie := s.trap.mstatus.mie
            mie := false
            mpv := s.curMode.virtualised
            gva := s.recordsGuestAddress k } } }

/-- `hstatus` on entry into HS (R105): `SPV` the previous virtualisation mode, `SPVP` the guest's privilege if it was virtualised
(log 14), `GVA` (log 13). Without the H-extension there is no `hstatus`. -/
def State.hstatusOnEntry (s : State) (k : ExceptionKind) : HStatus :=
  if s.hPresent then
    { spv := s.curMode.virtualised
      spvp := if s.curMode.virtualised then decide (privOf s.curMode = .s) else s.trap.hstatus.spvp
      gva := s.recordsGuestAddress k }
  else s.trap.hstatus

/-- Trap entry into S/HS (R105). -/
def State.enterHs (s : State) (k : ExceptionKind) (info : Word) : State :=
  { s with
    curMode := .shs
    pc := s.trap.hs.tvec.base
    trap :=
      { s.trap with
        hs := s.trap.hs.enter s.pc (BitVec.ofNat 64 (causeCode s.cfg.faultKind k)) info
        htval := s.guestAddressRecorded k s.trap.htval
        hstatus := s.hstatusOnEntry k
        sstatus :=
          { spp := decide (privOf s.curMode = .s), spie := s.trap.sstatus.sie, sie := false } } }

/-- Trap entry into VS (R105). -/
def State.enterVs (s : State) (k : ExceptionKind) (info : Word) : State :=
  { s with
    curMode := .vs
    pc := s.trap.vs.tvec.base
    trap :=
      { s.trap with
        vs := s.trap.vs.enter s.pc (BitVec.ofNat 64 (causeCode s.cfg.faultKind k)) info
        vsstatus :=
          { spp := decide (privOf s.curMode = .s), spie := s.trap.vsstatus.sie, sie := false } } }

/-- Taking an exception (R105): the trap entry into the level that R107 chooses. -/
def State.takeTrap (s : State) (k : ExceptionKind) (info : Word) : State :=
  match s.trapLevel k with
  | .m => s.enterM k info
  | .hs => s.enterHs k info
  | .vs => s.enterVs k info

/-- `raise k(info)` (R104): the instruction ends here, having written nothing. -/
def raise (k : ExceptionKind) (info : Word) (s : State) : Host.Outcome State Fault Refusal :=
  match s.cfg.trapModel with
  | .terminal => .fault (.trap k info s.pc)
  | .entry => .next (s.takeTrap k info)

/-- Return from a trap taken into M: `mret` (R106). No instruction of the opcode table reaches it (log 16). -/
def State.returnFromM (s : State) : State :=
  { s with
    curMode := s.modeOf s.trap.mstatus.mpp s.trap.mstatus.mpv
    pc := s.trap.m.epc
    trap := { s.trap with mstatus := { s.trap.mstatus with mie := s.trap.mstatus.mpie } } }

/-- Return from a trap taken into S/HS: `sret` there (R106; log 16). -/
def State.returnFromHs (s : State) : State :=
  { s with
    curMode := s.modeOf (if s.trap.sstatus.spp then .s else .u) s.trap.hstatus.spv
    pc := s.trap.hs.epc
    trap := { s.trap with sstatus := { s.trap.sstatus with sie := s.trap.sstatus.spie } } }

/-- Return from a trap taken into VS: `sret` there (R106; log 16). -/
def State.returnFromVs (s : State) : State :=
  { s with
    curMode := s.modeOf (if s.trap.vsstatus.spp then .s else .u) true
    pc := s.trap.vs.epc
    trap := { s.trap with vsstatus := { s.trap.vsstatus with sie := s.trap.vsstatus.spie } } }

/-- Returning from an exception taken into a level (R106). -/
def State.trapReturn (s : State) : TrapLevel → State
  | .m => s.returnFromM
  | .hs => s.returnFromHs
  | .vs => s.returnFromVs

end Sys2Proof.Machine
end

