-- ==== Sys2Proof/Machine/Operands.lean ====
section
/-! DEFINITION. The operand forms of the ten instructions: an address register (R42), a source register (R43) and a
zero-extended immediate (R44), and the three ways a CSR instruction makes the word it writes (R91 to R96). -/

namespace Sys2Proof.Machine

/-- The address a cache-block instruction names: `x[rs1]`, nothing added (R33, R42). -/
def State.blockOperand (s : State) (rs1 : RegNum) : Word := s.x rs1

/-- The source of a register form: `x[rs1]` (R91 to R93). -/
def State.regOperand (s : State) (rs1 : RegNum) : Word := s.x rs1

/-- The source of an immediate form: `zext_XLEN(uimm)` (R44, R94 to R96). -/
def immOperand (uimm : BitVec 5) : Word := uimm.setWidth 64

/-- `csrrw`, `csrrwi`: the source is written (R91, R94). -/
def writeForm (src : Word) (_old : Word) : Option Word := some src

/-- `csrrs`, `csrrsi`: the bits of the source are set; no write for operand field 0, whatever its value (R92, R95). -/
def setForm (field : BitVec 5) (src : Word) (old : Word) : Option Word :=
  if field = 0#5 then none else some (old ||| src)

/-- `csrrc`, `csrrci`: the bits of the source are cleared; no write for operand field 0 (R93, R96). -/
def clearForm (field : BitVec 5) (src : Word) (old : Word) : Option Word :=
  if field = 0#5 then none else some (old &&& ~~~src)

end Sys2Proof.Machine
end

