-- ==== Sys2Proof/Machine/Gate.lean ====
section
/-! DEFINITION. Which registers govern a mode (R50), and what the cache-block instructions share. -/

namespace Sys2Proof.Machine

/-- `Governing(mode)` (R50, R52): the registers whose fields are consulted, in order. -/
def governing : Mode → List CmoReg
  | .m => []
  | .shs => [.m]
  | .u => [.m, .s]
  | .vs => [.m, .h]
  | .vu => [.m, .s, .h]

/-- The registers of a list, if each of them is present (R11, R60). -/
def State.csrs? (s : State) : List CmoReg → Option (List CmoCsr)
  | [] => some []
  | r :: rs =>
    match s.csr? r, State.csrs? s rs with
    | some v, some vs => some (v :: vs)
    | _, _ => none

/-- The registers that govern the current mode (R50). -/
def State.governors (s : State) : Option (List CmoCsr) := s.csrs? (governing s.curMode)

/-- The instruction executes: the cache-block operation on the block that `x[rs1]` names, and `pc <- pc + 4`
(R53 to R56, R85). -/
def completeCacheOp (kind : CacheOpKind) (rs1 : RegNum) (s : State) : Host.Outcome State Fault Refusal :=
  .next (s.cacheOp kind (s.blockOperand rs1)).advance

/-- The common shape of R54, R55 and R56: execute iff every governing register has the field set, else an illegal instruction
exception (R51). -/
def gatedCacheOp (field : CmoCsr → Bool) (kind : CacheOpKind) (i : Instr) (rs1 : RegNum) (s : State) :
    Host.Outcome State Fault Refusal :=
  match s.governors with
  | none => .refused .absentHRegister
  | some g =>
    if g.all field then completeCacheOp kind rs1 s
    else raise .illegalInstruction (instrInfo s.cfg i) s

/-- `CBO.INVAL` under scheme A (R53, R57, R58). -/
def invalSchemeA (i : Instr) (rs1 : RegNum) (s : State) : Host.Outcome State Fault Refusal :=
  match s.governors with
  | none => .refused .absentHRegister
  | some g =>
    if g.any (fun v => v.a.cbie == 0b00) then raise .illegalInstruction (instrInfo s.cfg i) s
    else if g.any (fun v => v.a.cbie == 0b10) then .refused .reservedCbie
    else if g.any (fun v => v.a.cbie == 0b01) then completeCacheOp .flush rs1 s
    else completeCacheOp .invalidate rs1 s

end Sys2Proof.Machine
end

