-- ==== Sys2Proof/Machine/Invw.lean ====
section
/-! DEFINITION. Scheme B: `CBO.INVAL` governed by the `INVW` bits (R70 to R86). -/

namespace Sys2Proof.Machine

/-- `Bare_s` (R20, R71): `vsatp` when the effective mode is virtualised, else `satp`. -/
def State.bareS (s : State) : Bool :=
  if s.effMode.virtualised then s.inputs.vsatpBare else s.inputs.satpBare

/-- `Bare_h` (R71). -/
def State.bareH (s : State) : Bool := s.inputs.hgatpBare

/-- `E(r)` (R72): write permission selects `INVW1E` or `INVW0E`. -/
def selectE (w : Bool) (v : CmoCsr) : Bool := if w then v.b.invw1e else v.b.invw0e

/-- `I(r)` (R79): write permission selects `INVW1I` or `INVW0I` if the protection mechanism is enabled, else both must be set. -/
def selectI (enabled w : Bool) (v : CmoCsr) : Bool :=
  if enabled then (if w then v.b.invw1i else v.b.invw0i) else v.b.invw0i && v.b.invw1i

/-- `Em` (R72): the m-register has no `Bare` term. -/
def State.em (s : State) : Bool := selectE s.access.wPmp s.mcmo

/-- `Es` (R72). -/
def State.es (s : State) : Bool := s.bareS || selectE s.access.wS s.scmo

/-- `Eh` (R72). -/
def State.eh (s : State) : Bool := s.bareH || selectE s.access.wH s.hcmo

/-- `Im` (R79): the PMP and PMAs are always enabled (D16). -/
def State.im (s : State) : Bool := selectI true s.access.wPmp s.mcmo

/-- `Is` (R79). -/
def State.is (s : State) : Bool := selectI (!s.bareS) s.access.wS s.scmo

/-- `Ih` (R79). -/
def State.ih (s : State) : Bool := selectI (!s.bareH) s.access.wH s.hcmo

/-- The fault of `CBO.INVAL`, if any, by effective mode (R73 to R78): page fault before guest-page fault before access fault. -/
def State.invwFault (s : State) : Option ExceptionKind :=
  match s.effMode with
  | .m => none
  | .shs => if !s.em then some .accessFault else none
  | .u => if !s.es then some .pageFault else if !s.em then some .accessFault else none
  | .vs => if !s.eh then some .guestPageFault else if !s.em then some .accessFault else none
  | .vu =>
    if !s.es then some .pageFault
    else if !s.eh then some .guestPageFault
    else if !s.em then some .accessFault
    else none

/-- Whether `CBO.INVAL`, given no fault, performs an invalidate operation, by effective mode (R80 to R84). -/
def State.invwInvalidates (s : State) : Bool :=
  match s.effMode with
  | .m => true
  | .shs => s.im
  | .u => s.is && s.im
  | .vs => s.ih && s.im
  | .vu => s.is && s.ih && s.im

/-- `CBO.INVAL` under scheme B (R85), evaluated with the inputs of this access (R71); the next access has its own (log 5). -/
def invalSchemeB (rs1 : RegNum) (s : State) : Host.Outcome State Fault Refusal :=
  if s.effMode.virtualised && !s.hPresent then .refused .absentHRegister
  else
    mapNext State.countAccess
      (match s.invwFault with
      | some k => raise k (s.blockOperand rs1) s
      | none => completeCacheOp (if s.invwInvalidates then .invalidate else .flush) rs1 s)

end Sys2Proof.Machine
end

