-- ==== Sys2Proof/Machine/Cbo.lean ====
section
/-! DEFINITION. The meanings of the four cache-block instructions under the scheme in force (R2). -/

namespace Sys2Proof.Machine

/-- `CBO.INVAL` (R53 under scheme A, R85 under scheme B). -/
def execCboInval (rs1 : RegNum) (s : State) : Host.Outcome State Fault Refusal :=
  match s.cfg.scheme with
  | .A => invalSchemeA (.cboInval rs1) rs1 s
  | .B => invalSchemeB rs1 s

/-- `CBO.CLEAN` (R54; refused under scheme B, R86). -/
def execCboClean (rs1 : RegNum) (s : State) : Host.Outcome State Fault Refusal :=
  match s.cfg.scheme with
  | .A => gatedCacheOp (fun v => v.a.cbcfe) .clean (.cboClean rs1) rs1 s
  | .B => .refused .noRuleUnderSchemeB

/-- `CBO.FLUSH` (R55; refused under scheme B, R86). -/
def execCboFlush (rs1 : RegNum) (s : State) : Host.Outcome State Fault Refusal :=
  match s.cfg.scheme with
  | .A => gatedCacheOp (fun v => v.a.cbcfe) .flush (.cboFlush rs1) rs1 s
  | .B => .refused .noRuleUnderSchemeB

/-- `CBO.ZERO` (R56; refused under scheme B, R86). -/
def execCboZero (rs1 : RegNum) (s : State) : Host.Outcome State Fault Refusal :=
  match s.cfg.scheme with
  | .A => gatedCacheOp (fun v => v.a.cbze) .zero (.cboZero rs1) rs1 s
  | .B => .refused .noRuleUnderSchemeB

end Sys2Proof.Machine
end

