-- ==== Sys2Proof/Machine/CsrAccess.lean ====
section
/-! DEFINITION. The meanings of the six CSR access instructions (R90 to R97). -/

namespace Sys2Proof.Machine

/-- `allowed(r)`: the modes that may access a register (R29, R90). -/
def accessAllowed : CmoReg → Mode → Bool
  | .m, mode => [Mode.m].contains mode
  | .s, mode => [Mode.m, Mode.shs, Mode.vs].contains mode
  | .h, mode => [Mode.m, Mode.shs].contains mode

/-- `CSR_ACCESS_FAULT(mode, r)` (R3, R90). -/
def accessFaultKind (c : Config) (mode : Mode) (r : CmoReg) : ExceptionKind :=
  if c.virtualAccess.contains (mode, r) then .virtualInstruction else .illegalInstruction

/-- `CheckAccess(r)` (R90): the exception a refused access raises, or none. -/
def State.checkAccess (s : State) (r : CmoReg) : Option ExceptionKind :=
  if r = .h ∧ s.hPresent = false then some .illegalInstruction
  else if accessAllowed r s.curMode then none
  else some (accessFaultKind s.cfg s.curMode r)

/-- The common shape of R91 to R96: check the access, read the register, write it with what `form` makes of the word read (or
not at all), then write the word read to `x[rd]`, and `pc <- pc + 4`. The source operand is inside `form`, read before any
write. -/
def csrAccess (i : Instr) (csr : CsrNum) (rd : RegNum) (form : Word → Option Word) (s : State) :
    Host.Outcome State Fault Refusal :=
  match s.cfg.regOf csr with
  | none => .refused (.csrNotInScope csr)
  | some r =>
    match s.checkAccess r with
    | some k => raise k (instrInfo s.cfg i) s
    | none =>
      match form (s.csrRead r) with
      | none => .next (s.setX rd (s.csrRead r)).advance
      | some w => .next ((s.csrWrite r w).setX rd (s.csrRead r)).advance

/-- `csrrw rd, csr, rs1` (R91). -/
def execCsrrw (rd : RegNum) (csr : CsrNum) (rs1 : RegNum) (s : State) : Host.Outcome State Fault Refusal :=
  csrAccess (.csrrw rd csr rs1) csr rd (writeForm (s.regOperand rs1)) s

/-- `csrrs rd, csr, rs1` (R92). -/
def execCsrrs (rd : RegNum) (csr : CsrNum) (rs1 : RegNum) (s : State) : Host.Outcome State Fault Refusal :=
  csrAccess (.csrrs rd csr rs1) csr rd (setForm rs1 (s.regOperand rs1)) s

/-- `csrrc rd, csr, rs1` (R93). -/
def execCsrrc (rd : RegNum) (csr : CsrNum) (rs1 : RegNum) (s : State) : Host.Outcome State Fault Refusal :=
  csrAccess (.csrrc rd csr rs1) csr rd (clearForm rs1 (s.regOperand rs1)) s

/-- `csrrwi rd, csr, uimm` (R94). -/
def execCsrrwi (rd : RegNum) (csr : CsrNum) (uimm : BitVec 5) (s : State) : Host.Outcome State Fault Refusal :=
  csrAccess (.csrrwi rd csr uimm) csr rd (writeForm (immOperand uimm)) s

/-- `csrrsi rd, csr, uimm` (R95). -/
def execCsrrsi (rd : RegNum) (csr : CsrNum) (uimm : BitVec 5) (s : State) : Host.Outcome State Fault Refusal :=
  csrAccess (.csrrsi rd csr uimm) csr rd (setForm uimm (immOperand uimm)) s

/-- `csrrci rd, csr, uimm` (R96). -/
def execCsrrci (rd : RegNum) (csr : CsrNum) (uimm : BitVec 5) (s : State) : Host.Outcome State Fault Refusal :=
  csrAccess (.csrrci rd csr uimm) csr rd (clearForm uimm (immOperand uimm)) s

end Sys2Proof.Machine
end

