-- ==== Sys2Proof/Machine/Fetch.lean ====
section
/-! DEFINITION. Fetching an instruction's bytes at the pc (R26, R35, R41). -/

namespace Sys2Proof.Machine

/-- What a fetch may find at an address beside what a read of this hart finds: no rule makes a fetch coherent with the
cache-block operations (R37, N20; log 17). -/
def State.fetchChoices (s : State) (a : Nat) : List (Option Byte) :=
  s.stored a :: Memory.read s.mem a :: (s.past.filter (fun c => c.1 == a)).map (fun c => some c.2)

/-- Nothing about the byte has changed that a fetch could miss: it finds what a read finds. -/
def State.fetchSettled (s : State) (a : Nat) : Bool := (s.fetchChoices a).all (fun v => v == s.readByte a)

/-- What a fetch finds at an address: what a read of this hart finds, or one of the other values the byte has or had, as the
free value `Config.fetchSees` has it (R37, N20; log 17). -/
def State.fetchByte (s : State) (a : Nat) : Option Byte :=
  if s.fetchSettled a then s.readByte a
  else
    (s.readByte a :: s.fetchChoices a).getD (Config.fetchSees s.draws a % ((s.fetchChoices a).length + 1))
      (s.readByte a)

/-- The four bytes fetched at the pc, or the first address where the fetch finds no value. -/
def State.fetchBytes (s : State) : Except Nat (List Byte) :=
  let a := s.pc.toNat
  match s.fetchByte a, s.fetchByte (a + 1), s.fetchByte (a + 2), s.fetchByte (a + 3) with
  | some b0, some b1, some b2, some b3 => .ok [b0, b1, b2, b3]
  | none, _, _, _ => .error a
  | _, none, _, _ => .error (a + 1)
  | _, _, none, _ => .error (a + 2)
  | _, _, _, none => .error (a + 3)

/-- After the fetch at the pc: a fetch that had a choice made one draw (log 17). -/
def State.fetched (s : State) : State :=
  let a := s.pc.toNat
  if s.fetchSettled a && s.fetchSettled (a + 1) && s.fetchSettled (a + 2) && s.fetchSettled (a + 3) then s
  else { s with draws := s.draws + 1 }

/-- The state an instruction executes in: updates on their way may have reached memory since the last instruction, and the
fetch may have made a draw. -/
def State.beforeExec (s : State) : State := s.arrive.fetched

/-- The word four fetched bytes make, the first lowest; for a refusal's name. -/
def wordOfList : List Byte → InstrWord
  | b0 :: b1 :: b2 :: b3 :: _ => wordOfBytes b0 b1 b2 b3
  | _ => 0

/-- How the step names bytes the decoder rejects (R41, R47). -/
def decodeRefusal (e : DecodeError) (bs : List Byte) : Refusal :=
  match e with
  | .notThirtyTwoBits => .notThirtyTwoBits (wordOfList bs)
  | .notInScope => .notInScope (wordOfList bs)
  | .tooShort => .notInScope (wordOfList bs)

/-- Place an instruction word where the step fetches next (log 18). -/
def State.placeWord (s : State) (w : InstrWord) : State := s.placeBytes s.pc.toNat (bytesOfWord w)

end Sys2Proof.Machine
end

