-- ==== Sys2Proof/Machine/Step.lean ====
section
/-! DEFINITION. One step: fetch at the pc, decode, execute (R108: "a step is the execution of one instruction"). -/

namespace Sys2Proof.Machine

/-- One step of the hart. Updates on their way to memory may reach it first (R37). -/
def step (s : State) : Host.Outcome State Fault Refusal :=
  if s.pc.toNat % 4 ≠ 0 then .refused .misalignedPc
  else
    match s.arrive.fetchBytes with
    | .error a => .fault (.unwrittenByte a)
    | .ok bs =>
      match decodeBytes bs with
      | .error e => .refused (decodeRefusal e bs)
      | .ok (i, _) => exec i s.beforeExec

/-- The state with the instruction whose low `nbits` bits are `w` stored where the next step fetches (log 18). -/
def State.withFetchWord (s : State) (nbits w : Nat) : State := s.placeWord (tableWord nbits w)

end Sys2Proof.Machine
end

