-- ==== Sys2Proof/Safety.lean ====
section
/-! DEFINITION. The terms claims use: what an outcome is, which states are well-formed (the invariant of the machine), and what
an executed cache-block or CSR instruction leaves behind, frame included. -/

namespace Sys2Proof.Machine

/-! ### Outcomes -/

/-- The next state, if the outcome is one. -/
def nextState? : Host.Outcome State Fault Refusal → Option State
  | .next s => some s
  | .fault _ => none
  | .refused _ => none

/-- The fault, if the outcome is one. -/
def faultOf? : Host.Outcome State Fault Refusal → Option Fault
  | .next _ => none
  | .fault f => some f
  | .refused _ => none

/-- The refusal, if the outcome is one. -/
def refusalOf? : Host.Outcome State Fault Refusal → Option Refusal
  | .next _ => none
  | .fault _ => none
  | .refused r => some r

/-! ### The invariant -/

/-- An `XLEN`-bit value. -/
abbrev fits (c : Config) (w : Word) : Prop := w.toNat < 2 ^ c.xlen.bits

/-- A 4-byte aligned `XLEN`-bit address (R26). -/
abbrev codeAddress (c : Config) (w : Word) : Prop := w.toNat < 2 ^ c.xlen.bits ∧ w.toNat % 4 = 0

/-- Every field of the scheme in force holds a value of `LEGAL(r, f)` (R17). -/
def legalCsr (c : Config) (r : CmoReg) (v : CmoCsr) : Bool :=
  match c.scheme with
  | .A =>
    (c.legal r).cbie.contains v.a.cbie && (c.legal r).cbcfe.contains v.a.cbcfe && (c.legal r).cbze.contains v.a.cbze
  | .B =>
    (c.legal r).invw0e.contains v.b.invw0e && (c.legal r).invw1e.contains v.b.invw1e &&
      (c.legal r).invw0i.contains v.b.invw0i && (c.legal r).invw1i.contains v.b.invw1i

/-- The words of one trap level are `XLEN`-bit values, and the two that become a pc are code addresses (R26, R105). -/
abbrev TrapCsrs.wf (c : Config) (t : TrapCsrs) : Prop :=
  codeAddress c t.epc ∧ codeAddress c t.tvec.base ∧ fits c t.cause ∧ fits c t.tval

/-- The invariant of the machine. -/
structure Inv (s : State) : Prop where
  /-- The parameters meet the spec's constraints (R3, R40). -/
  config : s.cfg.wf = true
  /-- `VS` and `VU` are modes only with the H-extension (R4, R11). -/
  mode : s.curMode.virtualised = true → s.hPresent = true
  /-- The same of the effective modes given from outside (R21). -/
  effInput : ∀ i, (i ∈ s.inputs.listed ∨ i = s.inputs.otherwise) →
    ∀ mode, i.effMode = some mode → mode.virtualised = true → s.hPresent = true
  /-- Held values are legal (R17). -/
  legal : ∀ r, legalCsr s.cfg r (s.csr r) = true
  /-- The storage of `x0` is zero (R25). -/
  zeroReg : s.xregs[0] = 0#64
  /-- Registers are `XLEN`-bit values (R25). -/
  regs : ∀ i : Fin 32, fits s.cfg s.xregs[i]
  /-- R26. -/
  pc : codeAddress s.cfg s.pc
  trapM : TrapCsrs.wf s.cfg s.trap.m
  trapHs : TrapCsrs.wf s.cfg s.trap.hs
  trapVs : TrapCsrs.wf s.cfg s.trap.vs
  /-- Memory is in its canonical form, inside the address space (R30). -/
  mem : Memory.wf s.mem
  memRange : ∀ c ∈ s.mem, c.1 < 2 ^ s.cfg.xlen.bits
  modified : Memory.wf s.modified
  modifiedRange : ∀ c ∈ s.modified, c.1 < 2 ^ s.cfg.xlen.bits
  pending : Memory.wf s.pending
  pendingRange : ∀ c ∈ s.pending, c.1 < 2 ^ s.cfg.xlen.bits
  /-- A modified byte differs from what stands below it (R31). -/
  differs : ∀ c ∈ s.modified, s.stored c.1 ≠ some c.2

/-- A reset draw takes every field from `LEGAL(r, f)` (R28, R120), holds `XLEN`-bit words, and gives no virtualised effective
mode without the H-extension (R21). -/
structure ResetDraw.Legal (c : Config) (d : ResetDraw) : Prop where
  mcmo : legalCsr c .m d.mcmo = true
  scmo : legalCsr c .s d.scmo = true
  hcmo : legalCsr c .h d.hcmo = true
  regs : ∀ i : Fin 32, fits c d.xregs[i]
  effInput : ∀ i, (i ∈ d.inputs.listed ∨ i = d.inputs.otherwise) →
    ∀ mode, i.effMode = some mode → mode.virtualised = true → (c.hImpl && d.hEn) = true
  trapM : TrapCsrs.wf c d.trap.m
  trapHs : TrapCsrs.wf c d.trap.hs
  trapVs : TrapCsrs.wf c d.trap.vs

/-- The current mode is a mode of the hart: `VS` and `VU` exist only with the H-extension (R4, R11, R60). -/
abbrev ModeOfHart (s : State) : Prop := s.curMode.virtualised = true → s.hPresent = true

/-- The same of the effective mode (R21). -/
abbrev EffModeOfHart (s : State) : Prop := s.effMode.virtualised = true → s.hPresent = true

/-! ### What an executed instruction leaves -/

/-- The instruction executed the cache-block operation `kind` on the block that contains `addr` (R33): one event is recorded,
the pc advances, no register, CSR, mode, input or trap register changes (R59 b), and no byte outside the block. Inside the
block: clean and flush change no value read, zero leaves zeros, and after an invalidate a byte is its current value or the
stale one (R32, R33). Three clauses are the model's choice: memory itself is not touched, since an update reaches it later, and
an invalidate takes one draw (log 9); under scheme B the instruction was one access (log 5). -/
structure CompletesCacheOp (kind : CacheOpKind) (addr : Word) (s t : State) : Prop where
  event : t.events = s.events ++ [{ hart := s.cfg.hartId, kind := kind, addr := addr }]
  pc : t.pc = trunc s.cfg (s.pc + 4)
  frame : t.cfg = s.cfg ∧ t.curMode = s.curMode ∧ t.hEn = s.hEn ∧ t.xregs = s.xregs ∧ t.mcmo = s.mcmo ∧
    t.scmo = s.scmo ∧ t.hcmo = s.hcmo ∧ t.inputs = s.inputs ∧ t.trap = s.trap ∧ t.mem = s.mem
  accesses : t.accesses = if s.cfg.scheme = .B then s.accesses + 1 else s.accesses
  draws : t.draws = if kind = .invalidate then s.draws + 1 else s.draws
  outside : ∀ a, inBlock s.cfg addr a = false → t.readByte a = s.readByte a
  inside : ∀ a, inBlock s.cfg addr a = true →
    match kind with
    | .clean => t.readByte a = s.readByte a
    | .flush => t.readByte a = s.readByte a
    | .zero => t.readByte a = some 0
    | .invalidate => t.readByte a = s.readByte a ∨ t.readByte a = s.stored a

/-- A clean or a flush of the block that contains `addr` was done (R32 b): each modified byte of the block is on its way to memory
with the value it had and is modified no more; an unmodified byte of the block, and every byte outside it, is as it was. That
memory itself is as it was, the byte being on its way until a later point, is the model's choice (log 9). -/
structure SentToMemory (addr : Word) (s t : State) : Prop where
  mem : t.mem = s.mem
  modifiedInside : ∀ a v, inBlock s.cfg addr a = true → Memory.read s.modified a = some v →
    Memory.read t.pending a = some v ∧ Memory.read t.modified a = none
  unmodifiedInside : ∀ a, inBlock s.cfg addr a = true → Memory.read s.modified a = none →
    Memory.read t.pending a = Memory.read s.pending a ∧ Memory.read t.modified a = none
  outside : ∀ a, inBlock s.cfg addr a = false →
    Memory.read t.pending a = Memory.read s.pending a ∧ Memory.read t.modified a = Memory.read s.modified a

/-- The word has a value of `LEGAL(r, f)` at the position of every field of the scheme in force (R17, R40). -/
def legalWord (c : Config) (r : CmoReg) (w : Word) : Bool :=
  match c.scheme with
  | .A =>
    (c.legal r).cbie.contains ((w >>> c.pos.cbieLo).setWidth 2) && (c.legal r).cbcfe.contains (w.getLsbD c.pos.cbcfe) &&
      (c.legal r).cbze.contains (w.getLsbD c.pos.cbze)
  | .B =>
    (c.legal r).invw0e.contains (w.getLsbD c.pos.invw0e) && (c.legal r).invw1e.contains (w.getLsbD c.pos.invw1e) &&
      (c.legal r).invw0i.contains (w.getLsbD c.pos.invw0i) && (c.legal r).invw1i.contains (w.getLsbD c.pos.invw1i)

/-- Every field of the scheme in force holds the bits of the word at its position (R40). -/
def HoldsFieldsOf (c : Config) (w : Word) (v : CmoCsr) : Prop :=
  match c.scheme with
  | .A => v.a.cbie = (w >>> c.pos.cbieLo).setWidth 2 ∧ v.a.cbcfe = w.getLsbD c.pos.cbcfe ∧ v.a.cbze = w.getLsbD c.pos.cbze
  | .B =>
    v.b.invw0e = w.getLsbD c.pos.invw0e ∧ v.b.invw1e = w.getLsbD c.pos.invw1e ∧
      v.b.invw0i = w.getLsbD c.pos.invw0i ∧ v.b.invw1i = w.getLsbD c.pos.invw1i

/-- The bit positions that some field of the scheme in force occupies (R24, R40). -/
def fieldBits (c : Config) : List Nat :=
  match c.scheme with
  | .A => c.pos.usedA
  | .B => c.pos.usedB

/-- Each field of the scheme in force of register `r` holds what `legalize` makes of its bits of the written word, and the
fields of the other scheme are as they were (R23, R40). -/
def WrittenTo (c : Config) (r : CmoReg) (w : Word) (old new : CmoCsr) : Prop :=
  match c.scheme with
  | .A =>
    new.a.cbie = legalizeCbie c r old.a.cbie ((w >>> c.pos.cbieLo).setWidth 2) ∧
      new.a.cbcfe = legalizeBit c r .cbcfe old.a.cbcfe (w.getLsbD c.pos.cbcfe) ∧
      new.a.cbze = legalizeBit c r .cbze old.a.cbze (w.getLsbD c.pos.cbze) ∧ new.b = old.b
  | .B =>
    new.b.invw0e = legalizeBit c r .invw0e old.b.invw0e (w.getLsbD c.pos.invw0e) ∧
      new.b.invw1e = legalizeBit c r .invw1e old.b.invw1e (w.getLsbD c.pos.invw1e) ∧
      new.b.invw0i = legalizeBit c r .invw0i old.b.invw0i (w.getLsbD c.pos.invw0i) ∧
      new.b.invw1i = legalizeBit c r .invw1i old.b.invw1i (w.getLsbD c.pos.invw1i) ∧ new.a = old.a

/-- A CSR instruction on register `r` completed: `x[rd]` holds the word read before the write (unless `rd` is `x0`), the register
holds what `legalize` makes of the written word (or is as it was, where nothing is written), the pc advances, and nothing else
changes (R91 to R96). -/
structure CompletesCsr (r : CmoReg) (rd : RegNum) (written : Option Word) (s t : State) : Prop where
  rdValue : rd ≠ 0#5 → t.x rd = packCsr s.cfg (s.csr r)
  otherRegs : ∀ i, i ≠ rd ∨ i = 0#5 → t.x i = s.x i
  register : match written with
    | none => t.csr r = s.csr r
    | some w => WrittenTo s.cfg r w (s.csr r) (t.csr r)
  otherCsrs : ∀ r', r' ≠ r → t.csr r' = s.csr r'
  pc : t.pc = trunc s.cfg (s.pc + 4)
  frame : t.cfg = s.cfg ∧ t.curMode = s.curMode ∧ t.hEn = s.hEn ∧ t.inputs = s.inputs ∧ t.trap = s.trap ∧
    t.mem = s.mem ∧ t.modified = s.modified ∧ t.pending = s.pending ∧ t.past = s.past ∧ t.draws = s.draws ∧
    t.events = s.events ∧ t.accesses = s.accesses

/-- The access to register `r` is allowed in this state (R29, R90). -/
def AccessAllowed (s : State) : CmoReg → Prop
  | .m => s.curMode = .m
  | .s => s.curMode = .m ∨ s.curMode = .shs ∨ s.curMode = .vs
  | .h => s.hPresent = true ∧ (s.curMode = .m ∨ s.curMode = .shs)

/-- Nothing but the mode, the pc and the trap registers differs: what trap entry leaves alone (R104, R105). -/
structure OnlyTrapStateDiffers (s t : State) : Prop where
  cfg : t.cfg = s.cfg
  hEn : t.hEn = s.hEn
  xregs : t.xregs = s.xregs
  csrs : t.mcmo = s.mcmo ∧ t.scmo = s.scmo ∧ t.hcmo = s.hcmo
  inputs : t.inputs = s.inputs
  memory : t.mem = s.mem ∧ t.modified = s.modified ∧ t.pending = s.pending ∧ t.past = s.past ∧ t.draws = s.draws
  events : t.events = s.events

/-- Nothing but the state of the updates on their way to memory differs, and no read of this hart does: what may happen between
two instructions (R37; logs 9, 17). -/
structure OnlyArrivalsDiffer (s t : State) : Prop where
  hart : t.cfg = s.cfg ∧ t.curMode = s.curMode ∧ t.hEn = s.hEn ∧ t.xregs = s.xregs ∧ t.pc = s.pc ∧ t.trap = s.trap
  csrs : t.mcmo = s.mcmo ∧ t.scmo = s.scmo ∧ t.hcmo = s.hcmo
  inputs : t.inputs = s.inputs ∧ t.accesses = s.accesses
  events : t.events = s.events
  modified : t.modified = s.modified
  reads : ∀ a, t.readByte a = s.readByte a
  arrivals : ∀ a, (Memory.read t.pending a = Memory.read s.pending a ∧ Memory.read t.mem a = Memory.read s.mem a) ∨
    (∃ v, Memory.read s.pending a = some v ∧ Memory.read t.pending a = none ∧ Memory.read t.mem a = some v)

/-- The same state with other inputs. -/
def withInputs (inputs : Inputs) (s : State) : State := { s with inputs := inputs }

/-- The same state with other scheme B fields in the three registers. -/
def withFieldsB (m s' h : FieldsB) (s : State) : State :=
  { s with mcmo := { s.mcmo with b := m }, scmo := { s.scmo with b := s' }, hcmo := { s.hcmo with b := h } }

/-- The same state with other scheme A fields in the three registers. -/
def withFieldsA (m s' h : FieldsA) (s : State) : State :=
  { s with mcmo := { s.mcmo with a := m }, scmo := { s.scmo with a := s' }, hcmo := { s.hcmo with a := h } }

/-- In this mode, with everything else as it is, the instruction executes and records the operation `kind`. -/
def ExecutesAs (s : State) (mode : Mode) (i : Instr) (kind : CacheOpKind) : Prop :=
  ∃ t, exec i { s with curMode := mode } = .next t ∧
    ∃ addr, t.events = s.events ++ [{ hart := s.cfg.hartId, kind := kind, addr := addr }]

/-- The four cache-block instructions. -/
def isCacheBlockInstr : Instr → Bool
  | .cboInval _ => true
  | .cboClean _ => true
  | .cboFlush _ => true
  | .cboZero _ => true
  | .csrrw _ _ _ => false
  | .csrrs _ _ _ => false
  | .csrrc _ _ _ => false
  | .csrrwi _ _ _ => false
  | .csrrsi _ _ _ => false
  | .csrrci _ _ _ => false

end Sys2Proof.Machine
end

