-- ==== Sys2Proof/Certificates/Slice0/Obligations.lean ====
section
/-! DEFINITION. The statements for the provers. Each holds for every configuration and every state that meets its premises; no
statement rests on the value of a free value or on what a log entry chose, unless its docstring says so. -/

open Sys2Proof Sys2Proof.Machine

/-! ### Encoding and fetch -/

/-- Decoding an encoded instruction gives it back, with every operand at every value, and whatever bytes follow (R41 to R43). -/
def Obligations.DecodeOfEncodeIsTheInstruction : Prop :=
  ∀ (i : Instr) (rest : List Byte),
    decode (encode i) = .ok i ∧ decodeBytes (bytesOfWord (encode i) ++ rest) = .ok (i, rest)

/-- A word the decoder reads as an instruction is that instruction's only word: no bit of it is dropped (R41 to R43). -/
def Obligations.EncodeOfDecodeIsTheWord : Prop :=
  ∀ (w : InstrWord) (i : Instr), decode w = .ok i → encode i = w

/-- The decoder accepts exactly the words that match a row of spec/opcode_table.json, and reads them as that row's
instruction (R42, R43, R47). -/
def Obligations.DecoderAcceptsExactlyTheTable : Prop :=
  ∀ (w : InstrWord) (name : String),
    (∃ i, decode w = .ok i ∧ mnemonicOf i = name) ↔
      ∃ row ∈ opcodeTable, row.mnemonic = name ∧ w &&& row.mask = row.pattern

/-- Words of table T8 of 95_test_vectors.md decode as it says. -/
def Obligations.WordsOfTheTestVectorsDecode : Prop :=
  decode 0x0005200F = .ok (.cboInval 10) ∧ decode 0x0015200F = .ok (.cboClean 10) ∧
    decode 0x0025200F = .ok (.cboFlush 10) ∧ decode 0x0045200F = .ok (.cboZero 10) ∧
    decode 0x30A29073 = .ok (.csrrw 0 0x30A 5) ∧ decode 0x30A025F3 = .ok (.csrrs 11 0x30A 0) ∧
    decode 0x10A33073 = .ok (.csrrc 0 0x10A 6) ∧ decode 0x10A05073 = .ok (.csrrwi 0 0x10A 0) ∧
    decode 0x30A86073 = .ok (.csrrsi 0 0x30A 16) ∧ decode 0x30A876F3 = .ok (.csrrci 13 0x30A 16) ∧
    decode 0x0035200F = .error .notInScope ∧ decode 0x0005100F = .error .notInScope

/-- R47: a 32-bit word that matches no row is refused as `NotInScope`, and so is a CSR row whose `csr` is none of `ADDR_M`,
`ADDR_S`, `ADDR_H`; neither is an illegal instruction. -/
def Obligations.WordsOutsideTheSpecAreRefused : Prop :=
  ∀ (s : State) (w : InstrWord), s.pc.toNat % 4 = 0 → s.arrive.fetchBytes = .ok (bytesOfWord w) →
    (w.extractLsb' 0 2 = 0b11#2 → w.extractLsb' 2 3 ≠ 0b111#3 →
      (∀ row ∈ opcodeTable, w &&& row.mask ≠ row.pattern) → step s = .refused (.notInScope w)) ∧
    (∀ row ∈ opcodeTable.drop 4, w &&& row.mask = row.pattern →
      w.extractLsb' 20 12 ≠ s.cfg.addrM → w.extractLsb' 20 12 ≠ s.cfg.addrS → w.extractLsb' 20 12 ≠ s.cfg.addrH →
      step s = .refused (.csrNotInScope (w.extractLsb' 20 12)))

/-- A step runs the decoded instruction: the bytes fetched at the pc decode to `i`, and the step is `exec i` (R108) at the state
`beforeExec`, which differs from the state of the step in nothing an instruction of this spec reads but the updates on their way
to memory that may have reached it (log 9, `BetweenInstructionsOnlyUpdatesArrive`). Each meaning moves the pc itself (R26). That a
fetch reads at the pc as a physical address is the model's choice (log 17). -/
def Obligations.StepRunsTheDecodedInstruction : Prop :=
  ∀ (s : State) (bs rest : List Byte) (i : Instr), s.pc.toNat % 4 = 0 → s.arrive.fetchBytes = .ok bs →
    decodeBytes bs = .ok (i, rest) → step s = exec i s.beforeExec

/-- The model's choice (logs 17 and 18: no rule says how a program comes into memory, nor that a fetch finds it): an
instruction's word placed at the pc is what the next step fetches and runs, and nothing that a read or a fetch finds at another
address changes. -/
def Obligations.PlacedInstructionRunsNext : Prop :=
  ∀ (s : State) (i : Instr), s.pc.toNat % 4 = 0 →
    let t := s.placeWord (encode i)
    step t = exec i t.arrive ∧ (s.pending = [] → step t = exec i t) ∧ t.pc = s.pc ∧
      ∀ a, (a < s.pc.toNat ∨ s.pc.toNat + 4 ≤ a) → t.readByte a = s.readByte a ∧ t.fetchByte a = s.fetchByte a

/-- The model's choice (logs 8 and 12): a pc that is not 4-byte aligned is refused, and an instruction byte where the fetch finds
no value stops it with a fault that names the first such address. -/
def Obligations.FetchStopsByName : Prop :=
  ∀ s : State, (s.pc.toNat % 4 ≠ 0 → step s = .refused .misalignedPc) ∧
    (∀ k < 4, s.pc.toNat % 4 = 0 → (∀ j < k, (s.arrive.fetchByte (s.pc.toNat + j)).isSome = true) →
      s.arrive.fetchByte (s.pc.toNat + k) = none → step s = .fault (.unwrittenByte (s.pc.toNat + k)))

/-! ### Scheme A: the cache-block instructions -/

/-- R50. -/
def Obligations.GoverningRegistersOfEachMode : Prop :=
  governing .m = [] ∧ governing .shs = [.m] ∧ governing .u = [.m, .s] ∧ governing .vs = [.m, .h] ∧
    governing .vu = [.m, .s, .h]

/-- R53, R57, R58, and R33 for what the operation leaves: `CBO.INVAL` traps if a governing `CBIE` is `00`; else is refused if one
is the reserved `10`; else performs a flush if one is `01`; else an invalidate. That a flush leaves memory itself as it was until
a later point, and that an invalidate takes one draw (both in `CompletesCacheOp`), is the model's choice (log 9). -/
def Obligations.CboInvalTrapsFlushesOrInvalidates : Prop :=
  ∀ (s : State) (rs1 : RegNum), s.cfg.scheme = .A → ModeOfHart s → Memory.wf s.modified →
    ((∃ r ∈ governing s.curMode, (s.csr r).a.cbie = 0b00#2) →
      exec (.cboInval rs1) s = raise .illegalInstruction (instrInfo s.cfg (.cboInval rs1)) s) ∧
    ((∀ r ∈ governing s.curMode, (s.csr r).a.cbie ≠ 0b00#2) → (∃ r ∈ governing s.curMode, (s.csr r).a.cbie = 0b10#2) →
      exec (.cboInval rs1) s = .refused .reservedCbie) ∧
    ((∀ r ∈ governing s.curMode, (s.csr r).a.cbie = 0b01#2 ∨ (s.csr r).a.cbie = 0b11#2) →
      (∃ r ∈ governing s.curMode, (s.csr r).a.cbie = 0b01#2) →
      ∃ t, exec (.cboInval rs1) s = .next t ∧ CompletesCacheOp .flush (s.x rs1) s t) ∧
    ((∀ r ∈ governing s.curMode, (s.csr r).a.cbie = 0b11#2) →
      ∃ t, exec (.cboInval rs1) s = .next t ∧ CompletesCacheOp .invalidate (s.x rs1) s t)

/-- R54, and R33 for what the clean leaves. That memory itself is as it was until a later point (`t.mem = s.mem` in
`CompletesCacheOp`) is the model's choice (log 9). -/
def Obligations.CboCleanExecutesOrTraps : Prop :=
  ∀ (s : State) (rs1 : RegNum), s.cfg.scheme = .A → ModeOfHart s → Memory.wf s.modified →
    ((∀ r ∈ governing s.curMode, (s.csr r).a.cbcfe = true) →
      ∃ t, exec (.cboClean rs1) s = .next t ∧ CompletesCacheOp .clean (s.x rs1) s t) ∧
    ((∃ r ∈ governing s.curMode, (s.csr r).a.cbcfe = false) →
      exec (.cboClean rs1) s = raise .illegalInstruction (instrInfo s.cfg (.cboClean rs1)) s)

/-- R55, and R33 for what the flush leaves. That memory itself is as it was until a later point (`t.mem = s.mem` in
`CompletesCacheOp`) is the model's choice (log 9). -/
def Obligations.CboFlushExecutesOrTraps : Prop :=
  ∀ (s : State) (rs1 : RegNum), s.cfg.scheme = .A → ModeOfHart s → Memory.wf s.modified →
    ((∀ r ∈ governing s.curMode, (s.csr r).a.cbcfe = true) →
      ∃ t, exec (.cboFlush rs1) s = .next t ∧ CompletesCacheOp .flush (s.x rs1) s t) ∧
    ((∃ r ∈ governing s.curMode, (s.csr r).a.cbcfe = false) →
      exec (.cboFlush rs1) s = raise .illegalInstruction (instrInfo s.cfg (.cboFlush rs1)) s)

/-- R56, and R33 for the zeros. A cache block has at least one byte. That the zeros stand in a cached copy only, memory itself
being as it was (`t.mem = s.mem` in `CompletesCacheOp`), is the model's choice (log 9). -/
def Obligations.CboZeroExecutesOrTraps : Prop :=
  ∀ (s : State) (rs1 : RegNum), s.cfg.scheme = .A → ModeOfHart s → 0 < s.cfg.cacheBlockBytes →
    ((∀ r ∈ governing s.curMode, (s.csr r).a.cbze = true) →
      ∃ t, exec (.cboZero rs1) s = .next t ∧ CompletesCacheOp .zero (s.x rs1) s t) ∧
    ((∃ r ∈ governing s.curMode, (s.csr r).a.cbze = false) →
      exec (.cboZero rs1) s = raise .illegalInstruction (instrInfo s.cfg (.cboZero rs1)) s)

/-- R52: in M-mode the four instructions execute whatever the registers hold, and `CBO.INVAL` invalidates. That memory itself is as
it was until a later point, and that an invalidate takes one draw (both in `CompletesCacheOp`), is the model's choice (log 9). -/
def Obligations.MachineModeExecutesEveryCacheBlockInstruction : Prop :=
  ∀ (s : State) (rs1 : RegNum), s.cfg.scheme = .A → s.curMode = .m → Memory.wf s.modified → 0 < s.cfg.cacheBlockBytes →
    (∃ t, exec (.cboInval rs1) s = .next t ∧ CompletesCacheOp .invalidate (s.x rs1) s t) ∧
    (∃ t, exec (.cboClean rs1) s = .next t ∧ CompletesCacheOp .clean (s.x rs1) s t) ∧
    (∃ t, exec (.cboFlush rs1) s = .next t ∧ CompletesCacheOp .flush (s.x rs1) s t) ∧
    (∃ t, exec (.cboZero rs1) s = .next t ∧ CompletesCacheOp .zero (s.x rs1) s t)

/-- R59 e: what executes in a lower mode executes in a mode whose governing list is contained in its own, and an invalidate in
the lower mode is an invalidate in the higher. -/
def Obligations.LowerModesArePermittedNoMore : Prop :=
  ∀ (s : State) (i : Instr) (lower higher : Mode), isCacheBlockInstr i = true → s.cfg.scheme = .A → s.hPresent = true →
    governing higher ⊆ governing lower →
    ((∃ kind, ExecutesAs s lower i kind) → ∃ kind, ExecutesAs s higher i kind) ∧
    (ExecutesAs s lower i .invalidate → ExecutesAs s higher i .invalidate)

/-- R59 c: a register outside the governing list of the current mode has no effect on a cache-block instruction. -/
def Obligations.NonGoverningRegistersHaveNoEffect : Prop :=
  ∀ (s : State) (i : Instr) (r : CmoReg) (v : CmoCsr), isCacheBlockInstr i = true → s.cfg.scheme = .A →
    r ∉ governing s.curMode → exec i (s.setCsr r v) = mapNext (fun t => t.setCsr r v) (exec i s)

/-- R59 a: `CBO.INVAL` reads `CBIE` only, `CBO.CLEAN` and `CBO.FLUSH` read `CBCFE` only, `CBO.ZERO` reads `CBZE` only. -/
def Obligations.EachInstructionReadsOneField : Prop :=
  ∀ (s : State) (rs1 : RegNum) (r : CmoReg) (v : CmoCsr), s.cfg.scheme = .A →
    (v.a.cbie = (s.csr r).a.cbie →
      exec (.cboInval rs1) (s.setCsr r v) = mapNext (fun t => t.setCsr r v) (exec (.cboInval rs1) s)) ∧
    (v.a.cbcfe = (s.csr r).a.cbcfe →
      exec (.cboClean rs1) (s.setCsr r v) = mapNext (fun t => t.setCsr r v) (exec (.cboClean rs1) s) ∧
      exec (.cboFlush rs1) (s.setCsr r v) = mapNext (fun t => t.setCsr r v) (exec (.cboFlush rs1) s)) ∧
    (v.a.cbze = (s.csr r).a.cbze →
      exec (.cboZero rs1) (s.setCsr r v) = mapNext (fun t => t.setCsr r v) (exec (.cboZero rs1) s))

/-- R17, R58: in a state that meets the invariant no register holds the reserved `CBIE` value, and no instruction is refused for
it. -/
def Obligations.ReservedCbieIsUnreachable : Prop :=
  ∀ (s : State) (i : Instr), Inv s → s.cfg.scheme = .A →
    (∀ r, (s.csr r).a.cbie ≠ 0b10#2) ∧ exec i s ≠ .refused .reservedCbie ∧ step s ≠ .refused .reservedCbie

/-- R32 b, with R53 to R55 for the modes: in every mode of the hart whose governing registers enable the instructions, after a clean
or a flush of a block a `CBO.INVAL` of it, whether it performs an invalidate or a flush, exposes no stale data: every byte reads
as before all of it. The statement does not say that memory has been updated by then, which R32 and R37 leave open. That this
hart's reads find the byte on its way to memory until it arrives is the model's choice (log 9). -/
def Obligations.CleanOrFlushThenInvalidateExposesNothing : Prop :=
  ∀ (s : State) (rs1 : RegNum), s.cfg.scheme = .A → ModeOfHart s → Memory.wf s.modified →
    (∀ r ∈ governing s.curMode, (s.csr r).a.cbcfe = true) →
    (∀ r ∈ governing s.curMode, (s.csr r).a.cbie = 0b01#2 ∨ (s.csr r).a.cbie = 0b11#2) →
    (∃ t u, exec (.cboClean rs1) s = .next t ∧ exec (.cboInval rs1) t = .next u ∧ ∀ a, u.readByte a = s.readByte a) ∧
    (∃ t u, exec (.cboFlush rs1) s = .next t ∧ exec (.cboInval rs1) t = .next u ∧ ∀ a, u.readByte a = s.readByte a)

/-! ### Scheme B -/

/-- R85, with R71 to R84 written out: the first of page fault, guest-page fault and access fault whose condition holds, else an
invalidate if every consulted level says so, else a flush. The inputs are those of this access; that they are listed by access
and counted is the model's choice (log 5), and so is it that memory itself is as it was until a later point and that an
invalidate takes one draw (log 9). What the effective mode is, `EffectiveModeIsTheInputElseMprvDecides` says. -/
def Obligations.CboInvalUnderSchemeB : Prop :=
  ∀ (s : State) (rs1 : RegNum), s.cfg.scheme = .B → EffModeOfHart s → Memory.wf s.modified →
    let mode := s.effMode
    let bareS := if mode = .vu then s.inputs.vsatpBare else s.inputs.satpBare
    let bareH := s.inputs.hgatpBare
    let em := if s.access.wPmp then s.mcmo.b.invw1e else s.mcmo.b.invw0e
    let es := bareS || (if s.access.wS then s.scmo.b.invw1e else s.scmo.b.invw0e)
    let eh := bareH || (if s.access.wH then s.hcmo.b.invw1e else s.hcmo.b.invw0e)
    let im := if s.access.wPmp then s.mcmo.b.invw1i else s.mcmo.b.invw0i
    let is := if bareS then s.scmo.b.invw0i && s.scmo.b.invw1i
      else if s.access.wS then s.scmo.b.invw1i else s.scmo.b.invw0i
    let ih := if bareH then s.hcmo.b.invw0i && s.hcmo.b.invw1i
      else if s.access.wH then s.hcmo.b.invw1i else s.hcmo.b.invw0i
    let pageFault := (mode = .u ∨ mode = .vu) ∧ es = false
    let guestPageFault := (mode = .vs ∨ mode = .vu) ∧ eh = false
    let accessFault := mode ≠ .m ∧ em = false
    let inv := mode = .m ∨ (mode = .shs ∧ im = true) ∨ (mode = .u ∧ is = true ∧ im = true) ∨
      (mode = .vs ∧ ih = true ∧ im = true) ∨ (mode = .vu ∧ is = true ∧ ih = true ∧ im = true)
    (pageFault → exec (.cboInval rs1) s = mapNext State.countAccess (raise .pageFault (s.x rs1) s)) ∧
    (¬pageFault → guestPageFault →
      exec (.cboInval rs1) s = mapNext State.countAccess (raise .guestPageFault (s.x rs1) s)) ∧
    (¬pageFault → ¬guestPageFault → accessFault →
      exec (.cboInval rs1) s = mapNext State.countAccess (raise .accessFault (s.x rs1) s)) ∧
    (¬pageFault → ¬guestPageFault → ¬accessFault → inv →
      ∃ t, exec (.cboInval rs1) s = .next t ∧ CompletesCacheOp .invalidate (s.x rs1) s t) ∧
    (¬pageFault → ¬guestPageFault → ¬accessFault → ¬inv →
      ∃ t, exec (.cboInval rs1) s = .next t ∧ CompletesCacheOp .flush (s.x rs1) s t)

/-- R73, R80: with effective mode M, `CBO.INVAL` never faults, never flushes and always invalidates. That it counts as one access
(log 5), takes one draw and leaves memory itself as it was (log 9), all in `CompletesCacheOp`, is the model's choice. -/
def Obligations.EffectiveMachineModeAlwaysInvalidates : Prop :=
  ∀ (s : State) (rs1 : RegNum), s.cfg.scheme = .B → s.effMode = .m →
    ∃ t, exec (.cboInval rs1) s = .next t ∧ CompletesCacheOp .invalidate (s.x rs1) s t

/-- R86. -/
def Obligations.SchemeBRefusesTheOtherThree : Prop :=
  ∀ (s : State) (rs1 : RegNum), s.cfg.scheme = .B →
    exec (.cboClean rs1) s = .refused .noRuleUnderSchemeB ∧ exec (.cboFlush rs1) s = .refused .noRuleUnderSchemeB ∧
      exec (.cboZero rs1) s = .refused .noRuleUnderSchemeB

/-- R72, R79, R87: each register's bits are selected by the write permission of its own mechanism. In the note's example (VU,
neither table Bare, VS granted write, HS cleared it) the s-register's `W0` bits and the h-register's `W1` bits have no
effect. -/
def Obligations.UnselectedInvwBitsHaveNoEffect : Prop :=
  ∀ (s : State) (rs1 : RegNum) (e i : Bool), s.cfg.scheme = .B → s.effMode = .vu → s.inputs.vsatpBare = false →
    s.inputs.hgatpBare = false → s.access.wS = true → s.access.wH = false →
    (let v := { s.scmo with b := { s.scmo.b with invw0e := e, invw0i := i } }
     exec (.cboInval rs1) (s.setCsr .s v) = mapNext (fun t => t.setCsr .s v) (exec (.cboInval rs1) s)) ∧
    (let v := { s.hcmo with b := { s.hcmo.b with invw1e := e, invw1i := i } }
     exec (.cboInval rs1) (s.setCsr .h v) = mapNext (fun t => t.setCsr .h v) (exec (.cboInval rs1) s))

/-- R2: the two designs are never active together: under scheme A the scheme B fields have no effect on any instruction, and
under scheme B the scheme A fields have none. -/
def Obligations.FieldsOfTheOtherSchemeHaveNoEffect : Prop :=
  ∀ (s : State) (i : Instr),
    (s.cfg.scheme = .A → ∀ m s' h : FieldsB,
      exec i (withFieldsB m s' h s) = mapNext (withFieldsB m s' h) (exec i s)) ∧
    (s.cfg.scheme = .B → ∀ m s' h : FieldsA,
      exec i (withFieldsA m s' h s) = mapNext (withFieldsA m s' h) (exec i s))

/-- R60: without the h-register, in a mode of the hart, no list of R50 contains it, and what is stored for it has no effect on
any instruction. -/
def Obligations.AbsentHRegisterIsNeverRead : Prop :=
  ∀ (s : State) (i : Instr) (v : CmoCsr), s.hPresent = false → ModeOfHart s → EffModeOfHart s →
    .h ∉ governing s.curMode ∧ exec i (s.setCsr .h v) = mapNext (fun t => t.setCsr .h v) (exec i s)

/-! ### The CSR instructions -/

/-- R90, with its default of `CSR_ACCESS_FAULT`: a refused access raises what the rule names, an allowed one completes. -/
def Obligations.CsrAccessCheckDecides : Prop :=
  ∀ (s : State) (i : Instr) (csr : CsrNum) (r : CmoReg), i.csr? = some csr → s.cfg.regOf csr = some r →
    s.cfg.virtualAccess = Config.defaultVirtualAccess →
    (r = .h → s.hPresent = false → exec i s = raise .illegalInstruction (instrInfo s.cfg i) s) ∧
    ((r = .h → s.hPresent = true) → ¬AccessAllowed s r → s.curMode.virtualised = true → r ≠ .m →
      exec i s = raise .virtualInstruction (instrInfo s.cfg i) s) ∧
    ((r = .h → s.hPresent = true) → ¬AccessAllowed s r → (s.curMode.virtualised = false ∨ r = .m) →
      exec i s = raise .illegalInstruction (instrInfo s.cfg i) s) ∧
    (AccessAllowed s r → ∃ t, exec i s = .next t ∧ t.pc = trunc s.cfg (s.pc + 4) ∧ t.curMode = s.curMode)

/-- R91, R94: `csrrw` and `csrrwi` write the source, and `rd` receives the word read before; `rd` may be `rs1` or `x0`. -/
def Obligations.CsrWriteFormsComplete : Prop :=
  ∀ (s : State) (csr : CsrNum) (r : CmoReg) (rd : RegNum), s.cfg.regOf csr = some r → AccessAllowed s r →
    (∀ rs1 : RegNum, ∃ t, exec (.csrrw rd csr rs1) s = .next t ∧ CompletesCsr r rd (some (s.x rs1)) s t) ∧
    (∀ uimm : BitVec 5, ∃ t, exec (.csrrwi rd csr uimm) s = .next t ∧
      CompletesCsr r rd (some (uimm.setWidth 64)) s t)

/-- R92, R95: `csrrs` and `csrrsi` set bits, and write nothing for register number or immediate 0. -/
def Obligations.CsrSetFormsComplete : Prop :=
  ∀ (s : State) (csr : CsrNum) (r : CmoReg) (rd : RegNum), s.cfg.regOf csr = some r → AccessAllowed s r →
    (∀ rs1 : RegNum, ∃ t, exec (.csrrs rd csr rs1) s = .next t ∧
      CompletesCsr r rd (if rs1 = 0#5 then none else some (packCsr s.cfg (s.csr r) ||| s.x rs1)) s t) ∧
    (∀ uimm : BitVec 5, ∃ t, exec (.csrrsi rd csr uimm) s = .next t ∧
      CompletesCsr r rd (if uimm = 0#5 then none else some (packCsr s.cfg (s.csr r) ||| uimm.setWidth 64)) s t)

/-- R93, R96: `csrrc` and `csrrci` clear bits, and write nothing for register number or immediate 0. -/
def Obligations.CsrClearFormsComplete : Prop :=
  ∀ (s : State) (csr : CsrNum) (r : CmoReg) (rd : RegNum), s.cfg.regOf csr = some r → AccessAllowed s r →
    (∀ rs1 : RegNum, ∃ t, exec (.csrrc rd csr rs1) s = .next t ∧
      CompletesCsr r rd (if rs1 = 0#5 then none else some (packCsr s.cfg (s.csr r) &&& ~~~(s.x rs1))) s t) ∧
    (∀ uimm : BitVec 5, ∃ t, exec (.csrrci rd csr uimm) s = .next t ∧
      CompletesCsr r rd (if uimm = 0#5 then none else some (packCsr s.cfg (s.csr r) &&& ~~~(uimm.setWidth 64))) s t)

/-- R40: the word of a register has each field at its position and zero at every other bit, and reading the fields at their
positions gives them back. -/
def Obligations.RegisterWordLayout : Prop :=
  ∀ (c : Config) (v : CmoCsr), c.wf = true →
    (c.scheme = .A → ∀ j, (packCsr c v).getLsbD j =
      if j = c.pos.cbieLo then v.a.cbie.getLsbD 0 else if j = c.pos.cbieLo + 1 then v.a.cbie.getLsbD 1
      else if j = c.pos.cbcfe then v.a.cbcfe else if j = c.pos.cbze then v.a.cbze else false) ∧
    (c.scheme = .A → (packCsr c v >>> c.pos.cbieLo).setWidth 2 = v.a.cbie) ∧
    (c.scheme = .B → ∀ j, (packCsr c v).getLsbD j =
      if j = c.pos.invw0e then v.b.invw0e else if j = c.pos.invw1e then v.b.invw1e
      else if j = c.pos.invw0i then v.b.invw0i else if j = c.pos.invw1i then v.b.invw1i else false)

/-- R17, R97: whatever a register held and whatever is written, after `csrrw` or `csrrwi` every field of the scheme in force
holds a legal value, and `CBIE` is not the reserved one. -/
def Obligations.WrittenRegisterHoldsLegalValues : Prop :=
  ∀ (s : State) (csr : CsrNum) (r : CmoReg) (rd field : BitVec 5), s.cfg.wf = true → s.cfg.regOf csr = some r →
    AccessAllowed s r →
    (∃ t, exec (.csrrw rd csr field) s = .next t ∧ legalCsr s.cfg r (t.csr r) = true ∧
      (s.cfg.scheme = .A → (t.csr r).a.cbie ≠ 0b10#2)) ∧
    (∃ t, exec (.csrrwi rd csr field) s = .next t ∧ legalCsr s.cfg r (t.csr r) = true ∧
      (s.cfg.scheme = .A → (t.csr r).a.cbie ≠ 0b10#2))

/-- R23, R24, R125, under both schemes (D7): a word whose fields are legal, once written, is stored as written in every field of
the scheme in force, and is what the next instruction reads, less the bits that are no field's. -/
def Obligations.LegalWordReadsBackNext : Prop :=
  ∀ (s : State) (csr : CsrNum) (r : CmoReg) (rd rs1 rd2 : RegNum), s.cfg.wf = true → s.cfg.regOf csr = some r →
    AccessAllowed s r → legalWord s.cfg r (s.x rs1) = true → rd2 ≠ 0#5 →
    ∃ t u, exec (.csrrw rd csr rs1) s = .next t ∧ HoldsFieldsOf s.cfg (s.x rs1) (t.csr r) ∧
      exec (.csrrs rd2 csr 0#5) t = .next u ∧
      ∀ j, (u.x rd2).getLsbD j = (decide (j ∈ fieldBits s.cfg) && (s.x rs1).getLsbD j)

/-- R92, R93 (corner cases): setting or clearing with a register that holds zero writes back the word just read, which leaves
every field unchanged because a held value is legal. -/
def Obligations.SettingOrClearingNothingKeepsEveryField : Prop :=
  ∀ (s : State) (csr : CsrNum) (r : CmoReg) (rd rs1 : RegNum), Inv s → s.cfg.regOf csr = some r → AccessAllowed s r →
    rs1 ≠ 0#5 → s.x rs1 = 0#64 →
    (∃ t, exec (.csrrs rd csr rs1) s = .next t ∧ ∀ r', t.csr r' = s.csr r') ∧
    (∃ t, exec (.csrrc rd csr rs1) s = .next t ∧ ∀ r', t.csr r' = s.csr r')

/-! ### Exceptions -/

/-- R104: `raise` in a model of this hardware alone stops with `Trap(exception, info, pc)`; in one that embeds it in a hart it
goes on with trap entry. Which of the two is in force is the parameter `trapModel` (log 10). -/
def Obligations.RaiseStopsOrEntersTheTrap : Prop :=
  ∀ (s : State) (k : ExceptionKind) (info : Word),
    (s.cfg.trapModel = .terminal → raise k info s = .fault (.trap k info s.pc)) ∧
    (s.cfg.trapModel = .entry → raise k info s = .next (s.takeTrap k info))

/-- R101: the cause codes; and what an illegal or a virtual instruction exception records, by `TVAL_ILLEGAL`: the instruction word
zero-extended, or zero (D21). -/
def Obligations.ExceptionCodes : Prop :=
  (∀ k : FaultKind, causeCode k .illegalInstruction = 2 ∧ causeCode k .virtualInstruction = 22 ∧
    causeCode .load .accessFault = 5 ∧ causeCode .storeAmo .accessFault = 7 ∧ causeCode .load .pageFault = 13 ∧
    causeCode .storeAmo .pageFault = 15 ∧ causeCode .load .guestPageFault = 21 ∧
    causeCode .storeAmo .guestPageFault = 23) ∧
  ∀ (c : Config) (w : InstrWord) (i : Instr), decode w = .ok i →
    (c.tvalIllegal = .instructionWord → (instrInfo c i).toNat = w.toNat) ∧ (c.tvalIllegal = .zero → instrInfo c i = 0)

/-- R105, R107: a trap is taken in M unless `medeleg` delegates it from a lower mode; `hedeleg` delegates it on from a virtualised
mode to VS, but never a guest-page fault. The mode after the entry is the level's. That `hedeleg` counts only where `medeleg`
delegates as well, that an exception raised in S/HS itself goes to S/HS where `medeleg` delegates it, and that the bit of an
exception is the one whose number is its cause code, is the model's (logs 25, 26, 27). -/
def Obligations.DelegationChoosesTheMode : Prop :=
  ∀ (s : State) (k : ExceptionKind) (info : Word),
    let code := causeCode s.cfg.faultKind k
    ((s.curMode = .m ∨ s.trap.medeleg.getLsbD code = false) → (s.takeTrap k info).curMode = .m) ∧
    (s.curMode ≠ .m → s.trap.medeleg.getLsbD code = true →
      (s.curMode.virtualised = false ∨ s.trap.hedeleg.getLsbD code = false ∨ k = .guestPageFault) →
      (s.takeTrap k info).curMode = .shs) ∧
    (s.trap.medeleg.getLsbD code = true → s.curMode.virtualised = true → s.trap.hedeleg.getLsbD code = true →
      k ≠ .guestPageFault → (s.takeTrap k info).curMode = .vs)

/-- R101, R105: what an entry into M saves, where it goes, and what it leaves alone. That `mtval2` stays for the other exceptions
is the model's choice (log 15). -/
def Obligations.TrapEntryIntoMachineMode : Prop :=
  ∀ (s : State) (k : ExceptionKind) (info : Word), (s.takeTrap k info).curMode = .m →
    let t := s.takeTrap k info
    t.pc = s.trap.m.tvec.base ∧ t.trap.m.epc = s.pc ∧
      t.trap.m.cause = BitVec.ofNat 64 (causeCode s.cfg.faultKind k) ∧ t.trap.m.tval = info ∧
      t.trap.m.tvec = s.trap.m.tvec ∧ t.trap.mstatus.mpp = privOf s.curMode ∧
      t.trap.mstatus.mpie = s.trap.mstatus.mie ∧ t.trap.mstatus.mie = false ∧
      t.trap.mstatus.mpv = s.curMode.virtualised ∧ t.trap.mstatus.mprv = s.trap.mstatus.mprv ∧
      t.trap.mtval2 = (if k = .guestPageFault then trunc s.cfg (s.access.gpa >>> 2) else s.trap.mtval2) ∧
      t.trap.hs = s.trap.hs ∧ t.trap.vs = s.trap.vs ∧ t.trap.sstatus = s.trap.sstatus ∧
      t.trap.vsstatus = s.trap.vsstatus ∧ t.trap.hstatus = s.trap.hstatus ∧ t.trap.htval = s.trap.htval ∧
      t.trap.medeleg = s.trap.medeleg ∧ t.trap.hedeleg = s.trap.hedeleg ∧ OnlyTrapStateDiffers s t ∧
      t.accesses = s.accesses

/-- R101, R105: the same of an entry into S/HS. That `htval` stays for the other exceptions, and `SPVP` for a trap from a mode
that is not virtualised, is the model's choice (logs 14, 15). -/
def Obligations.TrapEntryIntoSupervisorMode : Prop :=
  ∀ (s : State) (k : ExceptionKind) (info : Word), (s.takeTrap k info).curMode = .shs →
    let t := s.takeTrap k info
    t.pc = s.trap.hs.tvec.base ∧ t.trap.hs.epc = s.pc ∧
      t.trap.hs.cause = BitVec.ofNat 64 (causeCode s.cfg.faultKind k) ∧ t.trap.hs.tval = info ∧
      t.trap.hs.tvec = s.trap.hs.tvec ∧ t.trap.sstatus.spp = decide (privOf s.curMode = .s) ∧
      t.trap.sstatus.spie = s.trap.sstatus.sie ∧ t.trap.sstatus.sie = false ∧
      (s.hPresent = true → t.trap.hstatus.spv = s.curMode.virtualised) ∧
      t.trap.htval = (if k = .guestPageFault then trunc s.cfg (s.access.gpa >>> 2) else s.trap.htval) ∧
      t.trap.m = s.trap.m ∧ t.trap.vs = s.trap.vs ∧ t.trap.mstatus = s.trap.mstatus ∧
      t.trap.vsstatus = s.trap.vsstatus ∧ t.trap.mtval2 = s.trap.mtval2 ∧ t.trap.medeleg = s.trap.medeleg ∧
      t.trap.hedeleg = s.trap.hedeleg ∧ OnlyTrapStateDiffers s t ∧
      t.accesses = s.accesses

/-- R105: the same of an entry into VS. -/
def Obligations.TrapEntryIntoVirtualSupervisorMode : Prop :=
  ∀ (s : State) (k : ExceptionKind) (info : Word), (s.takeTrap k info).curMode = .vs →
    let t := s.takeTrap k info
    t.pc = s.trap.vs.tvec.base ∧ t.trap.vs.epc = s.pc ∧
      t.trap.vs.cause = BitVec.ofNat 64 (causeCode s.cfg.faultKind k) ∧ t.trap.vs.tval = info ∧
      t.trap.vs.tvec = s.trap.vs.tvec ∧ t.trap.vsstatus.spp = decide (privOf s.curMode = .s) ∧
      t.trap.vsstatus.spie = s.trap.vsstatus.sie ∧ t.trap.vsstatus.sie = false ∧
      t.trap.m = s.trap.m ∧ t.trap.hs = s.trap.hs ∧ t.trap.mstatus = s.trap.mstatus ∧
      t.trap.sstatus = s.trap.sstatus ∧ t.trap.hstatus = s.trap.hstatus ∧ t.trap.mtval2 = s.trap.mtval2 ∧
      t.trap.htval = s.trap.htval ∧ t.trap.medeleg = s.trap.medeleg ∧ t.trap.hedeleg = s.trap.hedeleg ∧
      OnlyTrapStateDiffers s t ∧ t.accesses = s.accesses

/-- R105, R106: returning from the level a trap was taken into restores the mode, the pc and the interrupt enable of that level,
and leaves everything outside the mode, the pc and the trap registers as it was before the trap. That a return changes nothing
outside them, that a return from VS stays virtualised, and that the return is an operation no instruction reaches, is the model's
(log 16). -/
def Obligations.TrapReturnUndoesTrapEntry : Prop :=
  ∀ (s : State) (k : ExceptionKind) (info : Word), ModeOfHart s →
    let t := (s.takeTrap k info).trapReturn (s.trapLevel k)
    t.curMode = s.curMode ∧ t.pc = s.pc ∧ t.trap.mstatus.mie = s.trap.mstatus.mie ∧
      t.trap.sstatus.sie = s.trap.sstatus.sie ∧ t.trap.vsstatus.sie = s.trap.vsstatus.sie ∧
      OnlyTrapStateDiffers s t ∧ t.accesses = s.accesses

/-! ### The whole machine -/

/-- R25: `x0` reads zero and discards writes; another register holds the low `XLEN` bits written, every other register reads as
before, and nothing outside the integer registers changes. -/
def Obligations.ZeroRegisterReadsZeroAndDiscardsWrites : Prop :=
  ∀ (s : State) (v : Word), s.x 0#5 = 0#64 ∧ s.setX 0#5 v = s ∧
    ∀ i : RegNum, s.setX i v = { s with xregs := (s.setX i v).xregs } ∧
      (i ≠ 0#5 → (s.setX i v).x i = trunc s.cfg v ∧ ∀ j, j ≠ i → (s.setX i v).x j = s.x j)

/-- R121: after reset, whatever the implementation and whatever the unspecified state came up as, the hart is in M-mode at
`RESET_PC` with `MIE` and `MPRV` 0, so that under scheme A every cache-block instruction executes and every register that is
present can be written. -/
def Obligations.ResetHartRunsEverything : Prop :=
  ∀ (c : Config) (d : ResetDraw),
    let s := State.resetWith c d
    s.curMode = .m ∧ s.pc = c.resetPc ∧ s.trap.mstatus.mie = false ∧ s.trap.mstatus.mprv = false ∧
      governing s.curMode = [] ∧
      (c.scheme = .A → ∀ i, isCacheBlockInstr i = true → ∃ t, exec i s = .next t ∧ t.events.length = 1) ∧
      (∀ csr r rd rs1, c.regOf csr = some r → (r = .h → s.hPresent = true) →
        ∃ t, exec (.csrrw rd csr rs1) s = .next t ∧ WrittenTo c r (s.x rs1) (s.csr r) (t.csr r))

/-- The invariant holds right after reset, for every well-formed configuration and every legal draw (R28, R120), and for
`State.reset`. -/
def Obligations.InvariantHoldsAtReset : Prop :=
  (∀ (c : Config) (d : ResetDraw), c.wf = true → d.Legal c → Inv (State.resetWith c d)) ∧ Inv State.reset

/-- Every step keeps the invariant: held values legal, the mode a mode of the hart, the pc aligned, `x0` zero, registers of
`XLEN` bits, memory in its canonical form and modified bytes different from memory's. -/
def Obligations.EveryStepKeepsTheInvariant : Prop :=
  ∀ s t : State, Inv s → step s = .next t → Inv t

/-- R29, R90: a step changes a control register only from a mode that may access it: `mcmocontrol` from M, `scmocontrol`
from M, S/HS or VS, `hcmocontrol` from M or S/HS while it is present; so no code in U or VU changes any. It changes at most one
of the three. -/
def Obligations.OnlyPermittedModesChangeControlRegisters : Prop :=
  ∀ (s t : State) (r : CmoReg), step s = .next t → t.csr r ≠ s.csr r →
    AccessAllowed s r ∧ t.curMode = s.curMode ∧ ∀ r', r' ≠ r → t.csr r' = s.csr r'

/-- R104, R105, R110: no step changes the mode or a trap register except by taking an exception, after which `epc` of the level
entered holds the pc of the instruction; and with the terminal trap outcome no step changes them at all. -/
def Obligations.ModeChangesOnlyByTakingAnException : Prop :=
  ∀ s t : State, step s = .next t → (t.curMode = s.curMode ∧ t.trap = s.trap) ∨
    (s.cfg.trapModel = .entry ∧ OnlyTrapStateDiffers s.beforeExec t ∧
      ((t.curMode = .m ∧ t.trap.m.epc = s.pc ∧ t.pc = s.trap.m.tvec.base) ∨
       (t.curMode = .shs ∧ s.curMode ≠ .m ∧ t.trap.hs.epc = s.pc ∧ t.pc = s.trap.hs.tvec.base) ∨
       (t.curMode = .vs ∧ s.curMode.virtualised = true ∧ t.trap.vs.epc = s.pc ∧ t.pc = s.trap.vs.tvec.base)))

/-- R3, R21: no step changes the parameters, `H_EN` or the inputs, which the rules read and never write. -/
def Obligations.ParametersAndInputsNeverChange : Prop :=
  ∀ s t : State, step s = .next t → t.cfg = s.cfg ∧ t.hEn = s.hEn ∧ t.inputs = s.inputs

/-- R33, R38: a step records at most one operation, after those recorded before, as this hart's, and only such a step changes
what a read finds; its pc is then the next instruction's. No instruction touches memory itself: an update reaches it between
two instructions (R37, log 9). -/
def Obligations.EventsAreRecordedInProgramOrder : Prop :=
  ∀ s t : State, step s = .next t → t.mem = s.beforeExec.mem ∧
    ((t.events = s.events ∧ t.modified = s.modified ∧ t.pending = s.beforeExec.pending ∧ t.past = s.beforeExec.past ∧
        t.draws = s.beforeExec.draws ∧ (Memory.wf s.pending → ∀ a, t.readByte a = s.readByte a)) ∨
     (∃ kind addr, t.events = s.events ++ [{ hart := s.cfg.hartId, kind := kind, addr := addr }] ∧
        t.pc = trunc s.cfg (s.pc + 4) ∧ ∀ a, inBlock s.cfg addr a = false → 0 < s.cfg.cacheBlockBytes →
          Memory.wf s.modified → Memory.wf s.pending → t.readByte a = s.readByte a))

/-! ### What R37 and R21 leave open -/

/-- The model's choice (logs 9 and 23; R32 and R37 leave open when an update reaches memory): between two instructions nothing
happens but that updates on their way to memory may reach it, each of them or not; no read of this hart changes. So a modified
byte never reaches memory by itself, an arrival comes only here, and no other agent writes memory. With none on its way and nothing about the four instruction
bytes that a fetch could miss, the state stays as it is. Which updates arrive is a free value. -/
def Obligations.BetweenInstructionsOnlyUpdatesArrive : Prop :=
  ∀ s : State, (Memory.wf s.pending → OnlyArrivalsDiffer s s.beforeExec) ∧
    (s.pending = [] → (∀ k < 4, s.fetchSettled (s.pc.toNat + k) = true) → s.beforeExec = s)

/-- The model's choice (log 17; R37 and N20 say nothing of fetch coherence): a fetch finds what a read of this hart finds, or the
byte on its way to memory, or memory's, or a value the byte had; and a byte that is not modified, not on its way and has no
earlier value is fetched as a read finds it. -/
def Obligations.FetchFindsAHeldValue : Prop :=
  ∀ (s : State) (a : Nat),
    (s.fetchByte a = s.readByte a ∨ s.fetchByte a = s.stored a ∨ s.fetchByte a = Memory.read s.mem a ∨
      ∃ v, (a, v) ∈ s.past ∧ s.fetchByte a = some v) ∧
    (Memory.read s.pending a = none → Memory.read s.modified a = none → (∀ c ∈ s.past, c.1 ≠ a) →
      s.fetchByte a = s.readByte a)

/-- R32 b, with R53 to R55 and R85 for when the operation is performed: in every mode in which it executes, a clean or a flush, the
flush that `CBO.INVAL` performs included, makes each modified byte of its block update memory, and no other byte. That the byte
is on its way until a later point and memory has not changed yet is how the model leaves that point open (R37, log 9). -/
def Obligations.CleanAndFlushSendTheModifiedBytes : Prop :=
  ∀ (s : State) (rs1 : RegNum), Memory.wf s.modified →
    (s.cfg.scheme = .A → ModeOfHart s → (∀ r ∈ governing s.curMode, (s.csr r).a.cbcfe = true) →
      (∃ t, exec (.cboClean rs1) s = .next t ∧ SentToMemory (s.x rs1) s t) ∧
      (∃ t, exec (.cboFlush rs1) s = .next t ∧ SentToMemory (s.x rs1) s t)) ∧
    (s.cfg.scheme = .A → ModeOfHart s →
      (∀ r ∈ governing s.curMode, (s.csr r).a.cbie = 0b01#2 ∨ (s.csr r).a.cbie = 0b11#2) →
      (∃ r ∈ governing s.curMode, (s.csr r).a.cbie = 0b01#2) →
      ∃ t, exec (.cboInval rs1) s = .next t ∧ SentToMemory (s.x rs1) s t) ∧
    (s.cfg.scheme = .B → ∀ t, exec (.cboInval rs1) s = .next t →
      t.events = s.events ++ [{ hart := s.cfg.hartId, kind := .flush, addr := s.x rs1 }] → SentToMemory (s.x rs1) s t)

/-- R21, R71: an instruction reads the inputs of its own access and the three `Bare` Booleans; the inputs of any other access have
no effect. -/
def Obligations.OtherAccessInputsHaveNoEffect : Prop :=
  ∀ (s : State) (i : Instr) (inputs : Inputs), inputs.satpBare = s.inputs.satpBare →
    inputs.vsatpBare = s.inputs.vsatpBare → inputs.hgatpBare = s.inputs.hgatpBare →
    (withInputs inputs s).access = s.access →
    exec i (withInputs inputs s) = mapNext (withInputs inputs) (exec i s)

/-- R21, R71: each `CBO.INVAL` under scheme B is one access, and the next one is evaluated with the list's next entry; no other
instruction is an access. That the inputs are listed by access is the model's choice (log 5). -/
def Obligations.EachAccessHasItsOwnInputs : Prop :=
  ∀ (s t : State) (i : Instr), exec i s = .next t →
    (s.cfg.scheme = .B → (∃ rs1, i = .cboInval rs1) →
      t.access = (s.inputs.listed[s.accesses + 1]?).getD s.inputs.otherwise) ∧
    (s.cfg.scheme = .A ∨ (∀ rs1, i ≠ .cboInval rs1) → t.access = s.access)

/-! ### The effective mode, and what a trap records -/

/-- R5, R21: the effective mode is the input of the access where one is given; else `cur_mode`, unless M-mode runs with
`mstatus.MPRV` set, which makes it the mode that `MPP` and `MPV` name. That `MPRV` acts in M-mode only, and how `MPP` and `MPV`
name a mode, is the model's (log 6). -/
def Obligations.EffectiveModeIsTheInputElseMprvDecides : Prop :=
  ∀ s : State, (∀ mode, s.access.effMode = some mode → s.effMode = mode) ∧
    (s.access.effMode = none →
      (s.curMode ≠ .m ∨ s.trap.mstatus.mprv = false → s.effMode = s.curMode) ∧
      (s.curMode = .m → s.trap.mstatus.mprv = true →
        (s.trap.mstatus.mpp = .m → s.effMode = .m) ∧
        (s.trap.mstatus.mpp = .s →
          s.effMode = if s.trap.mstatus.mpv = true ∧ s.hPresent = true then .vs else .shs) ∧
        (s.trap.mstatus.mpp = .u →
          s.effMode = if s.trap.mstatus.mpv = true ∧ s.hPresent = true then .vu else .u)))

/-- R101, R104: where a step of the word `w` stops with `Trap(exception, info, pc)`, the pc is that of the instruction, and `info`
is, for an illegal or a virtual instruction exception, the word zero-extended or zero by `TVAL_ILLEGAL`, and for the three faults
of scheme B the address in `x[rs1]` of the `CBO.INVAL` that `w` is. Which word a fetch finds is logs 17 and 18's, and that a run
ends at a trap is the parameter `trapModel` (log 10). -/
def Obligations.TrapOutcomeRecordsTheWordOrTheAddress : Prop :=
  ∀ (s : State) (w : InstrWord) (k : ExceptionKind) (info pc : Word), s.arrive.fetchBytes = .ok (bytesOfWord w) →
    step s = .fault (.trap k info pc) → pc = s.pc ∧
      (k = .illegalInstruction ∨ k = .virtualInstruction →
        (s.cfg.tvalIllegal = .instructionWord → info.toNat = w.toNat) ∧ (s.cfg.tvalIllegal = .zero → info = 0)) ∧
      (k = .pageFault ∨ k = .guestPageFault ∨ k = .accessFault →
        ∃ rs1, decode w = .ok (.cboInval rs1) ∧ info = s.x rs1)
end

