-- ==== Sys2Proof/Laws/Decode.lean ====
section
/-! SUPPORT. The layout of an instruction word: each field of an encoded word is what was put there, the fields are the whole
word, and a word is the bytes that memory holds of it. -/

namespace Sys2Proof

@[simp] theorem fieldImm12_encodeIType (imm : BitVec 12) (rs1 : BitVec 5) (f3 : BitVec 3) (rd : BitVec 5) (op : BitVec 7) :
    fieldImm12 (encodeIType imm rs1 f3 rd op) = imm := by
  ext i hi
  simp only [fieldImm12, encodeIType]
  interval_cases i <;> simp

@[simp] theorem fieldRs1_encodeIType (imm : BitVec 12) (rs1 : BitVec 5) (f3 : BitVec 3) (rd : BitVec 5) (op : BitVec 7) :
    fieldRs1 (encodeIType imm rs1 f3 rd op) = rs1 := by
  ext i hi
  simp only [fieldRs1, encodeIType]
  interval_cases i <;> simp

@[simp] theorem fieldFunct3_encodeIType (imm : BitVec 12) (rs1 : BitVec 5) (f3 : BitVec 3) (rd : BitVec 5) (op : BitVec 7) :
    fieldFunct3 (encodeIType imm rs1 f3 rd op) = f3 := by
  ext i hi
  simp only [fieldFunct3, encodeIType]
  interval_cases i <;> simp

@[simp] theorem fieldRd_encodeIType (imm : BitVec 12) (rs1 : BitVec 5) (f3 : BitVec 3) (rd : BitVec 5) (op : BitVec 7) :
    fieldRd (encodeIType imm rs1 f3 rd op) = rd := by
  ext i hi
  simp only [fieldRd, encodeIType]
  interval_cases i <;> simp

@[simp] theorem fieldOpcode_encodeIType (imm : BitVec 12) (rs1 : BitVec 5) (f3 : BitVec 3) (rd : BitVec 5) (op : BitVec 7) :
    fieldOpcode (encodeIType imm rs1 f3 rd op) = op := by
  ext i hi
  simp only [fieldOpcode, encodeIType]
  interval_cases i <;> simp

/-- The five fields are the whole word (R41). -/
theorem encodeIType_fields (w : InstrWord) :
    encodeIType (fieldImm12 w) (fieldRs1 w) (fieldFunct3 w) (fieldRd w) (fieldOpcode w) = w := by
  ext i hi
  simp only [encodeIType, fieldImm12, fieldRs1, fieldFunct3, fieldRd, fieldOpcode]
  interval_cases i <;> simp

/-- Two words with the same fields are the same word. -/
theorem word_ext (v w : InstrWord) (h1 : fieldImm12 v = fieldImm12 w) (h2 : fieldRs1 v = fieldRs1 w)
    (h3 : fieldFunct3 v = fieldFunct3 w) (h4 : fieldRd v = fieldRd w) (h5 : fieldOpcode v = fieldOpcode w) : v = w := by
  rw [← encodeIType_fields v, ← encodeIType_fields w, h1, h2, h3, h4, h5]

/-- The fields of a masked word are the masked fields. -/
theorem fields_and (v w : InstrWord) :
    fieldImm12 (v &&& w) = fieldImm12 v &&& fieldImm12 w ∧ fieldRs1 (v &&& w) = fieldRs1 v &&& fieldRs1 w ∧
      fieldFunct3 (v &&& w) = fieldFunct3 v &&& fieldFunct3 w ∧ fieldRd (v &&& w) = fieldRd v &&& fieldRd w ∧
      fieldOpcode (v &&& w) = fieldOpcode v &&& fieldOpcode w := by
  simp only [fieldImm12, fieldRs1, fieldFunct3, fieldRd, fieldOpcode]
  refine ⟨?_, ?_, ?_, ?_, ?_⟩ <;> (ext i hi; simp)

/-- A word under the mask of the cache-block rows: every field but `rs1` stays (R42). -/
theorem and_cacheBlock_mask (w : InstrWord) :
    w &&& 0xFFF07FFF#32 = encodeIType (fieldImm12 w) 0 (fieldFunct3 w) (fieldRd w) (fieldOpcode w) := by
  obtain ⟨h1, h2, h3, h4, h5⟩ := fields_and w 0xFFF07FFF#32
  refine word_ext _ _ ?_ ?_ ?_ ?_ ?_
  · rw [h1, fieldImm12_encodeIType, show fieldImm12 0xFFF07FFF#32 = BitVec.allOnes 12 by decide, BitVec.and_allOnes]
  · rw [h2, fieldRs1_encodeIType, show fieldRs1 0xFFF07FFF#32 = 0 by decide]
    simp
  · rw [h3, fieldFunct3_encodeIType, show fieldFunct3 0xFFF07FFF#32 = BitVec.allOnes 3 by decide, BitVec.and_allOnes]
  · rw [h4, fieldRd_encodeIType, show fieldRd 0xFFF07FFF#32 = BitVec.allOnes 5 by decide, BitVec.and_allOnes]
  · rw [h5, fieldOpcode_encodeIType, show fieldOpcode 0xFFF07FFF#32 = BitVec.allOnes 7 by decide, BitVec.and_allOnes]

/-- A word under the mask of the CSR rows: `funct3` and the opcode stay (R43). -/
theorem and_csr_mask (w : InstrWord) : w &&& 0x0000707F#32 = encodeIType 0 0 (fieldFunct3 w) 0 (fieldOpcode w) := by
  obtain ⟨h1, h2, h3, h4, h5⟩ := fields_and w 0x0000707F#32
  refine word_ext _ _ ?_ ?_ ?_ ?_ ?_
  · rw [h1, fieldImm12_encodeIType, show fieldImm12 0x0000707F#32 = 0 by decide]
    simp
  · rw [h2, fieldRs1_encodeIType, show fieldRs1 0x0000707F#32 = 0 by decide]
    simp
  · rw [h3, fieldFunct3_encodeIType, show fieldFunct3 0x0000707F#32 = BitVec.allOnes 3 by decide, BitVec.and_allOnes]
  · rw [h4, fieldRd_encodeIType, show fieldRd 0x0000707F#32 = 0 by decide]
    simp
  · rw [h5, fieldOpcode_encodeIType, show fieldOpcode 0x0000707F#32 = BitVec.allOnes 7 by decide, BitVec.and_allOnes]

/-- The length bits are bits of the major opcode (R41). -/
theorem lengthBits_fieldOpcode (w : InstrWord) :
    w.extractLsb' 0 2 = (fieldOpcode w).extractLsb' 0 2 ∧ w.extractLsb' 2 3 = (fieldOpcode w).extractLsb' 2 3 := by
  constructor <;> ext i hi <;> simp only [fieldOpcode] <;> interval_cases i <;> simp

/-- The four bytes of a word make the word again (R35). -/
@[simp] theorem wordOfBytes_bytesOfWord (w : InstrWord) :
    wordOfBytes (w.extractLsb' 0 8) (w.extractLsb' 8 8) (w.extractLsb' 16 8) (w.extractLsb' 24 8) = w := by
  ext i hi
  simp only [wordOfBytes]
  interval_cases i <;> simp

/-- Decoding the bytes of a word is decoding the word. -/
theorem decodeBytes_bytesOfWord (w : InstrWord) (rest : List Byte) :
    decodeBytes (bytesOfWord w ++ rest) = (decode w).map (fun i => (i, rest)) := by
  simp [bytesOfWord, decodeBytes]

/-- A word whose major opcode is one of the two passes the length check. -/
theorem decode_of_opcode (w : InstrWord) (h : fieldOpcode w = opMiscMem ∨ fieldOpcode w = opSystem) :
    decode w = if fieldOpcode w = opMiscMem then decodeMiscMem w else decodeSystem w := by
  have hl := lengthBits_fieldOpcode w
  unfold decode
  rcases h with h | h <;> rw [hl.1, hl.2, h] <;> simp [opMiscMem, opSystem]

end Sys2Proof
end

