-- ==== Sys2Proof/Laws/Memory.lean ====
section
/-! SUPPORT. Memory: what a read finds after each operation, and that each operation keeps the canonical form. -/

namespace Sys2Proof.Machine

@[simp] theorem memory_read_nil (a : Nat) : Memory.read [] a = none := rfl

theorem memory_read_write_same (m : Memory) (a : Nat) (v : Byte) : Memory.read (Memory.write m a v) a = some v := by
  induction m with
  | nil => simp [Memory.write, Memory.read]
  | cons c m ih =>
    obtain ⟨a', v'⟩ := c
    unfold Memory.write
    split
    · simp [Memory.read]
    · split
      · simp [Memory.read]
      · rename_i h1 h2
        simp [Memory.read, h2, ih]

theorem memory_read_write_other (m : Memory) (a b : Nat) (v : Byte) (h : b ≠ a) :
    Memory.read (Memory.write m a v) b = Memory.read m b := by
  induction m with
  | nil => simp [Memory.write, Memory.read, Ne.symm h]
  | cons c m ih =>
    obtain ⟨a', v'⟩ := c
    unfold Memory.write
    split
    · simp [Memory.read, Ne.symm h]
    · split
      · rename_i h2
        subst h2
        simp [Memory.read, Ne.symm h]
      · simp [Memory.read, ih]

/-- A read after a write, in one equation. -/
theorem memory_read_write (m : Memory) (a b : Nat) (v : Byte) :
    Memory.read (Memory.write m a v) b = if b = a then some v else Memory.read m b := by
  split
  · rename_i h
    subst h
    exact memory_read_write_same m b v
  · rename_i h
    exact memory_read_write_other m a b v h

theorem memory_mem_write (m : Memory) (a : Nat) (v : Byte) (c : Host.Cell) (h : c ∈ Memory.write m a v) :
    c = (a, v) ∨ c ∈ m := by
  induction m with
  | nil => simpa [Memory.write] using h
  | cons d m ih =>
    obtain ⟨a', v'⟩ := d
    unfold Memory.write at h
    split at h
    · simpa using h
    · split at h
      · simp only [List.mem_cons] at h ⊢
        tauto
      · simp only [List.mem_cons] at h ⊢
        rcases h with h | h
        · tauto
        · rcases ih h with h | h <;> tauto

theorem memory_write_wf (m : Memory) (a : Nat) (v : Byte) (h : Memory.wf m) : Memory.wf (Memory.write m a v) := by
  induction m with
  | nil => simp [Memory.wf, Memory.write]
  | cons c m ih =>
    obtain ⟨a', v'⟩ := c
    have hc := List.pairwise_cons.mp h
    unfold Memory.write
    split
    · rename_i hlt
      refine List.pairwise_cons.mpr ⟨fun d hd => ?_, h⟩
      rcases List.mem_cons.mp hd with hd | hd
      · subst hd
        exact hlt
      · exact Nat.lt_trans hlt (hc.1 d hd)
    · split
      · rename_i heq
        subst heq
        exact List.pairwise_cons.mpr ⟨hc.1, hc.2⟩
      · rename_i h1 h2
        refine List.pairwise_cons.mpr ⟨fun d hd => ?_, ih hc.2⟩
        rcases memory_mem_write m a v d hd with hd | hd
        · subst hd
          show a' < a
          omega
        · exact hc.1 d hd

theorem memory_dropWhere_wf (p : Nat → Bool) (m : Memory) (h : Memory.wf m) : Memory.wf (Memory.dropWhere p m) :=
  List.Pairwise.filter _ h

theorem memory_mem_dropWhere (p : Nat → Bool) (m : Memory) (c : Host.Cell) :
    c ∈ Memory.dropWhere p m ↔ c ∈ m ∧ p c.1 = false := by
  simp [Memory.dropWhere]

theorem memory_read_dropWhere (p : Nat → Bool) (m : Memory) (a : Nat) :
    Memory.read (Memory.dropWhere p m) a = if p a then none else Memory.read m a := by
  induction m with
  | nil => simp [Memory.dropWhere]
  | cons c m ih =>
    obtain ⟨a', v'⟩ := c
    unfold Memory.dropWhere at ih ⊢
    by_cases hp : p a' = true
    · rw [List.filter_cons_of_neg (by simp [hp]), ih]
      by_cases ha : a' = a
      · subst ha
        simp [hp]
      · simp [Memory.read, ha]
    · rw [List.filter_cons_of_pos (by simp [hp])]
      by_cases ha : a' = a
      · subst ha
        simp [Memory.read, hp]
      · simp [Memory.read, ha, ih]

theorem memory_writeAll_wf (cells : List Host.Cell) (m : Memory) (h : Memory.wf m) : Memory.wf (Memory.writeAll cells m) := by
  induction cells generalizing m with
  | nil => exact h
  | cons c cells ih => exact ih _ (memory_write_wf m c.1 c.2 h)

theorem memory_mem_writeAll (cells : List Host.Cell) (m : Memory) (c : Host.Cell) (h : c ∈ Memory.writeAll cells m) :
    c ∈ cells ∨ c ∈ m := by
  induction cells generalizing m with
  | nil => exact Or.inr h
  | cons d cells ih =>
    rcases ih _ h with h | h
    · exact Or.inl (List.mem_cons_of_mem _ h)
    · rcases memory_mem_write m d.1 d.2 c h with h | h
      · exact Or.inl (by simp [h])
      · exact Or.inr h

/-- An address none of the cells has keeps its byte. -/
theorem memory_read_writeAll_other (cells : List Host.Cell) (m : Memory) (a : Nat) (h : ∀ c ∈ cells, c.1 ≠ a) :
    Memory.read (Memory.writeAll cells m) a = Memory.read m a := by
  induction cells generalizing m with
  | nil => rfl
  | cons c cells ih =>
    have hc : a ≠ c.1 := fun e => h c (by simp) e.symm
    exact (ih _ fun d hd => h d (List.mem_cons_of_mem _ hd)).trans (memory_read_write_other m c.1 a c.2 hc)

/-- Reading a listed byte of a canonical memory, and writing all its cells: the memory's own byte wins. -/
theorem memory_read_of_mem (m : Memory) (c : Host.Cell) (h : Memory.wf m) (hc : c ∈ m) :
    Memory.read m c.1 = some c.2 := by
  induction m with
  | nil => cases hc
  | cons d m ih =>
    have hd := List.pairwise_cons.mp h
    rcases List.mem_cons.mp hc with hc | hc
    · subst hc
      simp [Memory.read]
    · have := hd.1 c hc
      have hne : d.1 ≠ c.1 := by omega
      simp [Memory.read, hne, ih hd.2 hc]

theorem memory_mem_of_read (m : Memory) (a : Nat) (v : Byte) (h : Memory.read m a = some v) : (a, v) ∈ m := by
  induction m with
  | nil => simp at h
  | cons d m ih =>
    obtain ⟨a', v'⟩ := d
    unfold Memory.read at h
    split at h
    · rename_i he
      simp_all
    · exact List.mem_cons_of_mem _ (ih h)

/-- Writing the cells of a canonical memory into another: each of its bytes is found, every other address is as before. -/
theorem memory_read_writeAll (cells m : Memory) (a : Nat) (h : Memory.wf cells) :
    Memory.read (Memory.writeAll cells m) a =
      (Memory.read cells a).or (Memory.read m a) := by
  induction cells generalizing m with
  | nil => rfl
  | cons c cells ih =>
    have hc := List.pairwise_cons.mp h
    have hstep : Memory.writeAll (c :: cells) m = Memory.writeAll cells (Memory.write m c.1 c.2) := rfl
    rw [hstep, ih _ hc.2]
    by_cases ha : c.1 = a
    · have hnone : Memory.read cells a = none := by
        rcases hr : Memory.read cells a with _ | v
        · rfl
        · have := hc.1 _ (memory_mem_of_read cells a v hr)
          simp only at this
          omega
      subst ha
      simp [hnone, Memory.read, memory_read_write_same]
    · simp [Memory.read, ha, memory_read_write_other m c.1 a c.2 (Ne.symm ha)]

end Sys2Proof.Machine
end

