-- ==== Sys2Proof/Laws/State.lean ====
section
/-! SUPPORT. For each update of the state, one lemma per field: what the field is afterwards. A proof that needs a field of an
updated state cites these instead of unfolding the update. -/

namespace Sys2Proof.Machine

/-! ### `advance` -/

@[simp] theorem advance_cfg (s : State) : (s.advance).cfg = s.cfg := rfl
@[simp] theorem advance_curMode (s : State) : (s.advance).curMode = s.curMode := rfl
@[simp] theorem advance_hEn (s : State) : (s.advance).hEn = s.hEn := rfl
@[simp] theorem advance_xregs (s : State) : (s.advance).xregs = s.xregs := rfl
@[simp] theorem advance_mcmo (s : State) : (s.advance).mcmo = s.mcmo := rfl
@[simp] theorem advance_scmo (s : State) : (s.advance).scmo = s.scmo := rfl
@[simp] theorem advance_hcmo (s : State) : (s.advance).hcmo = s.hcmo := rfl
@[simp] theorem advance_inputs (s : State) : (s.advance).inputs = s.inputs := rfl
@[simp] theorem advance_accesses (s : State) : (s.advance).accesses = s.accesses := rfl
@[simp] theorem advance_trap (s : State) : (s.advance).trap = s.trap := rfl
@[simp] theorem advance_mem (s : State) : (s.advance).mem = s.mem := rfl
@[simp] theorem advance_modified (s : State) : (s.advance).modified = s.modified := rfl
@[simp] theorem advance_draws (s : State) : (s.advance).draws = s.draws := rfl
@[simp] theorem advance_pending (s : State) : (s.advance).pending = s.pending := rfl
@[simp] theorem advance_past (s : State) : (s.advance).past = s.past := rfl
@[simp] theorem advance_events (s : State) : (s.advance).events = s.events := rfl
@[simp] theorem advance_pc (s : State) : s.advance.pc = trunc s.cfg (s.pc + 4) := rfl

/-! ### `setX` -/

@[simp] theorem setX_cfg (s : State) (i : RegNum) (v : Word) : (s.setX i v).cfg = s.cfg := by
  unfold State.setX; split <;> rfl
@[simp] theorem setX_curMode (s : State) (i : RegNum) (v : Word) : (s.setX i v).curMode = s.curMode := by
  unfold State.setX; split <;> rfl
@[simp] theorem setX_hEn (s : State) (i : RegNum) (v : Word) : (s.setX i v).hEn = s.hEn := by
  unfold State.setX; split <;> rfl
@[simp] theorem setX_pc (s : State) (i : RegNum) (v : Word) : (s.setX i v).pc = s.pc := by
  unfold State.setX; split <;> rfl
@[simp] theorem setX_mcmo (s : State) (i : RegNum) (v : Word) : (s.setX i v).mcmo = s.mcmo := by
  unfold State.setX; split <;> rfl
@[simp] theorem setX_scmo (s : State) (i : RegNum) (v : Word) : (s.setX i v).scmo = s.scmo := by
  unfold State.setX; split <;> rfl
@[simp] theorem setX_hcmo (s : State) (i : RegNum) (v : Word) : (s.setX i v).hcmo = s.hcmo := by
  unfold State.setX; split <;> rfl
@[simp] theorem setX_inputs (s : State) (i : RegNum) (v : Word) : (s.setX i v).inputs = s.inputs := by
  unfold State.setX; split <;> rfl
@[simp] theorem setX_accesses (s : State) (i : RegNum) (v : Word) : (s.setX i v).accesses = s.accesses := by
  unfold State.setX; split <;> rfl
@[simp] theorem setX_trap (s : State) (i : RegNum) (v : Word) : (s.setX i v).trap = s.trap := by
  unfold State.setX; split <;> rfl
@[simp] theorem setX_mem (s : State) (i : RegNum) (v : Word) : (s.setX i v).mem = s.mem := by
  unfold State.setX; split <;> rfl
@[simp] theorem setX_modified (s : State) (i : RegNum) (v : Word) : (s.setX i v).modified = s.modified := by
  unfold State.setX; split <;> rfl
@[simp] theorem setX_draws (s : State) (i : RegNum) (v : Word) : (s.setX i v).draws = s.draws := by
  unfold State.setX; split <;> rfl
@[simp] theorem setX_pending (s : State) (i : RegNum) (v : Word) : (s.setX i v).pending = s.pending := by
  unfold State.setX; split <;> rfl
@[simp] theorem setX_past (s : State) (i : RegNum) (v : Word) : (s.setX i v).past = s.past := by
  unfold State.setX; split <;> rfl
@[simp] theorem setX_events (s : State) (i : RegNum) (v : Word) : (s.setX i v).events = s.events := by
  unfold State.setX; split <;> rfl

/-! ### `setCsr` -/

@[simp] theorem setCsr_cfg (s : State) (r : CmoReg) (v : CmoCsr) : (s.setCsr r v).cfg = s.cfg := by
  cases r <;> rfl
@[simp] theorem setCsr_curMode (s : State) (r : CmoReg) (v : CmoCsr) : (s.setCsr r v).curMode = s.curMode := by
  cases r <;> rfl
@[simp] theorem setCsr_hEn (s : State) (r : CmoReg) (v : CmoCsr) : (s.setCsr r v).hEn = s.hEn := by
  cases r <;> rfl
@[simp] theorem setCsr_xregs (s : State) (r : CmoReg) (v : CmoCsr) : (s.setCsr r v).xregs = s.xregs := by
  cases r <;> rfl
@[simp] theorem setCsr_pc (s : State) (r : CmoReg) (v : CmoCsr) : (s.setCsr r v).pc = s.pc := by
  cases r <;> rfl
@[simp] theorem setCsr_inputs (s : State) (r : CmoReg) (v : CmoCsr) : (s.setCsr r v).inputs = s.inputs := by
  cases r <;> rfl
@[simp] theorem setCsr_accesses (s : State) (r : CmoReg) (v : CmoCsr) : (s.setCsr r v).accesses = s.accesses := by
  cases r <;> rfl
@[simp] theorem setCsr_trap (s : State) (r : CmoReg) (v : CmoCsr) : (s.setCsr r v).trap = s.trap := by
  cases r <;> rfl
@[simp] theorem setCsr_mem (s : State) (r : CmoReg) (v : CmoCsr) : (s.setCsr r v).mem = s.mem := by
  cases r <;> rfl
@[simp] theorem setCsr_modified (s : State) (r : CmoReg) (v : CmoCsr) : (s.setCsr r v).modified = s.modified := by
  cases r <;> rfl
@[simp] theorem setCsr_draws (s : State) (r : CmoReg) (v : CmoCsr) : (s.setCsr r v).draws = s.draws := by
  cases r <;> rfl
@[simp] theorem setCsr_pending (s : State) (r : CmoReg) (v : CmoCsr) : (s.setCsr r v).pending = s.pending := by
  cases r <;> rfl
@[simp] theorem setCsr_past (s : State) (r : CmoReg) (v : CmoCsr) : (s.setCsr r v).past = s.past := by
  cases r <;> rfl
@[simp] theorem setCsr_events (s : State) (r : CmoReg) (v : CmoCsr) : (s.setCsr r v).events = s.events := by
  cases r <;> rfl

/-! ### `csrWrite` -/

@[simp] theorem csrWrite_cfg (s : State) (r : CmoReg) (w : Word) : (s.csrWrite r w).cfg = s.cfg := by
  cases r <;> rfl
@[simp] theorem csrWrite_curMode (s : State) (r : CmoReg) (w : Word) : (s.csrWrite r w).curMode = s.curMode := by
  cases r <;> rfl
@[simp] theorem csrWrite_hEn (s : State) (r : CmoReg) (w : Word) : (s.csrWrite r w).hEn = s.hEn := by
  cases r <;> rfl
@[simp] theorem csrWrite_xregs (s : State) (r : CmoReg) (w : Word) : (s.csrWrite r w).xregs = s.xregs := by
  cases r <;> rfl
@[simp] theorem csrWrite_pc (s : State) (r : CmoReg) (w : Word) : (s.csrWrite r w).pc = s.pc := by
  cases r <;> rfl
@[simp] theorem csrWrite_inputs (s : State) (r : CmoReg) (w : Word) : (s.csrWrite r w).inputs = s.inputs := by
  cases r <;> rfl
@[simp] theorem csrWrite_accesses (s : State) (r : CmoReg) (w : Word) : (s.csrWrite r w).accesses = s.accesses := by
  cases r <;> rfl
@[simp] theorem csrWrite_trap (s : State) (r : CmoReg) (w : Word) : (s.csrWrite r w).trap = s.trap := by
  cases r <;> rfl
@[simp] theorem csrWrite_mem (s : State) (r : CmoReg) (w : Word) : (s.csrWrite r w).mem = s.mem := by
  cases r <;> rfl
@[simp] theorem csrWrite_modified (s : State) (r : CmoReg) (w : Word) : (s.csrWrite r w).modified = s.modified := by
  cases r <;> rfl
@[simp] theorem csrWrite_draws (s : State) (r : CmoReg) (w : Word) : (s.csrWrite r w).draws = s.draws := by
  cases r <;> rfl
@[simp] theorem csrWrite_pending (s : State) (r : CmoReg) (w : Word) : (s.csrWrite r w).pending = s.pending := by
  cases r <;> rfl
@[simp] theorem csrWrite_past (s : State) (r : CmoReg) (w : Word) : (s.csrWrite r w).past = s.past := by
  cases r <;> rfl
@[simp] theorem csrWrite_events (s : State) (r : CmoReg) (w : Word) : (s.csrWrite r w).events = s.events := by
  cases r <;> rfl

/-! ### `record` -/

@[simp] theorem record_cfg (s : State) (k : CacheOpKind) (a : Word) : (s.record k a).cfg = s.cfg := rfl
@[simp] theorem record_curMode (s : State) (k : CacheOpKind) (a : Word) : (s.record k a).curMode = s.curMode := rfl
@[simp] theorem record_hEn (s : State) (k : CacheOpKind) (a : Word) : (s.record k a).hEn = s.hEn := rfl
@[simp] theorem record_xregs (s : State) (k : CacheOpKind) (a : Word) : (s.record k a).xregs = s.xregs := rfl
@[simp] theorem record_pc (s : State) (k : CacheOpKind) (a : Word) : (s.record k a).pc = s.pc := rfl
@[simp] theorem record_mcmo (s : State) (k : CacheOpKind) (a : Word) : (s.record k a).mcmo = s.mcmo := rfl
@[simp] theorem record_scmo (s : State) (k : CacheOpKind) (a : Word) : (s.record k a).scmo = s.scmo := rfl
@[simp] theorem record_hcmo (s : State) (k : CacheOpKind) (a : Word) : (s.record k a).hcmo = s.hcmo := rfl
@[simp] theorem record_inputs (s : State) (k : CacheOpKind) (a : Word) : (s.record k a).inputs = s.inputs := rfl
@[simp] theorem record_accesses (s : State) (k : CacheOpKind) (a : Word) : (s.record k a).accesses = s.accesses := rfl
@[simp] theorem record_trap (s : State) (k : CacheOpKind) (a : Word) : (s.record k a).trap = s.trap := rfl
@[simp] theorem record_mem (s : State) (k : CacheOpKind) (a : Word) : (s.record k a).mem = s.mem := rfl
@[simp] theorem record_modified (s : State) (k : CacheOpKind) (a : Word) : (s.record k a).modified = s.modified := rfl
@[simp] theorem record_draws (s : State) (k : CacheOpKind) (a : Word) : (s.record k a).draws = s.draws := rfl
@[simp] theorem record_pending (s : State) (k : CacheOpKind) (a : Word) : (s.record k a).pending = s.pending := rfl
@[simp] theorem record_past (s : State) (k : CacheOpKind) (a : Word) : (s.record k a).past = s.past := rfl
@[simp] theorem record_events (s : State) (k : CacheOpKind) (a : Word) :
    (s.record k a).events = s.events ++ [{ hart := s.cfg.hartId, kind := k, addr := a }] := rfl

/-! ### `updateBlock` -/

@[simp] theorem updateBlock_cfg (s : State) (a : Word) : (s.updateBlock a).cfg = s.cfg := rfl
@[simp] theorem updateBlock_curMode (s : State) (a : Word) : (s.updateBlock a).curMode = s.curMode := rfl
@[simp] theorem updateBlock_hEn (s : State) (a : Word) : (s.updateBlock a).hEn = s.hEn := rfl
@[simp] theorem updateBlock_xregs (s : State) (a : Word) : (s.updateBlock a).xregs = s.xregs := rfl
@[simp] theorem updateBlock_pc (s : State) (a : Word) : (s.updateBlock a).pc = s.pc := rfl
@[simp] theorem updateBlock_mcmo (s : State) (a : Word) : (s.updateBlock a).mcmo = s.mcmo := rfl
@[simp] theorem updateBlock_scmo (s : State) (a : Word) : (s.updateBlock a).scmo = s.scmo := rfl
@[simp] theorem updateBlock_hcmo (s : State) (a : Word) : (s.updateBlock a).hcmo = s.hcmo := rfl
@[simp] theorem updateBlock_inputs (s : State) (a : Word) : (s.updateBlock a).inputs = s.inputs := rfl
@[simp] theorem updateBlock_accesses (s : State) (a : Word) : (s.updateBlock a).accesses = s.accesses := rfl
@[simp] theorem updateBlock_mem (s : State) (a : Word) : (s.updateBlock a).mem = s.mem := rfl
@[simp] theorem updateBlock_trap (s : State) (a : Word) : (s.updateBlock a).trap = s.trap := rfl
@[simp] theorem updateBlock_draws (s : State) (a : Word) : (s.updateBlock a).draws = s.draws := rfl
@[simp] theorem updateBlock_events (s : State) (a : Word) : (s.updateBlock a).events = s.events := rfl

/-! ### `invalidateBlock` -/

@[simp] theorem invalidateBlock_cfg (s : State) (a : Word) : (s.invalidateBlock a).cfg = s.cfg := rfl
@[simp] theorem invalidateBlock_curMode (s : State) (a : Word) : (s.invalidateBlock a).curMode = s.curMode := rfl
@[simp] theorem invalidateBlock_hEn (s : State) (a : Word) : (s.invalidateBlock a).hEn = s.hEn := rfl
@[simp] theorem invalidateBlock_xregs (s : State) (a : Word) : (s.invalidateBlock a).xregs = s.xregs := rfl
@[simp] theorem invalidateBlock_pc (s : State) (a : Word) : (s.invalidateBlock a).pc = s.pc := rfl
@[simp] theorem invalidateBlock_mcmo (s : State) (a : Word) : (s.invalidateBlock a).mcmo = s.mcmo := rfl
@[simp] theorem invalidateBlock_scmo (s : State) (a : Word) : (s.invalidateBlock a).scmo = s.scmo := rfl
@[simp] theorem invalidateBlock_hcmo (s : State) (a : Word) : (s.invalidateBlock a).hcmo = s.hcmo := rfl
@[simp] theorem invalidateBlock_inputs (s : State) (a : Word) : (s.invalidateBlock a).inputs = s.inputs := rfl
@[simp] theorem invalidateBlock_accesses (s : State) (a : Word) : (s.invalidateBlock a).accesses = s.accesses := rfl
@[simp] theorem invalidateBlock_trap (s : State) (a : Word) : (s.invalidateBlock a).trap = s.trap := rfl
@[simp] theorem invalidateBlock_mem (s : State) (a : Word) : (s.invalidateBlock a).mem = s.mem := rfl
@[simp] theorem invalidateBlock_pending (s : State) (a : Word) : (s.invalidateBlock a).pending = s.pending := rfl
@[simp] theorem invalidateBlock_events (s : State) (a : Word) : (s.invalidateBlock a).events = s.events := rfl
@[simp] theorem invalidateBlock_draws (s : State) (a : Word) : (s.invalidateBlock a).draws = s.draws + 1 := rfl

/-! ### `zeroBlock` -/

@[simp] theorem zeroBlock_cfg (s : State) (a : Word) : (s.zeroBlock a).cfg = s.cfg := rfl
@[simp] theorem zeroBlock_curMode (s : State) (a : Word) : (s.zeroBlock a).curMode = s.curMode := rfl
@[simp] theorem zeroBlock_hEn (s : State) (a : Word) : (s.zeroBlock a).hEn = s.hEn := rfl
@[simp] theorem zeroBlock_xregs (s : State) (a : Word) : (s.zeroBlock a).xregs = s.xregs := rfl
@[simp] theorem zeroBlock_pc (s : State) (a : Word) : (s.zeroBlock a).pc = s.pc := rfl
@[simp] theorem zeroBlock_mcmo (s : State) (a : Word) : (s.zeroBlock a).mcmo = s.mcmo := rfl
@[simp] theorem zeroBlock_scmo (s : State) (a : Word) : (s.zeroBlock a).scmo = s.scmo := rfl
@[simp] theorem zeroBlock_hcmo (s : State) (a : Word) : (s.zeroBlock a).hcmo = s.hcmo := rfl
@[simp] theorem zeroBlock_inputs (s : State) (a : Word) : (s.zeroBlock a).inputs = s.inputs := rfl
@[simp] theorem zeroBlock_accesses (s : State) (a : Word) : (s.zeroBlock a).accesses = s.accesses := rfl
@[simp] theorem zeroBlock_trap (s : State) (a : Word) : (s.zeroBlock a).trap = s.trap := rfl
@[simp] theorem zeroBlock_mem (s : State) (a : Word) : (s.zeroBlock a).mem = s.mem := rfl
@[simp] theorem zeroBlock_pending (s : State) (a : Word) : (s.zeroBlock a).pending = s.pending := rfl
@[simp] theorem zeroBlock_draws (s : State) (a : Word) : (s.zeroBlock a).draws = s.draws := rfl
@[simp] theorem zeroBlock_events (s : State) (a : Word) : (s.zeroBlock a).events = s.events := rfl

/-! ### `cacheOp` -/

@[simp] theorem cacheOp_cfg (s : State) (k : CacheOpKind) (a : Word) : (s.cacheOp k a).cfg = s.cfg := by
  cases k <;> rfl
@[simp] theorem cacheOp_curMode (s : State) (k : CacheOpKind) (a : Word) : (s.cacheOp k a).curMode = s.curMode := by
  cases k <;> rfl
@[simp] theorem cacheOp_hEn (s : State) (k : CacheOpKind) (a : Word) : (s.cacheOp k a).hEn = s.hEn := by
  cases k <;> rfl
@[simp] theorem cacheOp_xregs (s : State) (k : CacheOpKind) (a : Word) : (s.cacheOp k a).xregs = s.xregs := by
  cases k <;> rfl
@[simp] theorem cacheOp_pc (s : State) (k : CacheOpKind) (a : Word) : (s.cacheOp k a).pc = s.pc := by
  cases k <;> rfl
@[simp] theorem cacheOp_mcmo (s : State) (k : CacheOpKind) (a : Word) : (s.cacheOp k a).mcmo = s.mcmo := by
  cases k <;> rfl
@[simp] theorem cacheOp_scmo (s : State) (k : CacheOpKind) (a : Word) : (s.cacheOp k a).scmo = s.scmo := by
  cases k <;> rfl
@[simp] theorem cacheOp_hcmo (s : State) (k : CacheOpKind) (a : Word) : (s.cacheOp k a).hcmo = s.hcmo := by
  cases k <;> rfl
@[simp] theorem cacheOp_inputs (s : State) (k : CacheOpKind) (a : Word) : (s.cacheOp k a).inputs = s.inputs := by
  cases k <;> rfl
@[simp] theorem cacheOp_accesses (s : State) (k : CacheOpKind) (a : Word) : (s.cacheOp k a).accesses = s.accesses := by
  cases k <;> rfl
@[simp] theorem cacheOp_mem (s : State) (k : CacheOpKind) (a : Word) : (s.cacheOp k a).mem = s.mem := by
  cases k <;> rfl
@[simp] theorem cacheOp_trap (s : State) (k : CacheOpKind) (a : Word) : (s.cacheOp k a).trap = s.trap := by
  cases k <;> rfl
@[simp] theorem cacheOp_events (s : State) (k : CacheOpKind) (a : Word) :
    (s.cacheOp k a).events = s.events ++ [{ hart := s.cfg.hartId, kind := k, addr := a }] := by
  cases k <;> rfl

/-! ### `enterM` -/

@[simp] theorem enterM_cfg (s : State) (k : ExceptionKind) (info : Word) : (s.enterM k info).cfg = s.cfg := rfl
@[simp] theorem enterM_hEn (s : State) (k : ExceptionKind) (info : Word) : (s.enterM k info).hEn = s.hEn := rfl
@[simp] theorem enterM_xregs (s : State) (k : ExceptionKind) (info : Word) : (s.enterM k info).xregs = s.xregs := rfl
@[simp] theorem enterM_mcmo (s : State) (k : ExceptionKind) (info : Word) : (s.enterM k info).mcmo = s.mcmo := rfl
@[simp] theorem enterM_scmo (s : State) (k : ExceptionKind) (info : Word) : (s.enterM k info).scmo = s.scmo := rfl
@[simp] theorem enterM_hcmo (s : State) (k : ExceptionKind) (info : Word) : (s.enterM k info).hcmo = s.hcmo := rfl
@[simp] theorem enterM_inputs (s : State) (k : ExceptionKind) (info : Word) : (s.enterM k info).inputs = s.inputs := rfl
@[simp] theorem enterM_accesses (s : State) (k : ExceptionKind) (info : Word) : (s.enterM k info).accesses = s.accesses := rfl
@[simp] theorem enterM_mem (s : State) (k : ExceptionKind) (info : Word) : (s.enterM k info).mem = s.mem := rfl
@[simp] theorem enterM_modified (s : State) (k : ExceptionKind) (info : Word) : (s.enterM k info).modified = s.modified := rfl
@[simp] theorem enterM_draws (s : State) (k : ExceptionKind) (info : Word) : (s.enterM k info).draws = s.draws := rfl
@[simp] theorem enterM_pending (s : State) (k : ExceptionKind) (info : Word) : (s.enterM k info).pending = s.pending := rfl
@[simp] theorem enterM_past (s : State) (k : ExceptionKind) (info : Word) : (s.enterM k info).past = s.past := rfl
@[simp] theorem enterM_events (s : State) (k : ExceptionKind) (info : Word) : (s.enterM k info).events = s.events := rfl
@[simp] theorem enterM_pc (s : State) (k : ExceptionKind) (info : Word) : (s.enterM k info).pc = s.trap.m.tvec.base := rfl
@[simp] theorem enterM_curMode (s : State) (k : ExceptionKind) (info : Word) : (s.enterM k info).curMode = .m := rfl

/-! ### `enterHs` -/

@[simp] theorem enterHs_cfg (s : State) (k : ExceptionKind) (info : Word) : (s.enterHs k info).cfg = s.cfg := rfl
@[simp] theorem enterHs_hEn (s : State) (k : ExceptionKind) (info : Word) : (s.enterHs k info).hEn = s.hEn := rfl
@[simp] theorem enterHs_xregs (s : State) (k : ExceptionKind) (info : Word) : (s.enterHs k info).xregs = s.xregs := rfl
@[simp] theorem enterHs_mcmo (s : State) (k : ExceptionKind) (info : Word) : (s.enterHs k info).mcmo = s.mcmo := rfl
@[simp] theorem enterHs_scmo (s : State) (k : ExceptionKind) (info : Word) : (s.enterHs k info).scmo = s.scmo := rfl
@[simp] theorem enterHs_hcmo (s : State) (k : ExceptionKind) (info : Word) : (s.enterHs k info).hcmo = s.hcmo := rfl
@[simp] theorem enterHs_inputs (s : State) (k : ExceptionKind) (info : Word) : (s.enterHs k info).inputs = s.inputs := rfl
@[simp] theorem enterHs_accesses (s : State) (k : ExceptionKind) (info : Word) : (s.enterHs k info).accesses = s.accesses := rfl
@[simp] theorem enterHs_mem (s : State) (k : ExceptionKind) (info : Word) : (s.enterHs k info).mem = s.mem := rfl
@[simp] theorem enterHs_modified (s : State) (k : ExceptionKind) (info : Word) : (s.enterHs k info).modified = s.modified := rfl
@[simp] theorem enterHs_draws (s : State) (k : ExceptionKind) (info : Word) : (s.enterHs k info).draws = s.draws := rfl
@[simp] theorem enterHs_pending (s : State) (k : ExceptionKind) (info : Word) : (s.enterHs k info).pending = s.pending := rfl
@[simp] theorem enterHs_past (s : State) (k : ExceptionKind) (info : Word) : (s.enterHs k info).past = s.past := rfl
@[simp] theorem enterHs_events (s : State) (k : ExceptionKind) (info : Word) : (s.enterHs k info).events = s.events := rfl
@[simp] theorem enterHs_pc (s : State) (k : ExceptionKind) (info : Word) : (s.enterHs k info).pc = s.trap.hs.tvec.base := rfl
@[simp] theorem enterHs_curMode (s : State) (k : ExceptionKind) (info : Word) : (s.enterHs k info).curMode = .shs := rfl

/-! ### `enterVs` -/

@[simp] theorem enterVs_cfg (s : State) (k : ExceptionKind) (info : Word) : (s.enterVs k info).cfg = s.cfg := rfl
@[simp] theorem enterVs_hEn (s : State) (k : ExceptionKind) (info : Word) : (s.enterVs k info).hEn = s.hEn := rfl
@[simp] theorem enterVs_xregs (s : State) (k : ExceptionKind) (info : Word) : (s.enterVs k info).xregs = s.xregs := rfl
@[simp] theorem enterVs_mcmo (s : State) (k : ExceptionKind) (info : Word) : (s.enterVs k info).mcmo = s.mcmo := rfl
@[simp] theorem enterVs_scmo (s : State) (k : ExceptionKind) (info : Word) : (s.enterVs k info).scmo = s.scmo := rfl
@[simp] theorem enterVs_hcmo (s : State) (k : ExceptionKind) (info : Word) : (s.enterVs k info).hcmo = s.hcmo := rfl
@[simp] theorem enterVs_inputs (s : State) (k : ExceptionKind) (info : Word) : (s.enterVs k info).inputs = s.inputs := rfl
@[simp] theorem enterVs_accesses (s : State) (k : ExceptionKind) (info : Word) : (s.enterVs k info).accesses = s.accesses := rfl
@[simp] theorem enterVs_mem (s : State) (k : ExceptionKind) (info : Word) : (s.enterVs k info).mem = s.mem := rfl
@[simp] theorem enterVs_modified (s : State) (k : ExceptionKind) (info : Word) : (s.enterVs k info).modified = s.modified := rfl
@[simp] theorem enterVs_draws (s : State) (k : ExceptionKind) (info : Word) : (s.enterVs k info).draws = s.draws := rfl
@[simp] theorem enterVs_pending (s : State) (k : ExceptionKind) (info : Word) : (s.enterVs k info).pending = s.pending := rfl
@[simp] theorem enterVs_past (s : State) (k : ExceptionKind) (info : Word) : (s.enterVs k info).past = s.past := rfl
@[simp] theorem enterVs_events (s : State) (k : ExceptionKind) (info : Word) : (s.enterVs k info).events = s.events := rfl
@[simp] theorem enterVs_pc (s : State) (k : ExceptionKind) (info : Word) : (s.enterVs k info).pc = s.trap.vs.tvec.base := rfl
@[simp] theorem enterVs_curMode (s : State) (k : ExceptionKind) (info : Word) : (s.enterVs k info).curMode = .vs := rfl

/-! ### `takeTrap` -/

@[simp] theorem takeTrap_cfg (s : State) (k : ExceptionKind) (info : Word) : (s.takeTrap k info).cfg = s.cfg := by
  unfold State.takeTrap; split <;> rfl
@[simp] theorem takeTrap_hEn (s : State) (k : ExceptionKind) (info : Word) : (s.takeTrap k info).hEn = s.hEn := by
  unfold State.takeTrap; split <;> rfl
@[simp] theorem takeTrap_xregs (s : State) (k : ExceptionKind) (info : Word) : (s.takeTrap k info).xregs = s.xregs := by
  unfold State.takeTrap; split <;> rfl
@[simp] theorem takeTrap_mcmo (s : State) (k : ExceptionKind) (info : Word) : (s.takeTrap k info).mcmo = s.mcmo := by
  unfold State.takeTrap; split <;> rfl
@[simp] theorem takeTrap_scmo (s : State) (k : ExceptionKind) (info : Word) : (s.takeTrap k info).scmo = s.scmo := by
  unfold State.takeTrap; split <;> rfl
@[simp] theorem takeTrap_hcmo (s : State) (k : ExceptionKind) (info : Word) : (s.takeTrap k info).hcmo = s.hcmo := by
  unfold State.takeTrap; split <;> rfl
@[simp] theorem takeTrap_inputs (s : State) (k : ExceptionKind) (info : Word) : (s.takeTrap k info).inputs = s.inputs := by
  unfold State.takeTrap; split <;> rfl
@[simp] theorem takeTrap_accesses (s : State) (k : ExceptionKind) (info : Word) : (s.takeTrap k info).accesses = s.accesses := by
  unfold State.takeTrap; split <;> rfl
@[simp] theorem takeTrap_mem (s : State) (k : ExceptionKind) (info : Word) : (s.takeTrap k info).mem = s.mem := by
  unfold State.takeTrap; split <;> rfl
@[simp] theorem takeTrap_modified (s : State) (k : ExceptionKind) (info : Word) : (s.takeTrap k info).modified = s.modified := by
  unfold State.takeTrap; split <;> rfl
@[simp] theorem takeTrap_draws (s : State) (k : ExceptionKind) (info : Word) : (s.takeTrap k info).draws = s.draws := by
  unfold State.takeTrap; split <;> rfl
@[simp] theorem takeTrap_pending (s : State) (k : ExceptionKind) (info : Word) : (s.takeTrap k info).pending = s.pending := by
  unfold State.takeTrap; split <;> rfl
@[simp] theorem takeTrap_past (s : State) (k : ExceptionKind) (info : Word) : (s.takeTrap k info).past = s.past := by
  unfold State.takeTrap; split <;> rfl
@[simp] theorem takeTrap_events (s : State) (k : ExceptionKind) (info : Word) : (s.takeTrap k info).events = s.events := by
  unfold State.takeTrap; split <;> rfl

/-! ### `trapReturn` -/

@[simp] theorem trapReturn_cfg (s : State) (l : TrapLevel) : (s.trapReturn l).cfg = s.cfg := by
  cases l <;> rfl
@[simp] theorem trapReturn_hEn (s : State) (l : TrapLevel) : (s.trapReturn l).hEn = s.hEn := by
  cases l <;> rfl
@[simp] theorem trapReturn_xregs (s : State) (l : TrapLevel) : (s.trapReturn l).xregs = s.xregs := by
  cases l <;> rfl
@[simp] theorem trapReturn_mcmo (s : State) (l : TrapLevel) : (s.trapReturn l).mcmo = s.mcmo := by
  cases l <;> rfl
@[simp] theorem trapReturn_scmo (s : State) (l : TrapLevel) : (s.trapReturn l).scmo = s.scmo := by
  cases l <;> rfl
@[simp] theorem trapReturn_hcmo (s : State) (l : TrapLevel) : (s.trapReturn l).hcmo = s.hcmo := by
  cases l <;> rfl
@[simp] theorem trapReturn_inputs (s : State) (l : TrapLevel) : (s.trapReturn l).inputs = s.inputs := by
  cases l <;> rfl
@[simp] theorem trapReturn_accesses (s : State) (l : TrapLevel) : (s.trapReturn l).accesses = s.accesses := by
  cases l <;> rfl
@[simp] theorem trapReturn_mem (s : State) (l : TrapLevel) : (s.trapReturn l).mem = s.mem := by
  cases l <;> rfl
@[simp] theorem trapReturn_modified (s : State) (l : TrapLevel) : (s.trapReturn l).modified = s.modified := by
  cases l <;> rfl
@[simp] theorem trapReturn_draws (s : State) (l : TrapLevel) : (s.trapReturn l).draws = s.draws := by
  cases l <;> rfl
@[simp] theorem trapReturn_pending (s : State) (l : TrapLevel) : (s.trapReturn l).pending = s.pending := by
  cases l <;> rfl
@[simp] theorem trapReturn_past (s : State) (l : TrapLevel) : (s.trapReturn l).past = s.past := by
  cases l <;> rfl
@[simp] theorem trapReturn_events (s : State) (l : TrapLevel) : (s.trapReturn l).events = s.events := by
  cases l <;> rfl

/-! ### `placeByte` -/

@[simp] theorem placeByte_cfg (s : State) (a : Nat) (v : Byte) : (s.placeByte a v).cfg = s.cfg := rfl
@[simp] theorem placeByte_curMode (s : State) (a : Nat) (v : Byte) : (s.placeByte a v).curMode = s.curMode := rfl
@[simp] theorem placeByte_hEn (s : State) (a : Nat) (v : Byte) : (s.placeByte a v).hEn = s.hEn := rfl
@[simp] theorem placeByte_xregs (s : State) (a : Nat) (v : Byte) : (s.placeByte a v).xregs = s.xregs := rfl
@[simp] theorem placeByte_pc (s : State) (a : Nat) (v : Byte) : (s.placeByte a v).pc = s.pc := rfl
@[simp] theorem placeByte_mcmo (s : State) (a : Nat) (v : Byte) : (s.placeByte a v).mcmo = s.mcmo := rfl
@[simp] theorem placeByte_scmo (s : State) (a : Nat) (v : Byte) : (s.placeByte a v).scmo = s.scmo := rfl
@[simp] theorem placeByte_hcmo (s : State) (a : Nat) (v : Byte) : (s.placeByte a v).hcmo = s.hcmo := rfl
@[simp] theorem placeByte_inputs (s : State) (a : Nat) (v : Byte) : (s.placeByte a v).inputs = s.inputs := rfl
@[simp] theorem placeByte_accesses (s : State) (a : Nat) (v : Byte) : (s.placeByte a v).accesses = s.accesses := rfl
@[simp] theorem placeByte_trap (s : State) (a : Nat) (v : Byte) : (s.placeByte a v).trap = s.trap := rfl
@[simp] theorem placeByte_draws (s : State) (a : Nat) (v : Byte) : (s.placeByte a v).draws = s.draws := rfl
@[simp] theorem placeByte_events (s : State) (a : Nat) (v : Byte) : (s.placeByte a v).events = s.events := rfl

/-! ### `countAccess` -/

@[simp] theorem countAccess_cfg (s : State) : (s.countAccess).cfg = s.cfg := rfl
@[simp] theorem countAccess_curMode (s : State) : (s.countAccess).curMode = s.curMode := rfl
@[simp] theorem countAccess_hEn (s : State) : (s.countAccess).hEn = s.hEn := rfl
@[simp] theorem countAccess_xregs (s : State) : (s.countAccess).xregs = s.xregs := rfl
@[simp] theorem countAccess_pc (s : State) : (s.countAccess).pc = s.pc := rfl
@[simp] theorem countAccess_mcmo (s : State) : (s.countAccess).mcmo = s.mcmo := rfl
@[simp] theorem countAccess_scmo (s : State) : (s.countAccess).scmo = s.scmo := rfl
@[simp] theorem countAccess_hcmo (s : State) : (s.countAccess).hcmo = s.hcmo := rfl
@[simp] theorem countAccess_inputs (s : State) : (s.countAccess).inputs = s.inputs := rfl
@[simp] theorem countAccess_trap (s : State) : (s.countAccess).trap = s.trap := rfl
@[simp] theorem countAccess_mem (s : State) : (s.countAccess).mem = s.mem := rfl
@[simp] theorem countAccess_modified (s : State) : (s.countAccess).modified = s.modified := rfl
@[simp] theorem countAccess_pending (s : State) : (s.countAccess).pending = s.pending := rfl
@[simp] theorem countAccess_past (s : State) : (s.countAccess).past = s.past := rfl
@[simp] theorem countAccess_draws (s : State) : (s.countAccess).draws = s.draws := rfl
@[simp] theorem countAccess_events (s : State) : (s.countAccess).events = s.events := rfl
@[simp] theorem countAccess_accesses (s : State) : (s.countAccess).accesses = s.accesses + 1 := rfl

/-! ### `arrive`: what it can change is `pending`, `mem`, `past` and `draws` -/

@[simp] theorem arrive_cfg (s : State) : (s.arrive).cfg = s.cfg := by
  unfold State.arrive; split <;> rfl
@[simp] theorem arrive_curMode (s : State) : (s.arrive).curMode = s.curMode := by
  unfold State.arrive; split <;> rfl
@[simp] theorem arrive_hEn (s : State) : (s.arrive).hEn = s.hEn := by
  unfold State.arrive; split <;> rfl
@[simp] theorem arrive_xregs (s : State) : (s.arrive).xregs = s.xregs := by
  unfold State.arrive; split <;> rfl
@[simp] theorem arrive_pc (s : State) : (s.arrive).pc = s.pc := by
  unfold State.arrive; split <;> rfl
@[simp] theorem arrive_mcmo (s : State) : (s.arrive).mcmo = s.mcmo := by
  unfold State.arrive; split <;> rfl
@[simp] theorem arrive_scmo (s : State) : (s.arrive).scmo = s.scmo := by
  unfold State.arrive; split <;> rfl
@[simp] theorem arrive_hcmo (s : State) : (s.arrive).hcmo = s.hcmo := by
  unfold State.arrive; split <;> rfl
@[simp] theorem arrive_inputs (s : State) : (s.arrive).inputs = s.inputs := by
  unfold State.arrive; split <;> rfl
@[simp] theorem arrive_accesses (s : State) : (s.arrive).accesses = s.accesses := by
  unfold State.arrive; split <;> rfl
@[simp] theorem arrive_trap (s : State) : (s.arrive).trap = s.trap := by
  unfold State.arrive; split <;> rfl
@[simp] theorem arrive_modified (s : State) : (s.arrive).modified = s.modified := by
  unfold State.arrive; split <;> rfl
@[simp] theorem arrive_events (s : State) : (s.arrive).events = s.events := by
  unfold State.arrive; split <;> rfl

/-! ### `fetched`: what it can change is `draws` -/

@[simp] theorem fetched_cfg (s : State) : (s.fetched).cfg = s.cfg := by
  unfold State.fetched; simp only; split <;> rfl
@[simp] theorem fetched_curMode (s : State) : (s.fetched).curMode = s.curMode := by
  unfold State.fetched; simp only; split <;> rfl
@[simp] theorem fetched_hEn (s : State) : (s.fetched).hEn = s.hEn := by
  unfold State.fetched; simp only; split <;> rfl
@[simp] theorem fetched_xregs (s : State) : (s.fetched).xregs = s.xregs := by
  unfold State.fetched; simp only; split <;> rfl
@[simp] theorem fetched_pc (s : State) : (s.fetched).pc = s.pc := by
  unfold State.fetched; simp only; split <;> rfl
@[simp] theorem fetched_mcmo (s : State) : (s.fetched).mcmo = s.mcmo := by
  unfold State.fetched; simp only; split <;> rfl
@[simp] theorem fetched_scmo (s : State) : (s.fetched).scmo = s.scmo := by
  unfold State.fetched; simp only; split <;> rfl
@[simp] theorem fetched_hcmo (s : State) : (s.fetched).hcmo = s.hcmo := by
  unfold State.fetched; simp only; split <;> rfl
@[simp] theorem fetched_inputs (s : State) : (s.fetched).inputs = s.inputs := by
  unfold State.fetched; simp only; split <;> rfl
@[simp] theorem fetched_accesses (s : State) : (s.fetched).accesses = s.accesses := by
  unfold State.fetched; simp only; split <;> rfl
@[simp] theorem fetched_trap (s : State) : (s.fetched).trap = s.trap := by
  unfold State.fetched; simp only; split <;> rfl
@[simp] theorem fetched_mem (s : State) : (s.fetched).mem = s.mem := by
  unfold State.fetched; simp only; split <;> rfl
@[simp] theorem fetched_modified (s : State) : (s.fetched).modified = s.modified := by
  unfold State.fetched; simp only; split <;> rfl
@[simp] theorem fetched_pending (s : State) : (s.fetched).pending = s.pending := by
  unfold State.fetched; simp only; split <;> rfl
@[simp] theorem fetched_past (s : State) : (s.fetched).past = s.past := by
  unfold State.fetched; simp only; split <;> rfl
@[simp] theorem fetched_events (s : State) : (s.fetched).events = s.events := by
  unfold State.fetched; simp only; split <;> rfl

/-! ### `beforeExec` -/

@[simp] theorem beforeExec_cfg (s : State) : (s.beforeExec).cfg = s.cfg := by
  simp [State.beforeExec]
@[simp] theorem beforeExec_curMode (s : State) : (s.beforeExec).curMode = s.curMode := by
  simp [State.beforeExec]
@[simp] theorem beforeExec_hEn (s : State) : (s.beforeExec).hEn = s.hEn := by
  simp [State.beforeExec]
@[simp] theorem beforeExec_xregs (s : State) : (s.beforeExec).xregs = s.xregs := by
  simp [State.beforeExec]
@[simp] theorem beforeExec_pc (s : State) : (s.beforeExec).pc = s.pc := by
  simp [State.beforeExec]
@[simp] theorem beforeExec_mcmo (s : State) : (s.beforeExec).mcmo = s.mcmo := by
  simp [State.beforeExec]
@[simp] theorem beforeExec_scmo (s : State) : (s.beforeExec).scmo = s.scmo := by
  simp [State.beforeExec]
@[simp] theorem beforeExec_hcmo (s : State) : (s.beforeExec).hcmo = s.hcmo := by
  simp [State.beforeExec]
@[simp] theorem beforeExec_inputs (s : State) : (s.beforeExec).inputs = s.inputs := by
  simp [State.beforeExec]
@[simp] theorem beforeExec_accesses (s : State) : (s.beforeExec).accesses = s.accesses := by
  simp [State.beforeExec]
@[simp] theorem beforeExec_trap (s : State) : (s.beforeExec).trap = s.trap := by
  simp [State.beforeExec]
@[simp] theorem beforeExec_modified (s : State) : (s.beforeExec).modified = s.modified := by
  simp [State.beforeExec]
@[simp] theorem beforeExec_events (s : State) : (s.beforeExec).events = s.events := by
  simp [State.beforeExec]

/-! ### The fields the cache-block operations change -/

theorem updateBlock_pending (s : State) (a : Word) : (s.updateBlock a).pending =
    Memory.writeAll (s.modifiedIn a) s.pending := rfl
theorem updateBlock_modified (s : State) (a : Word) :
    (s.updateBlock a).modified = Memory.dropWhere (inBlock s.cfg a) s.modified := rfl
theorem invalidateBlock_modified (s : State) (a : Word) : (s.invalidateBlock a).modified =
    Memory.dropWhere (fun b => inBlock s.cfg a b && Config.exposesStale s.draws b) s.modified := rfl
theorem zeroBlock_modified (s : State) (a : Word) : (s.zeroBlock a).modified =
    (blockAddresses s.cfg a).foldl (fun md b => cacheByte s.stored md b 0) s.modified := rfl

end Sys2Proof.Machine
end

