-- ==== Sys2Proof/Laws/Ops.lean ====
section
/-! SUPPORT. What the shared operations do, said once each: `XLEN`-bit values, registers, the control registers and
`legalize`, what a read finds after a cache-block operation, and what `raise` can answer. -/

namespace Sys2Proof.Machine

/-! ### `XLEN`-bit values -/

theorem trunc_toNat (c : Config) (v : Word) : (trunc c v).toNat = v.toNat % 2 ^ c.xlen.bits := by
  unfold trunc Xlen.bits
  cases c.xlen
  · simp only [BitVec.toNat_setWidth]
    omega
  · have := v.isLt
    simp only
    omega

theorem trunc_fits (c : Config) (v : Word) : fits c (trunc c v) := by
  unfold fits
  rw [trunc_toNat]
  exact Nat.mod_lt _ (Nat.two_pow_pos _)

theorem trunc_of_fits (c : Config) (v : Word) (h : fits c v) : trunc c v = v := by
  apply BitVec.eq_of_toNat_eq
  rw [trunc_toNat, Nat.mod_eq_of_lt h]

@[simp] theorem trunc_trunc (c : Config) (v : Word) : trunc c (trunc c v) = trunc c v :=
  trunc_of_fits c _ (trunc_fits c v)

@[simp] theorem trunc_zero (c : Config) : trunc c 0#64 = 0#64 := by
  apply trunc_of_fits
  exact Nat.two_pow_pos _

theorem trunc_getLsbD (c : Config) (v : Word) (j : Nat) :
    (trunc c v).getLsbD j = (decide (j < c.xlen.bits) && v.getLsbD j) := by
  unfold trunc Xlen.bits
  cases c.xlen
  · simp only [BitVec.getLsbD_setWidth]
    by_cases h : j < 32
    · have : j < 64 := by omega
      simp [h, this]
    · simp [h]
  · by_cases h : j < 64
    · simp [h]
    · simp [h, BitVec.getLsbD_of_ge v j (by omega)]

/-- The low `XLEN` bits of an OR of `XLEN`-bit values are the OR (R97). -/
theorem trunc_or_fits (c : Config) (v w : Word) (hv : trunc c v = v) (hw : trunc c w = w) :
    trunc c (v ||| w) = v ||| w := by
  apply BitVec.eq_of_getLsbD_eq
  intro j hj
  rw [trunc_getLsbD, BitVec.getLsbD_or, ← hv, ← hw, trunc_getLsbD, trunc_getLsbD]
  cases decide (j < c.xlen.bits) <;> simp

/-- The same of an AND with anything (R97). -/
theorem trunc_and_fits (c : Config) (v w : Word) (hv : trunc c v = v) : trunc c (v &&& w) = v &&& w := by
  apply BitVec.eq_of_getLsbD_eq
  intro j hj
  rw [trunc_getLsbD, BitVec.getLsbD_and, ← hv, trunc_getLsbD]
  cases decide (j < c.xlen.bits) <;> simp

@[simp] theorem packCsr_trunc (c : Config) (v : CmoCsr) : trunc c (packCsr c v) = packCsr c v := by
  unfold packCsr
  split <;> exact trunc_trunc c _

/-- `pc + 4` of a code address is a code address (R26). -/
theorem trunc_add_four_aligned (c : Config) (v : Word) (h : v.toNat % 4 = 0) : codeAddress c (trunc c (v + 4)) := by
  refine ⟨trunc_fits c _, ?_⟩
  rw [trunc_toNat, BitVec.toNat_add]
  unfold Xlen.bits
  cases c.xlen
  · show (v.toNat + 4) % 18446744073709551616 % 4294967296 % 4 = 0
    omega
  · show (v.toNat + 4) % 18446744073709551616 % 18446744073709551616 % 4 = 0
    omega

theorem instrInfo_fits (c : Config) (i : Instr) : fits c (instrInfo c i) := by
  unfold fits instrInfo
  cases c.tvalIllegal
  · have h := (encode i).isLt
    simp only [BitVec.toNat_setWidth]
    rw [Nat.mod_eq_of_lt (by omega)]
    unfold Xlen.bits
    cases c.xlen <;> simp only <;> omega
  · exact Nat.two_pow_pos _

/-! ### Registers -/

@[simp] theorem x_zero (s : State) : s.x 0#5 = 0#64 := rfl

theorem x_congr (s t : State) (i : RegNum) (hc : t.cfg = s.cfg) (hx : t.xregs = s.xregs) : t.x i = s.x i := by
  unfold State.x
  simp only [hc, hx]

@[simp] theorem x_advance (s : State) (i : RegNum) : s.advance.x i = s.x i := rfl

@[simp] theorem x_csrWrite (s : State) (r : CmoReg) (w : Word) (i : RegNum) : (s.csrWrite r w).x i = s.x i :=
  x_congr _ _ i (csrWrite_cfg ..) (csrWrite_xregs ..)

theorem x_fits (s : State) (i : RegNum) : fits s.cfg (s.x i) := by
  unfold State.x
  split
  · exact Nat.two_pow_pos _
  · exact trunc_fits _ _

@[simp] theorem x_trunc (s : State) (i : RegNum) : trunc s.cfg (s.x i) = s.x i :=
  trunc_of_fits _ _ (x_fits s i)

/-- Reading a register after a register was written: the write to `x0` is discarded (R25). -/
theorem x_setX (s : State) (i j : RegNum) (v : Word) :
    (s.setX i v).x j = if j = i ∧ i ≠ 0#5 then trunc s.cfg v else s.x j := by
  unfold State.setX
  by_cases hi : i = 0#5
  · simp [hi]
  · by_cases hj : j = i
    · subst hj
      simp [State.x, hi]
    · have hne : i.toNat ≠ j.toNat := fun e => hj (BitVec.eq_of_toNat_eq e.symm)
      simp [State.x, hi, hj, hne]

/-- A write keeps the storage of `x0` at zero. -/
theorem xregs_zero_setX (s : State) (i : RegNum) (v : Word) (h : s.xregs[0] = 0#64) : (s.setX i v).xregs[0] = 0#64 := by
  unfold State.setX
  by_cases hi : i = 0#5
  · simp [hi, h]
  · have hne : i.toNat ≠ 0 := fun e => hi (BitVec.eq_of_toNat_eq (by simpa using e))
    simp [hi, h, hne]

theorem xregs_fit_setX (s : State) (i : RegNum) (v : Word) (h : ∀ j : Fin 32, fits s.cfg s.xregs[j]) :
    ∀ j : Fin 32, fits s.cfg (s.setX i v).xregs[j] := by
  intro j
  unfold State.setX
  by_cases hi : i = 0#5
  · simpa [hi] using h j
  · by_cases hj : i.toNat = j.val
    · simpa [hi, hj] using trunc_fits s.cfg v
    · simpa [hi, hj, Vector.getElem_set] using h j

/-! ### The control registers -/

@[simp] theorem csr_setCsr_same (s : State) (r : CmoReg) (v : CmoCsr) : (s.setCsr r v).csr r = v := by
  cases r <;> rfl

theorem csr_setCsr_other (s : State) (r r' : CmoReg) (v : CmoCsr) (h : r' ≠ r) : (s.setCsr r v).csr r' = s.csr r' := by
  cases r <;> cases r' <;> first | rfl | exact absurd rfl h

theorem csr_congr (s t : State) (r : CmoReg) (hm : t.mcmo = s.mcmo) (hs : t.scmo = s.scmo) (hh : t.hcmo = s.hcmo) :
    t.csr r = s.csr r := by
  cases r
  · exact hm
  · exact hs
  · exact hh

@[simp] theorem csr_setX (s : State) (i : RegNum) (v : Word) (r : CmoReg) : (s.setX i v).csr r = s.csr r :=
  csr_congr _ _ r (setX_mcmo ..) (setX_scmo ..) (setX_hcmo ..)

@[simp] theorem csr_advance (s : State) (r : CmoReg) : s.advance.csr r = s.csr r :=
  csr_congr _ _ r rfl rfl rfl

@[simp] theorem csr_cacheOp (s : State) (k : CacheOpKind) (a : Word) (r : CmoReg) : (s.cacheOp k a).csr r = s.csr r :=
  csr_congr _ _ r (cacheOp_mcmo ..) (cacheOp_scmo ..) (cacheOp_hcmo ..)

@[simp] theorem csr_takeTrap (s : State) (k : ExceptionKind) (w : Word) (r : CmoReg) : (s.takeTrap k w).csr r = s.csr r :=
  csr_congr _ _ r (takeTrap_mcmo ..) (takeTrap_scmo ..) (takeTrap_hcmo ..)

theorem csr_csrWrite_same (s : State) (r : CmoReg) (w : Word) :
    (s.csrWrite r w).csr r = legalizedCsr s.cfg r (s.csr r) (trunc s.cfg w) :=
  csr_setCsr_same _ _ _

theorem csr_csrWrite_other (s : State) (r r' : CmoReg) (w : Word) (h : r' ≠ r) : (s.csrWrite r w).csr r' = s.csr r' :=
  csr_setCsr_other _ _ _ _ h

theorem intoSet_mem {α : Type} [BEq α] [LawfulBEq α] (l : List α) (v : α) (h : l.isEmpty = false) :
    l.contains (intoSet l v) = true := by
  unfold intoSet
  split
  · assumption
  · cases l with
    | nil => simp at h
    | cons a l => simp

theorem legalizeCbie_legal (c : Config) (r : CmoReg) (old w : BitVec 2) (h : (c.legal r).wf = true) :
    (c.legal r).cbie.contains (legalizeCbie c r old w) = true := by
  unfold legalizeCbie
  split
  · assumption
  · refine intoSet_mem _ _ ?_
    simp only [LegalSets.wf, Bool.and_eq_true, Bool.not_eq_true'] at h
    exact h.1.1.1.1.1.1.1

theorem legalSets_bit_nonempty (l : LegalSets) (f : BitField) (h : l.wf = true) : (l.bit f).isEmpty = false := by
  simp only [LegalSets.wf, Bool.and_eq_true, Bool.not_eq_true'] at h
  cases f <;> simp only [LegalSets.bit] <;> tauto

theorem legalizeBit_legal (c : Config) (r : CmoReg) (f : BitField) (old w : Bool) (h : (c.legal r).wf = true) :
    ((c.legal r).bit f).contains (legalizeBit c r f old w) = true := by
  unfold legalizeBit
  split
  · assumption
  · exact intoSet_mem _ _ (legalSets_bit_nonempty _ f h)

theorem config_legal_wf (c : Config) (r : CmoReg) (h : c.wf = true) : (c.legal r).wf = true := by
  simp only [Config.wf, Bool.and_eq_true] at h
  cases r <;> simp only [Config.legal] <;> tauto

/-- After a write every field of the register is legal, whatever was held and whatever was written (R17, R23). -/
theorem legalizedCsr_legal (c : Config) (r : CmoReg) (old : CmoCsr) (w : Word) (h : c.wf = true) :
    legalCsr c r (legalizedCsr c r old w) = true := by
  have hl := config_legal_wf c r h
  unfold legalCsr legalizedCsr
  cases c.scheme
  · simp only [Bool.and_eq_true]
    exact ⟨⟨legalizeCbie_legal c r _ _ hl, legalizeBit_legal c r .cbcfe _ _ hl⟩, legalizeBit_legal c r .cbze _ _ hl⟩
  · simp only [Bool.and_eq_true]
    exact ⟨⟨⟨legalizeBit_legal c r .invw0e _ _ hl, legalizeBit_legal c r .invw1e _ _ hl⟩,
      legalizeBit_legal c r .invw0i _ _ hl⟩, legalizeBit_legal c r .invw1i _ _ hl⟩

theorem writtenTo_legalizedCsr (c : Config) (r : CmoReg) (old : CmoCsr) (w : Word) :
    WrittenTo c r w old (legalizedCsr c r old w) := by
  unfold WrittenTo legalizedCsr
  cases c.scheme <;> simp [cbieOf, bitOf, bitPosition]

/-- `legalize` stores a legal written value as written, in every field of the scheme in force (R23, D7). -/
theorem legalizedCsr_of_legalWord (c : Config) (r : CmoReg) (old : CmoCsr) (w : Word) (h : legalWord c r w = true) :
    HoldsFieldsOf c w (legalizedCsr c r old w) := by
  unfold legalWord at h
  unfold HoldsFieldsOf legalizedCsr
  cases hs : c.scheme <;> simp only [hs, Bool.and_eq_true] at h ⊢
  · exact ⟨if_pos h.1.1, if_pos h.1.2, if_pos h.2⟩
  · exact ⟨if_pos h.1.1.1, if_pos h.1.1.2, if_pos h.1.2, if_pos h.2⟩

/-! ### What a read finds after a cache-block operation -/

theorem stored_congr (s t : State) (a : Nat) (hm : t.mem = s.mem) (hp : t.pending = s.pending) :
    t.stored a = s.stored a := by
  unfold State.stored
  rw [hm, hp]

theorem readByte_congr (s t : State) (a : Nat) (hm : t.mem = s.mem) (hp : t.pending = s.pending)
    (hd : t.modified = s.modified) : t.readByte a = s.readByte a := by
  unfold State.readByte
  rw [stored_congr s t a hm hp, hd]

@[simp] theorem readByte_advance (s : State) (a : Nat) : s.advance.readByte a = s.readByte a := rfl

@[simp] theorem readByte_record (s : State) (k : CacheOpKind) (w : Word) (a : Nat) :
    (s.record k w).readByte a = s.readByte a := rfl

theorem read_filter (p : Nat → Bool) (m : Memory) (a : Nat) :
    Memory.read (m.filter fun c => p c.1) a = if p a then Memory.read m a else none := by
  have h := memory_read_dropWhere (fun a => !p a) m a
  simp only [Memory.dropWhere, Bool.not_not] at h
  rw [h]
  cases p a <;> simp

theorem read_modifiedIn (s : State) (w : Word) (a : Nat) :
    Memory.read (s.modifiedIn w) a = if inBlock s.cfg w a then Memory.read s.modified a else none :=
  read_filter (inBlock s.cfg w) s.modified a

theorem modifiedIn_wf (s : State) (w : Word) (h : Memory.wf s.modified) : Memory.wf (s.modifiedIn w) :=
  List.Pairwise.filter _ h

/-- What is on its way to memory after a clean or a flush: in the block, the modified byte, else what was (R32 b). -/
theorem read_pending_updateBlock (s : State) (w : Word) (a : Nat) (h : Memory.wf s.modified) :
    Memory.read (s.updateBlock w).pending a =
      (if inBlock s.cfg w a then Memory.read s.modified a else none).or (Memory.read s.pending a) := by
  rw [updateBlock_pending, memory_read_writeAll _ _ _ (modifiedIn_wf s w h), read_modifiedIn]

/-- What is modified after a clean or a flush: nothing of the block, and what was outside it (R32 b). -/
theorem read_modified_updateBlock (s : State) (w : Word) (a : Nat) :
    Memory.read (s.updateBlock w).modified a = if inBlock s.cfg w a then none else Memory.read s.modified a := by
  rw [updateBlock_modified, memory_read_dropWhere]

/-- What stands below the cached copies after a clean or a flush: in the block, the modified byte (R32 b). -/
theorem stored_updateBlock (s : State) (w : Word) (a : Nat) (h : Memory.wf s.modified) :
    (s.updateBlock w).stored a = (if inBlock s.cfg w a then Memory.read s.modified a else none).or (s.stored a) := by
  unfold State.stored
  rw [read_pending_updateBlock s w a h, updateBlock_mem, Option.or_assoc]

/-- Clean and flush change no value read (R33). -/
theorem readByte_updateBlock (s : State) (w : Word) (a : Nat) (h : Memory.wf s.modified) :
    (s.updateBlock w).readByte a = s.readByte a := by
  unfold State.readByte
  rw [stored_updateBlock s w a h, read_modified_updateBlock]
  cases inBlock s.cfg w a <;> simp

@[simp] theorem stored_invalidateBlock (s : State) (w : Word) (a : Nat) : (s.invalidateBlock w).stored a = s.stored a := rfl

theorem readByte_invalidateBlock (s : State) (w : Word) (a : Nat) :
    (s.invalidateBlock w).readByte a =
      if inBlock s.cfg w a && Config.exposesStale s.draws a then s.stored a else s.readByte a := by
  unfold State.readByte
  rw [invalidateBlock_modified, memory_read_dropWhere, stored_invalidateBlock]
  cases inBlock s.cfg w a && Config.exposesStale s.draws a <;> simp

/-- Updates that arrive change no value read (R33, R37). -/
theorem read_arriving (s : State) (a : Nat) : Memory.read s.arriving a =
    if Config.updateArrives s.draws a then Memory.read s.pending a else none :=
  read_filter (Config.updateArrives s.draws) s.pending a

theorem arriving_wf (s : State) (h : Memory.wf s.pending) : Memory.wf s.arriving := List.Pairwise.filter _ h

/-- Between two instructions a byte on its way to memory stays on its way or reaches memory, and nothing else happens to
what memory holds (R37). -/
theorem arrive_cases (s : State) (a : Nat) (h : Memory.wf s.pending) :
    (Memory.read s.arrive.pending a = Memory.read s.pending a ∧ Memory.read s.arrive.mem a = Memory.read s.mem a) ∨
      (∃ v, Memory.read s.pending a = some v ∧ Memory.read s.arrive.pending a = none ∧
        Memory.read s.arrive.mem a = some v) := by
  unfold State.arrive
  split
  · exact Or.inl ⟨rfl, rfl⟩
  · simp only
    rw [memory_read_dropWhere, memory_read_writeAll _ _ _ (arriving_wf s h), read_arriving]
    cases Config.updateArrives s.draws a
    · exact Or.inl ⟨by simp, by simp⟩
    · cases hp : Memory.read s.pending a with
      | none => exact Or.inl ⟨by simp, by simp⟩
      | some v => exact Or.inr ⟨v, rfl, by simp, by simp⟩

theorem stored_arrive (s : State) (a : Nat) (h : Memory.wf s.pending) : s.arrive.stored a = s.stored a := by
  unfold State.stored
  rcases arrive_cases s a h with ⟨hp, hm⟩ | ⟨v, hv, hp, hm⟩
  · rw [hp, hm]
  · rw [hp, hm, hv]
    rfl

theorem readByte_arrive (s : State) (a : Nat) (h : Memory.wf s.pending) : s.arrive.readByte a = s.readByte a := by
  unfold State.readByte
  rw [arrive_modified, stored_arrive s a h]

theorem stored_beforeExec (s : State) (a : Nat) (h : Memory.wf s.pending) : s.beforeExec.stored a = s.stored a :=
  (stored_congr _ _ a (fetched_mem _) (fetched_pending _)).trans (stored_arrive s a h)

theorem readByte_beforeExec (s : State) (a : Nat) (h : Memory.wf s.pending) : s.beforeExec.readByte a = s.readByte a :=
  (readByte_congr _ _ a (fetched_mem _) (fetched_pending _) (fetched_modified _)).trans (readByte_arrive s a h)

/-- What a cached copy and what stands below it give for a byte together. -/
theorem overlay_cacheByte (below : Nat → Option Byte) (md : Memory) (a b : Nat) (v : Byte) :
    (Memory.read (cacheByte below md a v) b).or (below b) =
      if b = a then some v else (Memory.read md b).or (below b) := by
  unfold cacheByte
  by_cases h : below a = some v
  · rw [if_pos h, memory_read_dropWhere]
    by_cases hb : b = a
    · subst hb
      simp [h]
    · simp [hb]
  · rw [if_neg h, memory_read_write]
    by_cases hb : b = a <;> simp [hb]

theorem overlay_zero (below : Nat → Option Byte) (as : List Nat) (md : Memory) (b : Nat) :
    (Memory.read (as.foldl (fun md a => cacheByte below md a 0) md) b).or (below b) =
      if b ∈ as then some 0 else (Memory.read md b).or (below b) := by
  induction as generalizing md with
  | nil => simp
  | cons a as ih =>
    rw [List.foldl_cons, ih]
    by_cases hb : b ∈ as
    · simp [hb]
    · rw [if_neg hb, overlay_cacheByte]
      by_cases ha : b = a <;> simp [ha, hb]

theorem mem_blockAddresses (c : Config) (w : Word) (a : Nat) (h : 0 < c.cacheBlockBytes) :
    a ∈ blockAddresses c w ↔ inBlock c w a = true := by
  unfold blockAddresses inBlock
  simp only [List.mem_map, List.mem_range, beq_iff_eq]
  generalize w.toNat / c.cacheBlockBytes = q
  constructor
  · rintro ⟨i, hi, rfl⟩
    rw [Nat.add_comm, Nat.add_mul_div_right _ _ h, Nat.div_eq_of_lt hi, Nat.zero_add]
  · intro hq
    refine ⟨a % c.cacheBlockBytes, Nat.mod_lt _ h, ?_⟩
    rw [← hq, Nat.mul_comm]
    exact Nat.div_add_mod a _

/-- After a zero every byte of the block reads as zero and every other byte as before (R33). -/
theorem readByte_zeroBlock (s : State) (w : Word) (a : Nat) (h : 0 < s.cfg.cacheBlockBytes) :
    (s.zeroBlock w).readByte a = if inBlock s.cfg w a then some 0 else s.readByte a := by
  have hs : (s.zeroBlock w).stored = s.stored := rfl
  unfold State.readByte
  rw [hs, zeroBlock_modified, overlay_zero]
  simp only [mem_blockAddresses _ _ _ h]

/-! ### The fetch -/

/-- A fetch finds one of the values the byte has or had (R37, N20). -/
theorem fetchByte_mem (s : State) (a : Nat) : s.fetchByte a = s.readByte a ∨ s.fetchByte a ∈ s.fetchChoices a := by
  unfold State.fetchByte
  split
  · exact Or.inl rfl
  · rw [List.getD_eq_getElem?_getD]
    cases h : (s.readByte a :: s.fetchChoices a)[Config.fetchSees s.draws a % ((s.fetchChoices a).length + 1)]? with
    | none => exact Or.inl rfl
    | some v => exact List.mem_cons.mp (List.mem_of_getElem? h)

/-- A byte that nothing has changed is fetched as a read finds it. -/
theorem fetchByte_settled (s : State) (a : Nat) (h : s.fetchSettled a = true) : s.fetchByte a = s.readByte a := if_pos h

theorem fetchSettled_of_plain (s : State) (a : Nat) (hp : Memory.read s.pending a = none)
    (hd : Memory.read s.modified a = none) (hq : ∀ c ∈ s.past, c.1 ≠ a) : s.fetchSettled a = true := by
  have hf : s.past.filter (fun c => c.1 == a) = [] := by
    rw [List.filter_eq_nil_iff]
    intro c hc
    simpa using hq c hc
  simp [State.fetchSettled, State.fetchChoices, State.readByte, State.stored, hp, hd, hf]

/-! ### Exceptions -/

/-- What an outcome with a changed state was. -/
theorem mapNext_next (f : State → State) (o : Host.Outcome State Fault Refusal) (t : State) (h : mapNext f o = .next t) :
    ∃ u, o = .next u ∧ t = f u := by
  cases o with
  | next u =>
    cases h
    exact ⟨u, rfl, rfl⟩
  | fault r => cases h
  | refused r => cases h

/-- `raise` either stops with the trap or enters it (R104, R105). -/
theorem raise_cases (k : ExceptionKind) (info : Word) (s : State) :
    (s.cfg.trapModel = .terminal ∧ raise k info s = .fault (.trap k info s.pc)) ∨
      (s.cfg.trapModel = .entry ∧ raise k info s = .next (s.takeTrap k info)) := by
  unfold raise
  cases s.cfg.trapModel
  · exact Or.inl ⟨rfl, rfl⟩
  · exact Or.inr ⟨rfl, rfl⟩

theorem raise_next (k : ExceptionKind) (info : Word) (s t : State) (h : raise k info s = .next t) :
    s.cfg.trapModel = .entry ∧ t = s.takeTrap k info := by
  rcases raise_cases k info s with ⟨_, e⟩ | ⟨hm, e⟩
  · rw [e] at h
    cases h
  · rw [e] at h
    cases h
    exact ⟨hm, rfl⟩

theorem causeCode_lt (k : FaultKind) (e : ExceptionKind) : causeCode k e < 32 := by
  cases k <;> cases e <;> decide

/-- The level an entry goes to decides the mode after it (R105). -/
theorem takeTrap_cases (s : State) (k : ExceptionKind) (info : Word) :
    (s.trapLevel k = .m ∧ s.takeTrap k info = s.enterM k info) ∨
      (s.trapLevel k = .hs ∧ s.takeTrap k info = s.enterHs k info) ∨
      (s.trapLevel k = .vs ∧ s.takeTrap k info = s.enterVs k info) := by
  unfold State.takeTrap
  cases s.trapLevel k
  · exact Or.inl ⟨rfl, rfl⟩
  · exact Or.inr (Or.inl ⟨rfl, rfl⟩)
  · exact Or.inr (Or.inr ⟨rfl, rfl⟩)

/-- A trap enters VS from a virtualised mode only, and never for a guest-page fault (R107). -/
theorem trapLevel_vs (s : State) (k : ExceptionKind) (h : s.trapLevel k = .vs) :
    s.curMode.virtualised = true ∧ k ≠ .guestPageFault := by
  unfold State.trapLevel at h
  split at h
  · cases h
  · split at h
    · rename_i hv
      exact ⟨hv.1, hv.2.1⟩
    · cases h

end Sys2Proof.Machine
end

