-- ==== Sys2Proof/Laws/Exec.lean ====
section
/-! SUPPORT. What an instruction can do, said once: if it answers a next state, it recorded a cache-block operation, took an
exception, or accessed a control register. Whole-machine facts cite this instead of unfolding the ten meanings. -/

namespace Sys2Proof.Machine

/-- The three ways an instruction gives a next state. -/
inductive Effect (s t : State) : Prop where
  /-- A cache-block instruction executed (R53 to R56, R85). -/
  | cacheOp (kind : CacheOpKind) (rs1 : RegNum) (h : t = (s.cacheOp kind (s.x rs1)).advance)
  /-- `CBO.INVAL` executed under scheme B, which was one access (R71, R85). -/
  | access (kind : CacheOpKind) (rs1 : RegNum) (h : t = (s.cacheOp kind (s.x rs1)).advance.countAccess)
  /-- An exception was taken (R104, R105). -/
  | trap (k : ExceptionKind) (info : Word) (hm : s.cfg.trapModel = .entry) (hi : fits s.cfg info)
      (h : t = s.takeTrap k info)
  /-- The same in an access under scheme B. -/
  | accessTrap (k : ExceptionKind) (info : Word) (hm : s.cfg.trapModel = .entry) (hi : fits s.cfg info)
      (h : t = (s.takeTrap k info).countAccess)
  /-- A control register was read and not written (R92, R93, R95, R96). -/
  | csrRead (r : CmoReg) (rd : RegNum) (ha : s.checkAccess r = none) (h : t = (s.setX rd (s.csrRead r)).advance)
  /-- A control register was read and written (R91 to R96). -/
  | csrWrite (r : CmoReg) (rd : RegNum) (w : Word) (ha : s.checkAccess r = none)
      (h : t = ((s.csrWrite r w).setX rd (s.csrRead r)).advance)

theorem raise_effect (k : ExceptionKind) (info : Word) (s t : State) (hi : fits s.cfg info)
    (h : raise k info s = .next t) : Effect s t := by
  obtain ⟨hm, ht⟩ := raise_next k info s t h
  exact .trap k info hm hi ht

theorem completeCacheOp_effect (kind : CacheOpKind) (rs1 : RegNum) (s t : State)
    (h : completeCacheOp kind rs1 s = .next t) : Effect s t := by
  cases h
  exact .cacheOp kind rs1 rfl

theorem gatedCacheOp_effect (field : CmoCsr → Bool) (kind : CacheOpKind) (i : Instr) (rs1 : RegNum) (s t : State)
    (h : gatedCacheOp field kind i rs1 s = .next t) : Effect s t := by
  unfold gatedCacheOp at h
  split at h
  · cases h
  · split at h
    · exact completeCacheOp_effect _ _ _ _ h
    · exact raise_effect _ _ _ _ (instrInfo_fits _ _) h

theorem invalSchemeA_effect (i : Instr) (rs1 : RegNum) (s t : State)
    (h : invalSchemeA i rs1 s = .next t) : Effect s t := by
  unfold invalSchemeA at h
  split at h
  · cases h
  · split at h
    · exact raise_effect _ _ _ _ (instrInfo_fits _ _) h
    · split at h
      · cases h
      · split at h <;> exact completeCacheOp_effect _ _ _ _ h

theorem invalSchemeB_effect (rs1 : RegNum) (s t : State) (h : invalSchemeB rs1 s = .next t) : Effect s t := by
  unfold invalSchemeB at h
  split at h
  · cases h
  · obtain ⟨u, hu, rfl⟩ := mapNext_next _ _ _ h
    split at hu
    · obtain ⟨hm, rfl⟩ := raise_next _ _ _ _ hu
      exact .accessTrap _ _ hm (x_fits s rs1) rfl
    · cases hu
      exact .access _ rs1 rfl

theorem csrAccess_effect (i : Instr) (csr : CsrNum) (rd : RegNum) (form : Word → Option Word) (s t : State)
    (h : csrAccess i csr rd form s = .next t) : Effect s t := by
  unfold csrAccess at h
  split at h
  · cases h
  · split at h
    · exact raise_effect _ _ _ _ (instrInfo_fits _ _) h
    · rename_i ha
      split at h <;> cases h
      · exact .csrRead _ rd ha rfl
      · exact .csrWrite _ rd _ ha rfl

/-- What an instruction can do. -/
theorem exec_effect (i : Instr) (s t : State) (h : exec i s = .next t) : Effect s t := by
  cases i with
  | cboInval rs1 =>
    unfold exec execCboInval at h
    simp only at h
    split at h
    · exact invalSchemeA_effect _ _ _ _ h
    · exact invalSchemeB_effect _ _ _ h
  | cboClean rs1 =>
    unfold exec execCboClean at h
    simp only at h
    split at h
    · exact gatedCacheOp_effect _ _ _ _ _ _ h
    · cases h
  | cboFlush rs1 =>
    unfold exec execCboFlush at h
    simp only at h
    split at h
    · exact gatedCacheOp_effect _ _ _ _ _ _ h
    · cases h
  | cboZero rs1 =>
    unfold exec execCboZero at h
    simp only at h
    split at h
    · exact gatedCacheOp_effect _ _ _ _ _ _ h
    · cases h
  | csrrw rd csr rs1 => exact csrAccess_effect (.csrrw rd csr rs1) csr rd (writeForm (s.regOperand rs1)) s t h
  | csrrs rd csr rs1 => exact csrAccess_effect _ _ _ _ _ _ h
  | csrrc rd csr rs1 => exact csrAccess_effect _ _ _ _ _ _ h
  | csrrwi rd csr uimm => exact csrAccess_effect (.csrrwi rd csr uimm) csr rd (writeForm (immOperand uimm)) s t h
  | csrrsi rd csr uimm => exact csrAccess_effect _ _ _ _ _ _ h
  | csrrci rd csr uimm => exact csrAccess_effect _ _ _ _ _ _ h

/-- A step that answers a next state executed an instruction, at an aligned pc, in the state `beforeExec`. -/
theorem step_next (s t : State) (h : step s = .next t) : s.pc.toNat % 4 = 0 ∧ ∃ i, exec i s.beforeExec = .next t := by
  unfold step at h
  split at h
  · cases h
  · rename_i hp
    split at h
    · cases h
    · split at h
      · cases h
      · exact ⟨by omega, _, h⟩

/-- Each of the six CSR instructions is the common shape `csrAccess` over its own form (R91 to R96). -/
theorem exec_csr (i : Instr) (csr : CsrNum) (s : State) (h : i.csr? = some csr) :
    ∃ rd form, exec i s = csrAccess i csr rd form s := by
  cases i with
  | cboInval rs1 => cases h
  | cboClean rs1 => cases h
  | cboFlush rs1 => cases h
  | cboZero rs1 => cases h
  | csrrw rd c rs1 =>
    cases h
    exact ⟨rd, writeForm (s.regOperand rs1), rfl⟩
  | csrrs rd c rs1 =>
    cases h
    exact ⟨rd, setForm rs1 (s.regOperand rs1), rfl⟩
  | csrrc rd c rs1 =>
    cases h
    exact ⟨rd, clearForm rs1 (s.regOperand rs1), rfl⟩
  | csrrwi rd c uimm =>
    cases h
    exact ⟨rd, writeForm (immOperand uimm), rfl⟩
  | csrrsi rd c uimm =>
    cases h
    exact ⟨rd, setForm uimm (immOperand uimm), rfl⟩
  | csrrci rd c uimm =>
    cases h
    exact ⟨rd, clearForm uimm (immOperand uimm), rfl⟩

/-- The access check passes exactly where the access is allowed (R29, R90). -/
theorem checkAccess_none (s : State) (r : CmoReg) : s.checkAccess r = none ↔ AccessAllowed s r := by
  cases r <;> cases hp : s.hPresent <;> cases hc : s.curMode <;>
    simp [State.checkAccess, AccessAllowed, accessAllowed, hp, hc]

/-! ### The registers that govern a mode -/

/-- The registers of a list are read as stored if each of them is present (R60). -/
theorem csrs?_of_present (s : State) (rs : List CmoReg) (h : .h ∈ rs → s.hPresent = true) :
    s.csrs? rs = some (rs.map s.csr) := by
  induction rs with
  | nil => rfl
  | cons r rs ih =>
    have ih := ih fun hm => h (List.mem_cons_of_mem _ hm)
    have hr : s.csr? r = some (s.csr r) := by
      cases r
      · rfl
      · rfl
      · simp [State.csr?, State.csr, h]
    simp [State.csrs?, ih, hr]

/-- In a mode of the hart the governing registers are read as stored (R50, R60). -/
theorem governors_of_mode (s : State) (h : s.curMode.virtualised = true → s.hPresent = true) :
    s.governors = some ((governing s.curMode).map s.csr) := by
  refine csrs?_of_present s _ fun hm => h ?_
  cases hc : s.curMode <;> simp [governing, hc] at hm <;> rfl

end Sys2Proof.Machine
end

