-- ==== Sys2Proof/Laws/PerInstr.lean ====
section
/-! SUPPORT. Families of facts about the instructions as syntax, one lemma per constructor. -/

namespace Sys2Proof.Laws

/-- The word a cache-block row fixes, whatever `rs1` is (R42). -/
theorem cacheBlock_pattern (imm : BitVec 12) (rs1 : BitVec 5) :
    encodeIType imm rs1 0b010 0 opMiscMem &&& 0xFFF07FFF#32 = encodeIType imm 0 0b010 0 opMiscMem := by
  rw [and_cacheBlock_mask, fieldImm12_encodeIType, fieldFunct3_encodeIType, fieldRd_encodeIType, fieldOpcode_encodeIType]

/-- The word a CSR row fixes, whatever its operands are (R43). -/
theorem csr_pattern (csr : BitVec 12) (rs1 : BitVec 5) (f3 : BitVec 3) (rd : BitVec 5) :
    encodeIType csr rs1 f3 rd opSystem &&& 0x0000707F#32 = encodeIType 0 0 f3 0 opSystem := by
  rw [and_csr_mask, fieldFunct3_encodeIType, fieldOpcode_encodeIType]

namespace EncodesItsRow

/-- The encoded word matches the instruction's own row of spec/opcode_table.json. -/
def Statement (i : Instr) : Prop :=
  ∃ row ∈ opcodeTable, row.mnemonic = mnemonicOf i ∧ encode i &&& row.mask = row.pattern

theorem cboInval (rs1 : RegNum) : Statement (.cboInval rs1) :=
  ⟨⟨"cbo.inval", 0xFFF07FFF, 0x0000200F⟩, by decide, rfl, (cacheBlock_pattern 0 rs1).trans (by decide)⟩

theorem cboClean (rs1 : RegNum) : Statement (.cboClean rs1) :=
  ⟨⟨"cbo.clean", 0xFFF07FFF, 0x0010200F⟩, by decide, rfl, (cacheBlock_pattern 1 rs1).trans (by decide)⟩

theorem cboFlush (rs1 : RegNum) : Statement (.cboFlush rs1) :=
  ⟨⟨"cbo.flush", 0xFFF07FFF, 0x0020200F⟩, by decide, rfl, (cacheBlock_pattern 2 rs1).trans (by decide)⟩

theorem cboZero (rs1 : RegNum) : Statement (.cboZero rs1) :=
  ⟨⟨"cbo.zero", 0xFFF07FFF, 0x0040200F⟩, by decide, rfl, (cacheBlock_pattern 4 rs1).trans (by decide)⟩

theorem csrrw (rd : RegNum) (csr : CsrNum) (rs1 : RegNum) : Statement (.csrrw rd csr rs1) :=
  ⟨⟨"csrrw", 0x0000707F, 0x00001073⟩, by decide, rfl, (csr_pattern csr rs1 0b001 rd).trans (by decide)⟩

theorem csrrs (rd : RegNum) (csr : CsrNum) (rs1 : RegNum) : Statement (.csrrs rd csr rs1) :=
  ⟨⟨"csrrs", 0x0000707F, 0x00002073⟩, by decide, rfl, (csr_pattern csr rs1 0b010 rd).trans (by decide)⟩

theorem csrrc (rd : RegNum) (csr : CsrNum) (rs1 : RegNum) : Statement (.csrrc rd csr rs1) :=
  ⟨⟨"csrrc", 0x0000707F, 0x00003073⟩, by decide, rfl, (csr_pattern csr rs1 0b011 rd).trans (by decide)⟩

theorem csrrwi (rd : RegNum) (csr : CsrNum) (uimm : BitVec 5) : Statement (.csrrwi rd csr uimm) :=
  ⟨⟨"csrrwi", 0x0000707F, 0x00005073⟩, by decide, rfl, (csr_pattern csr uimm 0b101 rd).trans (by decide)⟩

theorem csrrsi (rd : RegNum) (csr : CsrNum) (uimm : BitVec 5) : Statement (.csrrsi rd csr uimm) :=
  ⟨⟨"csrrsi", 0x0000707F, 0x00006073⟩, by decide, rfl, (csr_pattern csr uimm 0b110 rd).trans (by decide)⟩

theorem csrrci (rd : RegNum) (csr : CsrNum) (uimm : BitVec 5) : Statement (.csrrci rd csr uimm) :=
  ⟨⟨"csrrci", 0x0000707F, 0x00007073⟩, by decide, rfl, (csr_pattern csr uimm 0b111 rd).trans (by decide)⟩

end EncodesItsRow

end Sys2Proof.Laws
end

