-- ==== Sys2Proof/Machine/Flags.lean ====
section
/-! DEFINITION. There is no flag to compute: the document names no status flag, condition code or predicate, and no rule
writes one (R27). `State` has no flag, and every instruction rule's "flags written" line is "none" (R53 to R56, R85, R91 to
R96). This file stands for that rule. -/
end

