-- ==== Sys2Proof/Tests/Slice0.lean ====
section
/-! SUPPORT. The model's own tests, and for every statement with premises a witness that meets them all together. Words and
expected values are those of 95_test_vectors.md and of the examples in the rules; the comment of a test names its source. -/

namespace Sys2Proof.Tests

open Sys2Proof Sys2Proof.Machine

/-! ### Well-formedness (R44, R47) -/

theorem test_wellFormed_csrrw : Instr.wellFormed Config.standard (.csrrw 1 0x300 2) = false := by decide
theorem test_wellFormed_csrrs : Instr.wellFormed Config.standard (.csrrs 1 0x30B 2) = false := by decide
theorem test_wellFormed_csrrc : Instr.wellFormed Config.standard (.csrrc 1 0x000 2) = false := by decide
theorem test_wellFormed_csrrwi : Instr.wellFormed Config.standard (.csrrwi 1 0x109 2) = false := by decide
theorem test_wellFormed_csrrsi : Instr.wellFormed Config.standard (.csrrsi 1 0x60B 2) = false := by decide
theorem test_wellFormed_csrrci : Instr.wellFormed Config.standard (.csrrci 1 0xFFF 2) = false := by decide
theorem test_wellFormed_three_registers :
    [0x30A, 0x10A, 0x60A].all (fun csr => Instr.wellFormed Config.standard (.csrrw 1 csr 2)) = true := by decide

/-! ### Configuration checks (R3, R40): each refuses a configuration that breaks it -/

theorem test_config_standard : Config.standard.wf = true := by decide
theorem test_config_reserved_cbie :
    { Config.standard with legalM := { LegalSets.everyValue with cbie := [0b00, 0b10] } }.wf = false := by decide
theorem test_config_empty_legal_set :
    { Config.standard with legalS := { LegalSets.everyValue with cbze := [] } }.wf = false := by decide
theorem test_config_overlapping_fields :
    { Config.standard with pos := { Config.standard.pos with cbcfe := 5 } }.wf = false := by decide
theorem test_config_field_beyond_xlen :
    { Config.standard with xlen := .x32, pos := { Config.standard.pos with cbze := 32 } }.wf = false := by decide
theorem test_config_equal_csr_numbers : { Config.standard with addrS := 0x30A }.wf = false := by decide
theorem test_config_block_size : { Config.standard with cacheBlockBytes := 48 }.wf = false := by decide
theorem test_config_reset_pc : { Config.standard with resetPc := 0x80000002 }.wf = false := by decide

/-! ### Decoding: words of table T8, and words written out from R42 and R43 -/

theorem test_decode_cboInval : decode 0x0005200F = .ok (.cboInval 10) := by rfl
theorem test_decode_cboClean : decode 0x0015200F = .ok (.cboClean 10) := by rfl
theorem test_decode_cboFlush : decode 0x0025200F = .ok (.cboFlush 10) := by rfl
theorem test_decode_cboZero : decode 0x0045200F = .ok (.cboZero 10) := by rfl
theorem test_decode_csrrw : decode 0x30A295F3 = .ok (.csrrw 11 0x30A 5) := by rfl
theorem test_decode_csrrs : decode 0x60A026F3 = .ok (.csrrs 13 0x60A 0) := by rfl
theorem test_decode_csrrc : decode 0x30A33073 = .ok (.csrrc 0 0x30A 6) := by rfl
theorem test_decode_csrrwi : decode 0x10A05073 = .ok (.csrrwi 0 0x10A 0) := by rfl
theorem test_decode_csrrsi : decode 0x30A86073 = .ok (.csrrsi 0 0x30A 16) := by rfl
theorem test_decode_csrrci : decode 0x30A876F3 = .ok (.csrrci 13 0x30A 16) := by rfl

/-- From R41 and R43 by hand: csr `0001_0000_1010`, rs1 `11110`, funct3 `001`, rd `00111`, opcode `1110011`. -/
theorem test_decode_fields : decode 0b000100001010_11110_001_00111_1110011 = .ok (.csrrw 7 0x10A 30) := by rfl

/-- T8: imm12 `0x003` and funct3 `001` match no row. -/
theorem test_decode_notInScope :
    decode 0x0035200F = .error .notInScope ∧ decode 0x0005100F = .error .notInScope := ⟨rfl, rfl⟩

/-- R41: `bits[1:0] ≠ 11` is no 32-bit instruction, nor is `bits[4:2] = 111`. -/
theorem test_decode_length :
    decode 0x0005200E = .error .notThirtyTwoBits ∧ decode 0x0005201F = .error .notThirtyTwoBits := ⟨rfl, rfl⟩

theorem test_decodeTableWord : decodeTableWord 32 0x0045200F = some (.cboZero 10) := by decide

/-- R42: `rd` is `00000` in a cache-block instruction. -/
theorem test_decode_cbo_rd : decode 0x0005208F = .error .notInScope := by rfl

/-! ### Small states -/

/-- The scheme A fields of a register. -/
def fields (cbie : BitVec 2) (cbcfe cbze : Bool) : CmoCsr :=
  { a := { cbie := cbie, cbcfe := cbcfe, cbze := cbze }
    b := { invw0e := false, invw1e := false, invw0i := false, invw1i := false } }

/-- A state under scheme A in a mode, with the three registers given. -/
def inMode (mode : Mode) (m s h : CmoCsr) : State :=
  { State.reset with curMode := mode, mcmo := m, scmo := s, hcmo := h }

/-- The scheme B fields of a register. -/
def invw (e0 e1 i0 i1 : Bool) : CmoCsr :=
  { a := { cbie := 0, cbcfe := false, cbze := false }, b := { invw0e := e0, invw1e := e1, invw0i := i0, invw1i := i1 } }

/-- A state under scheme B with this effective mode and these verdicts; no page table is Bare unless said. -/
def inEffMode (mode : Mode) (wPmp wS wH : Bool) (m s h : CmoCsr) : State :=
  { State.reset with
    cfg := { Config.standard with scheme := .B }
    inputs :=
      { satpBare := false, vsatpBare := false, hgatpBare := false, listed := []
        otherwise := { effMode := some mode, wPmp := wPmp, wS := wS, wH := wH, gpa := 0 } }
    mcmo := m
    scmo := s
    hcmo := h }

/-- The kinds of the operations recorded, if the outcome is a next state. -/
def kinds (o : Host.Outcome State Fault Refusal) : Option (List CacheOpKind) :=
  (nextState? o).map fun t => t.events.map fun e => e.kind

/-- The exception code the M level recorded, if the outcome is a next state in M. -/
def mcause (o : Host.Outcome State Fault Refusal) : Option Word :=
  (nextState? o).bind fun t => if t.curMode = .m then some t.trap.m.cause else none

/-! ### One step of each instruction -/

/-- T2a row 2: `cbo.inval` performs a flush although `cbo.flush` itself traps. -/
theorem test_cboInval_flushes : kinds (exec (.cboInval 10) (inMode .u (fields 0b01 false true) (fields 0b01 false true)
    (fields 0b00 false false))) = some [.flush] := by decide

/-- T5a B5: a guest-page fault, code 23. -/
theorem test_cboInval_guestPageFault : mcause (exec (.cboInval 10) (inEffMode .vu true true false (invw false true false true)
    (invw false true false false) (invw false true false true))) = some 23 := by decide

/-- The example of R54: VS, m `CBCFE` 1, h 0, s 1: illegal instruction, and `mtval` holds the word of T8. -/
theorem test_cboClean_traps : (nextState? (exec (.cboClean 10) (inMode .vs (fields 0b11 true true) (fields 0b11 true true)
    (fields 0b11 false true)))).map (fun t => (t.trap.m.cause, t.trap.m.tval)) = some (2, 0x0015200F) := by decide

/-- P2: S/HS is governed by the m-register alone. -/
theorem test_cboClean_executes : kinds (exec (.cboClean 10) (inMode .shs (fields 0b11 true true) (fields 0b00 false false)
    (fields 0b00 false false))) = some [.clean] := by decide

/-- The example of R55. -/
theorem test_cboFlush_executes : kinds (exec (.cboFlush 10) (inMode .shs (fields 0b00 true false) (fields 0b00 false false)
    (fields 0b00 false false))) = some [.flush] := by decide

/-- T2a row 4, and R86 under scheme B. -/
theorem test_cboFlush_stops :
    mcause (exec (.cboFlush 10) (inMode .vs (fields 0b01 false false) (fields 0b01 true true) (fields 0b01 false false))) =
        some 2 ∧
      refusalOf? (exec (.cboFlush 10) (inEffMode .m true true true (invw true true true true) (invw true true true true)
        (invw true true true true))) = some .noRuleUnderSchemeB := by decide

/-- The example of R56, and R33: the bytes of the block are zero. -/
theorem test_cboZero_executes : (nextState? (exec (.cboZero 0) (inMode .vu (fields 0b00 false true) (fields 0b00 false true)
    (fields 0b00 false true)))).map (fun t => (t.readByte 0, t.readByte 63, t.readByte 64)) =
      some (some 0, some 0, none) := by decide

/-- The example of R56 with one field clear. -/
theorem test_cboZero_traps : mcause (exec (.cboZero 10) (inMode .vu (fields 0b11 true true) (fields 0b11 true true)
    (fields 0b11 true false))) = some 2 := by decide

/-- T6 W2: all ones written; the word read before goes to `rd`. -/
theorem test_csrrw_all_ones : (nextState? (exec (.csrrw 11 0x30A 5) ((inMode .m (fields 0b01 true true) (fields 0 false false)
    (fields 0 false false)).setX 5 0xFFFFFFFFFFFFFFFF))).map (fun t => (t.csrRead .m, t.x 11)) =
      some (0xF0, 0xD0) := by decide

/-- T6 W14 with `rd` = `rs1`: the source is read before `rd` is written. -/
theorem test_csrrw_same_register : (nextState? (exec (.csrrw 5 0x30A 5) ((inMode .m (fields 0b01 true false)
    (fields 0 false false) (fields 0 false false)).setX 5 0xFDF))).map (fun t => (t.csrRead .m, t.x 5)) =
      some (0xD0, 0x50) := by decide

/-- T6 W4. -/
theorem test_csrrs_sets : (nextState? (exec (.csrrs 11 0x10A 5) ((inMode .vs (fields 0 false false) (fields 0b01 false false)
    (fields 0 false false)).setX 5 0x60))).map (fun t => (t.scmo.a, t.x 11)) =
      some ({ cbie := 0b11, cbcfe := true, cbze := false }, 0x10) := by decide

/-- T7: `hcmocontrol` from VS is a virtual instruction exception, code 22; `mcmocontrol` from VU is illegal. -/
theorem test_csrrs_refused_access :
    mcause (exec (.csrrs 11 0x60A 0) (inMode .vs (fields 0 false false) (fields 0 false false) (fields 0 false false))) =
        some 22 ∧
      mcause (exec (.csrrs 11 0x30A 0) (inMode .vu (fields 0 false false) (fields 0 false false) (fields 0 false false))) =
        some 2 := by decide

/-- T6 W6. -/
theorem test_csrrc_clears : (nextState? (exec (.csrrc 0 0x30A 6) ((inMode .m (fields 0b11 true true) (fields 0 false false)
    (fields 0 false false)).setX 6 0x20))).map (fun t => t.mcmo.a) =
      some { cbie := 0b01, cbcfe := true, cbze := true } := by decide

/-- R47: another CSR is no instruction of this spec. -/
theorem test_csrrc_other_csr : refusalOf? (exec (.csrrc 1 0x300 6) State.reset) = some (.csrNotInScope 0x300) := by decide

/-- T6 W12. -/
theorem test_csrrwi_zero : (nextState? (exec (.csrrwi 11 0x60A 0) (inMode .shs (fields 0 false false) (fields 0 false false)
    (fields 0b11 true true)))).map (fun t => (t.hcmo.a, t.x 11)) =
      some ({ cbie := 0b00, cbcfe := false, cbze := false }, 0xF0) := by decide

/-- T6 W10. -/
theorem test_csrrsi_sets : (nextState? (exec (.csrrsi 11 0x30A 16) (inMode .m (fields 0 false false) (fields 0 false false)
    (fields 0 false false)))).map (fun t => (t.mcmo.a, t.x 11)) =
      some ({ cbie := 0b01, cbcfe := false, cbze := false }, 0x00) := by decide

/-- T6 W13: immediate 0 writes nothing. -/
theorem test_csrrsi_zero : (nextState? (exec (.csrrsi 11 0x30A 0) (inMode .m (fields 0b01 true true) (fields 0 false false)
    (fields 0 false false)))).map (fun t => (t.csrRead .m, t.x 11)) = some (0xD0, 0xD0) := by decide

/-- R96: clearing bit 4 of `0xD0`. -/
theorem test_csrrci_clears : (nextState? (exec (.csrrci 13 0x30A 16) (inMode .m (fields 0b01 true true)
    (fields 0 false false) (fields 0 false false)))).map (fun t => (t.csrRead .m, t.x 13)) = some (0xC0, 0xD0) := by decide

/-! ### Fetch and step -/

/-- P1, third row: the word placed at the pc runs, and the pc advances. -/
theorem test_step_csrrw : (nextState? (step ((State.reset.setX 7 0x70).withFetchWord 32 0x60A39073))).map
    (fun t => (t.hcmo.a, t.pc)) = some ({ cbie := 0b11, cbcfe := true, cbze := false }, 0x80000004) := by decide

/-- Log 18: from reset with nothing placed, the first byte has no value. -/
theorem test_step_reset : faultOf? (step State.reset) = some (.unwrittenByte 0x80000000) := by decide

/-! ### Witnesses: for each statement with premises, states and operands that meet them -/

theorem witness_EncodeOfDecodeIsTheWord : decode 0xFFFFFFF3 = .ok (.csrrci 31 0xFFF 31) := by rfl

theorem witness_WordsOutsideTheSpecAreRefused :
    let s := State.reset.placeWord 0x0035200F
    let t := State.reset.placeWord 0x30029073
    (s.pc.toNat % 4 = 0 ∧ s.arrive.fetchBytes = .ok (bytesOfWord 0x0035200F) ∧
      (0x0035200F : InstrWord).extractLsb' 0 2 = 0b11#2 ∧ (0x0035200F : InstrWord).extractLsb' 2 3 ≠ 0b111#3 ∧
      ∀ row ∈ opcodeTable, (0x0035200F : InstrWord) &&& row.mask ≠ row.pattern) ∧
    (t.pc.toNat % 4 = 0 ∧ t.arrive.fetchBytes = .ok (bytesOfWord 0x30029073) ∧
      (∃ row ∈ opcodeTable.drop 4, (0x30029073 : InstrWord) &&& row.mask = row.pattern) ∧
      (0x30029073 : InstrWord).extractLsb' 20 12 ≠ t.cfg.addrM ∧ (0x30029073 : InstrWord).extractLsb' 20 12 ≠ t.cfg.addrS ∧
      (0x30029073 : InstrWord).extractLsb' 20 12 ≠ t.cfg.addrH) :=
  ⟨⟨by decide, rfl, by decide, by decide, by decide⟩, ⟨by decide, rfl, by decide, by decide, by decide, by decide⟩⟩

theorem witness_StepRunsTheDecodedInstruction :
    let s := State.reset.placeWord 0x0005200F
    s.pc.toNat % 4 = 0 ∧ s.arrive.fetchBytes = .ok [0x0F, 0x20, 0x05, 0x00] ∧
      decodeBytes [0x0F, 0x20, 0x05, 0x00] = .ok (.cboInval 10, []) :=
  ⟨by decide, rfl, rfl⟩

theorem witness_PlacedInstructionRunsNext : State.reset.pc.toNat % 4 = 0 := by decide

/-- The first byte missing, and the last byte missing. -/
theorem witness_FetchStopsByName :
    ({ State.reset with pc := 2 } : State).pc.toNat % 4 ≠ 0 ∧
    State.reset.arrive.fetchByte (State.reset.pc.toNat + 0) = none ∧
    (let s := State.reset.placeBytes 0x80000000 [0, 0, 0]
     s.pc.toNat % 4 = 0 ∧ (∀ j < 3, (s.arrive.fetchByte (s.pc.toNat + j)).isSome = true) ∧
       s.arrive.fetchByte (s.pc.toNat + 3) = none) := by
  decide

/-- VU is governed by all three registers, S/HS by one, M by none. -/
theorem witness_CboInvalTrapsFlushesOrInvalidates :
    let s0 := inMode .vu (fields 0b11 false false) (fields 0b11 false false) (fields 0b00 false false)
    let s2 := inMode .shs (fields 0b10 false false) (fields 0b00 false false) (fields 0b00 false false)
    let s1 := inMode .u (fields 0b11 false false) (fields 0b01 false false) (fields 0b00 false false)
    let s3 := inMode .vs (fields 0b11 false false) (fields 0b00 false false) (fields 0b11 false false)
    (s0.cfg.scheme = .A ∧ ModeOfHart s0 ∧ Memory.wf s0.modified ∧ ∃ r ∈ governing s0.curMode, (s0.csr r).a.cbie = 0b00#2) ∧
    (s2.cfg.scheme = .A ∧ ModeOfHart s2 ∧ Memory.wf s2.modified ∧ (∀ r ∈ governing s2.curMode, (s2.csr r).a.cbie ≠ 0b00#2) ∧
      ∃ r ∈ governing s2.curMode, (s2.csr r).a.cbie = 0b10#2) ∧
    (s1.cfg.scheme = .A ∧ ModeOfHart s1 ∧ Memory.wf s1.modified ∧
      (∀ r ∈ governing s1.curMode, (s1.csr r).a.cbie = 0b01#2 ∨ (s1.csr r).a.cbie = 0b11#2) ∧
      ∃ r ∈ governing s1.curMode, (s1.csr r).a.cbie = 0b01#2) ∧
    (s3.cfg.scheme = .A ∧ ModeOfHart s3 ∧ Memory.wf s3.modified ∧
      ∀ r ∈ governing s3.curMode, (s3.csr r).a.cbie = 0b11#2) := by decide

theorem witness_CboCleanExecutesOrTraps :
    let s := inMode .vu (fields 0 true false) (fields 0 true false) (fields 0 true false)
    let t := inMode .vs (fields 0 true false) (fields 0 true false) (fields 0 false false)
    (s.cfg.scheme = .A ∧ ModeOfHart s ∧ Memory.wf s.modified ∧ ∀ r ∈ governing s.curMode, (s.csr r).a.cbcfe = true) ∧
    (t.cfg.scheme = .A ∧ ModeOfHart t ∧ Memory.wf t.modified ∧ ∃ r ∈ governing t.curMode, (t.csr r).a.cbcfe = false) := by
  decide

theorem witness_CboFlushExecutesOrTraps :
    let s := inMode .u (fields 0 true false) (fields 0 true false) (fields 0 false false)
    let t := inMode .shs (fields 0 false false) (fields 0 true false) (fields 0 true false)
    (s.cfg.scheme = .A ∧ ModeOfHart s ∧ Memory.wf s.modified ∧ ∀ r ∈ governing s.curMode, (s.csr r).a.cbcfe = true) ∧
    (t.cfg.scheme = .A ∧ ModeOfHart t ∧ Memory.wf t.modified ∧ ∃ r ∈ governing t.curMode, (t.csr r).a.cbcfe = false) := by
  decide

theorem witness_CboZeroExecutesOrTraps :
    let s := inMode .vu (fields 0 false true) (fields 0 false true) (fields 0 false true)
    let t := inMode .vu (fields 0 false true) (fields 0 false false) (fields 0 false true)
    (s.cfg.scheme = .A ∧ ModeOfHart s ∧ 0 < s.cfg.cacheBlockBytes ∧ ∀ r ∈ governing s.curMode, (s.csr r).a.cbze = true) ∧
    (t.cfg.scheme = .A ∧ ModeOfHart t ∧ 0 < t.cfg.cacheBlockBytes ∧ ∃ r ∈ governing t.curMode, (t.csr r).a.cbze = false) := by
  decide

theorem witness_MachineModeExecutesEveryCacheBlockInstruction :
    let s := inMode .m (fields 0 false false) (fields 0 false false) (fields 0 false false)
    s.cfg.scheme = .A ∧ s.curMode = .m ∧ Memory.wf s.modified ∧ 0 < s.cfg.cacheBlockBytes := by decide

theorem witness_LowerModesArePermittedNoMore :
    isCacheBlockInstr (.cboInval 0) = true ∧ State.reset.cfg.scheme = .A ∧ State.reset.hPresent = true ∧
      governing .vs ⊆ governing .vu ∧ ExecutesAs State.reset .vu (.cboInval 0) .invalidate :=
  ⟨by decide, by decide, by decide, by decide, _, rfl, 0, rfl⟩

theorem witness_NonGoverningRegistersHaveNoEffect :
    let s := inMode .vs (fields 0b11 true true) (fields 0b11 true true) (fields 0b11 true true)
    isCacheBlockInstr (.cboZero 0) = true ∧ s.cfg.scheme = .A ∧ .s ∉ governing s.curMode := by decide

theorem witness_EachInstructionReadsOneField :
    let s := inMode .shs (fields 0b11 true true) (fields 0b11 true true) (fields 0b11 true true)
    s.cfg.scheme = .A ∧ (fields 0b11 false false).a.cbie = (s.csr .m).a.cbie ∧
      (fields 0b00 true false).a.cbcfe = (s.csr .m).a.cbcfe ∧ (fields 0b00 false true).a.cbze = (s.csr .m).a.cbze := by
  decide

/-- The invariant holds of `State.reset` with one word of code placed at its pc; a state it can hold of is not empty. -/
theorem reset_word_inv : Inv (State.reset.placeWord 0x30A05073) where
  config := by decide
  mode := by decide
  effInput := by
    rintro i (h | rfl) mode hm
    · cases h
    · cases hm
  legal := by
    intro r
    cases r <;> decide
  zeroReg := by decide
  regs := by decide
  pc := by decide
  trapM := by decide
  trapHs := by decide
  trapVs := by decide
  mem := by decide
  memRange := by decide
  modified := by decide
  modifiedRange := by decide
  pending := by decide
  pendingRange := by decide
  differs := by decide

theorem witness_ReservedCbieIsUnreachable :
    let s := State.reset.placeWord 0x30A05073
    Inv s ∧ s.cfg.scheme = .A := ⟨reset_word_inv, by decide⟩

/-- VU with every governing register enabling, one of them for a flush and one state for an invalidate, and a modified byte that
memory holds differently. -/
theorem witness_CleanOrFlushThenInvalidateExposesNothing :
    let state := fun cbie => { inMode .vu (fields 0b11 true false) (fields cbie true false) (fields 0b11 true false) with
      mem := [(0, 1)], modified := [(0, 2)] }
    ∀ cbie, cbie = 0b01#2 ∨ cbie = 0b11#2 →
      let s := state cbie
      s.cfg.scheme = .A ∧ ModeOfHart s ∧ Memory.wf s.modified ∧ s.readByte 0 = some 2 ∧
        (∀ r ∈ governing s.curMode, (s.csr r).a.cbcfe = true) ∧
        ∀ r ∈ governing s.curMode, (s.csr r).a.cbie = 0b01#2 ∨ (s.csr r).a.cbie = 0b11#2 := by decide

/-- One state for each clause: page fault, guest-page fault, access fault, invalidate (B6) and flush (B7). -/
theorem witness_CboInvalUnderSchemeB :
    let pf := inEffMode .vu false false false (invw false false false false) (invw false true true true)
      (invw false false false false)
    let gpf := inEffMode .vu true true false (invw false true false true) (invw false true false true)
      (invw false true true true)
    let af := inEffMode .shs false true true (invw false true true true) (invw true true true true)
      (invw true true true true)
    let inv := inEffMode .vu true true false (invw false true false true) (invw false true false true)
      (invw true false true false)
    let flush := inEffMode .vu true true false (invw false true false true) (invw false true false true)
      (invw true false false false)
    ([pf, gpf, af, inv, flush].all fun s =>
      decide (s.cfg.scheme = .B) && decide (EffModeOfHart s) && decide (Memory.wf s.modified)) = true ∧
    pf.scmo.b.invw0e = false ∧ gpf.scmo.b.invw1e = true ∧ gpf.hcmo.b.invw0e = false ∧ af.mcmo.b.invw0e = false ∧
    (inv.scmo.b.invw1e = true ∧ inv.hcmo.b.invw0e = true ∧ inv.mcmo.b.invw1e = true ∧
      inv.scmo.b.invw1i = true ∧ inv.hcmo.b.invw0i = true ∧ inv.mcmo.b.invw1i = true) ∧
    (flush.scmo.b.invw1e = true ∧ flush.hcmo.b.invw0e = true ∧ flush.mcmo.b.invw1e = true ∧
      flush.hcmo.b.invw0i = false) := by decide

theorem witness_EffectiveMachineModeAlwaysInvalidates :
    let s := inEffMode .m false false false (invw false false false false) (invw false false false false)
      (invw false false false false)
    s.cfg.scheme = .B ∧ s.effMode = .m := by decide

theorem witness_SchemeBRefusesTheOtherThree :
    (inEffMode .vu true true true (invw true true true true) (invw true true true true)
      (invw true true true true)).cfg.scheme = .B := by decide

theorem witness_UnselectedInvwBitsHaveNoEffect :
    let s := inEffMode .vu true true false (invw false true false true) (invw false true false true)
      (invw true false true false)
    s.cfg.scheme = .B ∧ s.effMode = .vu ∧ s.inputs.vsatpBare = false ∧ s.inputs.hgatpBare = false ∧ s.access.wS = true ∧
      s.access.wH = false := by decide

theorem witness_FieldsOfTheOtherSchemeHaveNoEffect :
    State.reset.cfg.scheme = .A ∧ (inEffMode .u true true true (invw true true true true) (invw true true true true)
      (invw true true true true)).cfg.scheme = .B := by decide

theorem witness_AbsentHRegisterIsNeverRead :
    let s := { State.reset with hEn := false, curMode := .u }
    s.hPresent = false ∧ ModeOfHart s ∧ EffModeOfHart s := by decide

/-- T7: an absent register, a virtual instruction exception, an illegal one from U and one of the m-register from VU, and an
access allowed. -/
theorem witness_CsrAccessCheckDecides :
    let absent := { State.reset with hEn := false }
    let vs := inMode .vs (fields 0 false false) (fields 0 false false) (fields 0 false false)
    let vu := inMode .vu (fields 0 false false) (fields 0 false false) (fields 0 false false)
    let u := inMode .u (fields 0 false false) (fields 0 false false) (fields 0 false false)
    ((Instr.csrrs 1 0x60A 0).csr? = some 0x60A ∧ absent.cfg.regOf 0x60A = some .h ∧
      absent.cfg.virtualAccess = Config.defaultVirtualAccess ∧ absent.hPresent = false) ∧
    (vs.cfg.regOf 0x60A = some .h ∧ vs.cfg.virtualAccess = Config.defaultVirtualAccess ∧ vs.hPresent = true ∧
      ¬AccessAllowed vs .h ∧ vs.curMode.virtualised = true) ∧
    (u.cfg.regOf 0x10A = some .s ∧ u.cfg.virtualAccess = Config.defaultVirtualAccess ∧ ¬AccessAllowed u .s ∧
      u.curMode.virtualised = false) ∧
    (vu.cfg.regOf 0x30A = some .m ∧ vu.cfg.virtualAccess = Config.defaultVirtualAccess ∧ ¬AccessAllowed vu .m) ∧
    (vs.cfg.regOf 0x10A = some .s ∧ AccessAllowed vs .s) := by
  simp [AccessAllowed, inMode]
  decide

/-- The access the three statements on the write, set and clear forms ask for. -/
theorem witness_CsrWriteFormsComplete : State.reset.cfg.regOf 0x30A = some .m ∧ AccessAllowed State.reset .m :=
  ⟨by decide, rfl⟩

theorem witness_CsrSetFormsComplete :
    State.reset.cfg.regOf 0x60A = some .h ∧ AccessAllowed { State.reset with curMode := .shs } .h :=
  ⟨by decide, by decide, Or.inr rfl⟩

theorem witness_CsrClearFormsComplete :
    State.reset.cfg.regOf 0x10A = some .s ∧ AccessAllowed { State.reset with curMode := .vs } .s :=
  ⟨by decide, Or.inr (Or.inr rfl)⟩

theorem witness_RegisterWordLayout :
    (Config.standard.wf = true ∧ Config.standard.scheme = .A) ∧ { Config.standard with scheme := .B }.wf = true := by decide

theorem witness_WrittenRegisterHoldsLegalValues :
    State.reset.cfg.wf = true ∧ State.reset.cfg.regOf 0x30A = some .m ∧ AccessAllowed State.reset .m ∧
      State.reset.cfg.scheme = .A := ⟨by decide, by decide, rfl, by decide⟩

/-- Under either scheme. -/
theorem witness_LegalWordReadsBackNext :
    ∀ scheme : Scheme, scheme = .A ∨ scheme = .B →
      let s := ({ State.reset with cfg := { Config.standard with scheme := scheme } } : State).setX 5 0xFDF
      s.cfg.wf = true ∧ s.cfg.regOf 0x30A = some .m ∧ AccessAllowed s .m ∧ legalWord s.cfg .m (s.x 5) = true ∧
        (11 : RegNum) ≠ 0#5 := by
  rintro _ (rfl | rfl)
  · exact ⟨by decide, by decide, rfl, by decide, by decide⟩
  · exact ⟨by decide, by decide, rfl, by decide, by decide⟩

theorem witness_SettingOrClearingNothingKeepsEveryField :
    let s := State.reset.placeWord 0x30A05073
    Inv s ∧ s.cfg.regOf 0x30A = some .m ∧ AccessAllowed s .m ∧ (5 : RegNum) ≠ 0#5 ∧ s.x 5 = 0#64 :=
  ⟨reset_word_inv, by decide, rfl, by decide, by decide⟩

theorem witness_RaiseStopsOrEntersTheTrap :
    State.reset.cfg.trapModel = .entry ∧
      ({ State.reset with cfg := { Config.standard with trapModel := .terminal } } : State).cfg.trapModel = .terminal := by
  decide

/-- A state in this mode whose delegation registers delegate everything. -/
def delegating (mode : Mode) : State :=
  { State.reset with
    curMode := mode
    trap := { State.reset.trap with medeleg := 0xFFFFFFFFFFFFFFFF, hedeleg := 0xFFFFFFFFFFFFFFFF } }

/-- S/HS itself with its `medeleg` bit set among them (log 26). -/
theorem witness_DelegationChoosesTheMode :
    State.reset.curMode = .m ∧ State.reset.trap.medeleg.getLsbD 2 = false ∧
    ((delegating .u).curMode ≠ .m ∧ (delegating .u).trap.medeleg.getLsbD 2 = true ∧
      (delegating .u).curMode.virtualised = false) ∧
    ((delegating .shs).curMode ≠ .m ∧ (delegating .shs).trap.medeleg.getLsbD 2 = true ∧
      (delegating .shs).curMode.virtualised = false) ∧
    ((delegating .vu).trap.medeleg.getLsbD 13 = true ∧ (delegating .vu).curMode.virtualised = true ∧
      (delegating .vu).trap.hedeleg.getLsbD 13 = true ∧ ExceptionKind.pageFault ≠ .guestPageFault) := by decide

theorem witness_TrapEntryIntoMachineMode : (State.reset.takeTrap .guestPageFault 8).curMode = .m := by decide

theorem witness_TrapEntryIntoSupervisorMode :
    ((delegating .vu).takeTrap .guestPageFault 8).curMode = .shs ∧ (delegating .vu).hPresent = true := by decide

theorem witness_TrapEntryIntoVirtualSupervisorMode :
    ((delegating .vu).takeTrap .illegalInstruction 8).curMode = .vs := by decide

theorem witness_TrapReturnUndoesTrapEntry : ModeOfHart (delegating .vu) := by decide

theorem witness_ExceptionCodes : decode 0x30A295F3 = .ok (.csrrw 11 0x30A 5) ∧ Config.standard.tvalIllegal = .instructionWord ∧
    { Config.standard with tvalIllegal := .zero }.tvalIllegal = .zero := ⟨by rfl, by decide, by decide⟩

theorem witness_ZeroRegisterReadsZeroAndDiscardsWrites : (31 : RegNum) ≠ 0#5 ∧ (0 : RegNum) ≠ 31 := by decide

theorem witness_ResetHartRunsEverything :
    Config.standard.scheme = .A ∧ isCacheBlockInstr (.cboZero 31) = true ∧ Config.standard.regOf 0x60A = some .h ∧
      (State.resetWith Config.standard ResetDraw.standard).hPresent = true := by decide

theorem witness_InvariantHoldsAtReset : Config.standard.wf = true ∧ ResetDraw.standard.Legal Config.standard where
  left := by decide
  right :=
    { mcmo := by decide
      scmo := by decide
      hcmo := by decide
      regs := by decide
      effInput := by
        rintro i (h | rfl) mode hm
        · cases h
        · cases hm
      trapM := by decide
      trapHs := by decide
      trapVs := by decide }

/-- `csrrwi x0, 0x30A, 0` placed at the reset pc: a step from a state that meets the invariant, which changes the m-register. It
witnesses the whole-machine statements. -/
theorem witness_EveryStepKeepsTheInvariant :
    let s := State.reset.placeWord 0x30A05073
    Inv s ∧ ∃ t, step s = .next t := ⟨reset_word_inv, _, rfl⟩

theorem witness_OnlyPermittedModesChangeControlRegisters :
    ∃ t, step (State.reset.placeWord 0x30A05073) = .next t ∧ t.csr .m ≠ (State.reset.placeWord 0x30A05073).csr .m :=
  ⟨_, rfl, by decide⟩

/-- `csrrs x11, 0x30A, x0` from U: the exception is taken, and the mode changes. -/
theorem witness_ModeChangesOnlyByTakingAnException :
    ∃ t, step (State.placeWord { State.reset with curMode := .u } 0x30A025F3) = .next t ∧ t.curMode = .m ∧
      t.trap.m.epc = 0x80000000 := ⟨_, rfl, by decide, by decide⟩

theorem witness_ParametersAndInputsNeverChange : ∃ t, step (State.reset.placeWord 0x30A05073) = .next t := ⟨_, rfl⟩

/-- `cbo.zero (x10)`: an operation is recorded. -/
theorem witness_EventsAreRecordedInProgramOrder :
    ∃ t, step (State.reset.placeWord 0x0045200F) = .next t ∧
      t.events = [{ hart := 0, kind := .zero, addr := 0 }] := ⟨_, rfl, by decide⟩

/-! ### What R37 and R21 leave open -/

/-- A cleaned byte on its way: memory still holds 1, and the hart reads 2. -/
def onItsWay : State := { State.reset with mem := [(0, 1)], pending := [(0, 2)] }

/-- R37: until it has arrived, memory holds the old byte, which a fetch may find. -/
theorem test_pending_byte : onItsWay.readByte 0 = some 2 ∧ onItsWay.fetchSettled 0 = false ∧
    onItsWay.fetchSettled 1 = true := by decide

/-- R21: two accesses with different write permissions of one run; the second, with `W_pmp` clear, faults (B1, B2). -/
theorem test_two_accesses :
    let ok : AccessInputs := { effMode := some .shs, wPmp := true, wS := false, wH := false, gpa := 0 }
    let s := inEffMode .shs false false false (invw false true false false) (invw false false false false)
      (invw false false false false)
    let s := { s with inputs := { s.inputs with listed := [ok] } }
    kinds (exec (.cboInval 10) s) = some [.flush] ∧
      ((nextState? (exec (.cboInval 10) s)).bind fun t => mcause (exec (.cboInval 10) t)) = some 7 := by decide

theorem witness_BetweenInstructionsOnlyUpdatesArrive :
    (Memory.wf onItsWay.pending ∧ onItsWay.pending ≠ []) ∧
      (let s := State.reset.placeWord 0x30A05073
       s.pending = [] ∧ ∀ k < 4, s.fetchSettled (s.pc.toNat + k) = true) := by decide

theorem witness_FetchFindsAHeldValue : Memory.read onItsWay.pending 1 = none ∧ Memory.read onItsWay.modified 1 = none ∧
    (∀ c ∈ onItsWay.past, c.1 ≠ 1) := by decide

/-- For each clause a state in a mode other than M (under scheme B, an effective mode), with the last byte of the block that
address 0 names modified, the first byte after it too, and the last but one not. -/
theorem witness_CleanAndFlushSendTheModifiedBytes :
    let a := { inMode .vs (fields 0b01 true false) (fields 0 false false) (fields 0b11 true false) with
      modified := [(63, 5), (64, 6)] }
    let b := { inEffMode .shs true false false (invw false true false false) (invw false false false false)
      (invw false false false false) with modified := [(63, 5), (64, 6)] }
    (a.cfg.scheme = .A ∧ ModeOfHart a ∧ Memory.wf a.modified ∧ (∀ r ∈ governing a.curMode, (a.csr r).a.cbcfe = true) ∧
      (∀ r ∈ governing a.curMode, (a.csr r).a.cbie = 0b01#2 ∨ (a.csr r).a.cbie = 0b11#2) ∧
      ∃ r ∈ governing a.curMode, (a.csr r).a.cbie = 0b01#2) ∧
    (b.cfg.scheme = .B ∧ Memory.wf b.modified ∧
      (nextState? (exec (.cboInval 0) b)).map (fun t => t.events) = some [{ hart := 0, kind := .flush, addr := 0 }]) ∧
    (inBlock a.cfg (a.x 0) 63 = true ∧ Memory.read a.modified 63 = some 5 ∧ inBlock a.cfg (a.x 0) 62 = true ∧
      Memory.read a.modified 62 = none ∧ inBlock a.cfg (a.x 0) 64 = false) := by decide

/-- Inputs that differ in the entry of the next access. -/
theorem witness_OtherAccessInputsHaveNoEffect :
    let standing := State.reset.inputs.otherwise
    let inputs := { State.reset.inputs with listed := [standing, { standing with wS := true }] }
    inputs.satpBare = State.reset.inputs.satpBare ∧ inputs.vsatpBare = State.reset.inputs.vsatpBare ∧
      inputs.hgatpBare = State.reset.inputs.hgatpBare ∧ (withInputs inputs State.reset).access = State.reset.access := by
  decide

theorem witness_EachAccessHasItsOwnInputs :
    (∃ t, exec (.cboInval 10) (inEffMode .m false false false (invw false false false false) (invw false false false false)
        (invw false false false false)) = .next t) ∧
      ∃ t, exec (.cboInval 10) State.reset = .next t := ⟨⟨_, rfl⟩, _, rfl⟩

/-! ### The effective mode, and what a trap records -/

/-- M-mode with `mstatus.MPRV` set, and the mode `MPP` and `MPV` name; no effective mode is given from outside. -/
def withMprv (mpp : Priv) (mpv : Bool) : State :=
  { State.reset with
    trap := { State.reset.trap with mstatus := { State.reset.trap.mstatus with mprv := true, mpp := mpp, mpv := mpv } } }

/-- R5's own mechanism: MPRV with MPP S and MPV set makes the effective mode VS, and clear S/HS. -/
theorem test_effMode_mprv : (withMprv .s true).effMode = .vs ∧ (withMprv .s false).effMode = .shs := by decide

theorem witness_EffectiveModeIsTheInputElseMprvDecides :
    (inEffMode .vu true true true (invw true true true true) (invw true true true true)
      (invw true true true true)).access.effMode = some .vu ∧
    (State.reset.access.effMode = none ∧ State.reset.trap.mstatus.mprv = false) ∧
    [Priv.m, .s, .u].all (fun p => [true, false].all fun v => decide ((withMprv p v).access.effMode = none ∧
      (withMprv p v).curMode = .m ∧ (withMprv p v).trap.mstatus.mprv = true ∧ (withMprv p v).trap.mstatus.mpp = p)) = true := by
  decide

/-- `csrrs x11, 0x30A, x0` from U, and a `cbo.inval` under scheme B that faults, where a run ends at a trap. -/
theorem witness_TrapOutcomeRecordsTheWordOrTheAddress :
    let u := { State.reset with cfg := { Config.standard with trapModel := .terminal }, curMode := .u }
    let b := inEffMode .shs false false false (invw false false false false) (invw false false false false)
      (invw false false false false)
    let b := { b with cfg := { b.cfg with trapModel := .terminal } }
    ((u.placeWord 0x30A025F3).arrive.fetchBytes = .ok (bytesOfWord 0x30A025F3) ∧
      step (u.placeWord 0x30A025F3) = .fault (.trap .illegalInstruction 0x30A025F3 0x80000000)) ∧
    ((b.placeWord 0x0005200F).arrive.fetchBytes = .ok (bytesOfWord 0x0005200F) ∧
      step (b.placeWord 0x0005200F) = .fault (.trap .accessFault 0 0x80000000)) := ⟨⟨rfl, rfl⟩, rfl, rfl⟩

end Sys2Proof.Tests
end

section
/-! What no instruction changes, and what has no effect on any instruction: the parameters and inputs (R3, R21), the effective
mode (R5), and that a change of the state which the shared operations do not notice commutes with every instruction, of which
the fields of the scheme not in force (R2) are the case here. -/

namespace Sys2Proof.Machine

/-! ### The effective mode (R5, R21) -/

theorem effMode_of_input (s : State) (mode : Mode) (h : s.access.effMode = some mode) : s.effMode = mode := by
  simp [State.effMode, h]

theorem effMode_of_no_input (s : State) (h : s.access.effMode = none) :
    s.effMode = if s.curMode = .m ∧ s.trap.mstatus.mprv = true then s.modeOf s.trap.mstatus.mpp s.trap.mstatus.mpv
      else s.curMode := by
  simp [State.effMode, h]

@[simp] theorem modeOf_m (s : State) (v : Bool) : s.modeOf .m v = .m := by
  simp [State.modeOf]

theorem modeOf_s (s : State) (v : Bool) : s.modeOf .s v = if v = true ∧ s.hPresent = true then .vs else .shs := by
  unfold State.modeOf
  cases v <;> cases s.hPresent <;> rfl

theorem modeOf_u (s : State) (v : Bool) : s.modeOf .u v = if v = true ∧ s.hPresent = true then .vu else .u := by
  unfold State.modeOf
  cases v <;> cases s.hPresent <;> rfl

/-- Settles O54, by the cases of `MPP` where `MPRV` acts. -/
theorem effectiveModeIsTheInputElseMprvDecides : Obligations.EffectiveModeIsTheInputElseMprvDecides := by
  refine fun s => ⟨effMode_of_input s, fun hnone => ⟨fun hidle => ?_, fun hm hmprv => ?_⟩⟩
  · rw [effMode_of_no_input s hnone, if_neg]
    rintro ⟨hm, hmprv⟩
    simp [hm, hmprv] at hidle
  · rw [effMode_of_no_input s hnone, if_pos ⟨hm, hmprv⟩]
    refine ⟨fun hmpp => ?_, fun hmpp => ?_, fun hmpp => ?_⟩ <;> rw [hmpp]
    · exact modeOf_m ..
    · exact modeOf_s ..
    · exact modeOf_u ..

/-! ### What no step changes (R3, R21) -/

/-- No effect of an instruction reaches the parameters, `H_EN` or the inputs. -/
theorem Effect.parameters {s t : State} (h : Effect s t) : t.cfg = s.cfg ∧ t.hEn = s.hEn ∧ t.inputs = s.inputs := by
  cases h with
  | cacheOp kind rs1 h => simp [h]
  | access kind rs1 h => simp [h]
  | trap k info hm hi h => simp [h]
  | accessTrap k info hm hi h => simp [h]
  | csrRead r rd ha h => simp [h]
  | csrWrite r rd w ha h => simp [h]

/-- Settles O47: what happens before the instruction and each effect of it leave the three alone. -/
theorem parametersAndInputsNeverChange : Obligations.ParametersAndInputsNeverChange := by
  intro s t h
  obtain ⟨-, i, hi⟩ := step_next s t h
  simpa using (exec_effect i _ t hi).parameters

/-! ### Reading the governing registers (R50, R60) -/

/-- The registers of a list are read as stored, unless the h-register is one of them and absent. -/
theorem csrs?_eq (s : State) (rs : List CmoReg) :
    s.csrs? rs = if .h ∈ rs ∧ s.hPresent = false then none else some (rs.map s.csr) := by
  split
  · rename_i h
    obtain ⟨hmem, habs⟩ := h
    induction rs with
    | nil => cases hmem
    | cons r rs ih =>
      rcases List.mem_cons.mp hmem with rfl | hmem
      · simp [State.csrs?, State.csr?, habs]
      · simp [State.csrs?, ih hmem]
  · rename_i h
    exact csrs?_of_present s rs fun hmem => by simpa [hmem] using h

theorem governors_eq (s : State) :
    s.governors = if .h ∈ governing s.curMode ∧ s.hPresent = false then none
      else some ((governing s.curMode).map s.csr) :=
  csrs?_eq s _

/-! ### Outcomes -/

theorem mapNext_comm (f g : State → State) (h : ∀ s, f (g s) = g (f s)) (o : Host.Outcome State Fault Refusal) :
    mapNext f (mapNext g o) = mapNext g (mapNext f o) := by
  cases o with
  | next s => simp [mapNext, h]
  | fault r => rfl
  | refused r => rfl

/-! ### Changes of the state that commute with an instruction -/

/-- No shared operation notices the change `f` of the state `s`: what the instructions read of `s` to decide is as before, and
each operation that ends an instruction does the same to `f s` as to `s`. What governs a cache-block instruction is left
out, since which fields that is depends on the scheme. -/
structure Unnoticed (f : State → State) (s : State) : Prop where
  cfg : (f s).cfg = s.cfg
  curMode : (f s).curMode = s.curMode
  hPresent : (f s).hPresent = s.hPresent
  x : ∀ i, (f s).x i = s.x i
  csrRead : ∀ r, s.checkAccess r = none → (f s).csrRead r = s.csrRead r
  csrWrite : ∀ r w, s.checkAccess r = none → (f s).csrWrite r w = f (s.csrWrite r w)
  finish : ∀ t rd v, ((f t).setX rd v).advance = f (t.setX rd v).advance
  countAccess : ∀ t, f t.countAccess = (f t).countAccess
  complete : ∀ kind rs1, completeCacheOp kind rs1 (f s) = mapNext f (completeCacheOp kind rs1 s)
  raise : ∀ k info, raise k info (f s) = mapNext f (raise k info s)

section
variable {f : State → State} {s : State}

theorem Unnoticed.checkAccess (hf : Unnoticed f s) (r : CmoReg) : (f s).checkAccess r = s.checkAccess r := by
  simp [State.checkAccess, hf.cfg, hf.curMode, hf.hPresent]

theorem Unnoticed.governors (hf : Unnoticed f s) :
    (f s).governors = if .h ∈ governing s.curMode ∧ s.hPresent = false then none
      else some ((governing s.curMode).map (f s).csr) := by
  rw [governors_eq, hf.curMode, hf.hPresent]

/-- A cache-block instruction gated by a field (R54 to R56) sees the governing registers only through that field. -/
theorem gatedCacheOp_unnoticed (hf : Unnoticed f s) (field : CmoCsr → Bool)
    (hg : ∀ r ∈ governing s.curMode, field ((f s).csr r) = field (s.csr r)) (kind : CacheOpKind) (i : Instr) (rs1 : RegNum) :
    gatedCacheOp field kind i rs1 (f s) = mapNext f (gatedCacheOp field kind i rs1 s) := by
  have hall : ((governing s.curMode).map (f s).csr).all field = ((governing s.curMode).map s.csr).all field := by
    simpa [Function.comp_def] using congrArg (List.all · id) (List.map_congr_left hg)
  unfold gatedCacheOp
  rw [hf.governors, governors_eq, hf.cfg]
  split_ifs
  · rfl
  · simp only [hall]
    split
    · exact hf.complete kind rs1
    · exact hf.raise _ _

/-- `CBO.INVAL` under scheme A (R53) sees the governing registers only through `CBIE`. -/
theorem invalSchemeA_unnoticed (hf : Unnoticed f s)
    (hg : ∀ r ∈ governing s.curMode, ((f s).csr r).a.cbie = (s.csr r).a.cbie) (i : Instr) (rs1 : RegNum) :
    invalSchemeA i rs1 (f s) = mapNext f (invalSchemeA i rs1 s) := by
  have hany (k : BitVec 2) : ((governing s.curMode).map (f s).csr).any (fun v => v.a.cbie == k) =
      ((governing s.curMode).map s.csr).any (fun v => v.a.cbie == k) := by
    simpa [Function.comp_def] using congrArg (List.any · (· == k)) (List.map_congr_left hg)
  unfold invalSchemeA
  rw [hf.governors, governors_eq, hf.cfg]
  split_ifs
  · rfl
  · simp only [hany]
    split
    · exact hf.raise _ _
    · split
      · rfl
      · split
        · exact hf.complete .flush rs1
        · exact hf.complete .invalidate rs1

/-- `CBO.INVAL` under scheme B (R85) sees the registers and the inputs only through its fault and its choice of operation. -/
theorem invalSchemeB_unnoticed (hf : Unnoticed f s) (hmode : (f s).effMode = s.effMode)
    (hfault : (f s).invwFault = s.invwFault) (hinval : (f s).invwInvalidates = s.invwInvalidates) (rs1 : RegNum) :
    invalSchemeB rs1 (f s) = mapNext f (invalSchemeB rs1 s) := by
  have hx : (f s).blockOperand rs1 = s.blockOperand rs1 := hf.x rs1
  unfold invalSchemeB
  rw [hmode, hf.hPresent, hfault, hinval, hx]
  split
  · rfl
  · rw [mapNext_comm f _ hf.countAccess]
    split
    · rw [hf.raise]
    · rw [hf.complete]

/-- A CSR access (R91 to R96) whose written word is made in the same way commutes with the change. -/
theorem csrAccess_unnoticed (hf : Unnoticed f s) (i : Instr) (csr : CsrNum) (rd : RegNum) (form : Word → Option Word) :
    csrAccess i csr rd form (f s) = mapNext f (csrAccess i csr rd form s) := by
  unfold csrAccess
  rw [hf.cfg]
  cases s.cfg.regOf csr with
  | none => rfl
  | some r =>
    simp only [hf.checkAccess]
    cases ha : s.checkAccess r with
    | some k => exact hf.raise _ _
    | none =>
      simp only [hf.csrRead r ha]
      cases form (s.csrRead r) with
      | none => simp only [mapNext, hf.finish]
      | some w => simp only [mapNext, hf.csrWrite r w ha, hf.finish]

/-- Each of the six CSR instructions is `csrAccess` over a form that depends on the integer registers alone (R91 to R96). -/
theorem exec_csr_of_same_regs (i : Instr) (csr : CsrNum) (s t : State) (h : i.csr? = some csr) (hx : ∀ r, t.x r = s.x r) :
    ∃ rd form, exec i s = csrAccess i csr rd form s ∧ exec i t = csrAccess i csr rd form t := by
  have hreg (r : RegNum) : t.regOperand r = s.regOperand r := hx r
  cases i with
  | cboInval rs1 => cases h
  | cboClean rs1 => cases h
  | cboFlush rs1 => cases h
  | cboZero rs1 => cases h
  | csrrw rd c rs1 =>
    cases h
    exact ⟨rd, writeForm (s.regOperand rs1), rfl, by rw [← hreg]; rfl⟩
  | csrrs rd c rs1 =>
    cases h
    exact ⟨rd, setForm rs1 (s.regOperand rs1), rfl, by rw [← hreg]; rfl⟩
  | csrrc rd c rs1 =>
    cases h
    exact ⟨rd, clearForm rs1 (s.regOperand rs1), rfl, by rw [← hreg]; rfl⟩
  | csrrwi rd c uimm =>
    cases h
    exact ⟨rd, writeForm (immOperand uimm), rfl, rfl⟩
  | csrrsi rd c uimm =>
    cases h
    exact ⟨rd, setForm uimm (immOperand uimm), rfl, rfl⟩
  | csrrci rd c uimm =>
    cases h
    exact ⟨rd, clearForm uimm (immOperand uimm), rfl, rfl⟩

theorem exec_csr_unnoticed (hf : Unnoticed f s) (i : Instr) (csr : CsrNum) (h : i.csr? = some csr) :
    exec i (f s) = mapNext f (exec i s) := by
  obtain ⟨rd, form, hs, ht⟩ := exec_csr_of_same_regs i csr s (f s) h hf.x
  rw [hs, ht, csrAccess_unnoticed hf]

/-- Under scheme A an unnoticed change that keeps the scheme A fields of the governing registers commutes with every
instruction. -/
theorem exec_unnoticed_schemeA (hf : Unnoticed f s) (hA : s.cfg.scheme = .A)
    (ha : ∀ r ∈ governing s.curMode, ((f s).csr r).a = (s.csr r).a) (i : Instr) :
    exec i (f s) = mapNext f (exec i s) := by
  cases i with
  | cboInval rs1 =>
    simp only [exec, execCboInval, hf.cfg, hA]
    exact invalSchemeA_unnoticed hf (fun r hr => by rw [ha r hr]) _ rs1
  | cboClean rs1 =>
    simp only [exec, execCboClean, hf.cfg, hA]
    exact gatedCacheOp_unnoticed hf _ (fun r hr => by rw [ha r hr]) _ _ rs1
  | cboFlush rs1 =>
    simp only [exec, execCboFlush, hf.cfg, hA]
    exact gatedCacheOp_unnoticed hf _ (fun r hr => by rw [ha r hr]) _ _ rs1
  | cboZero rs1 =>
    simp only [exec, execCboZero, hf.cfg, hA]
    exact gatedCacheOp_unnoticed hf _ (fun r hr => by rw [ha r hr]) _ _ rs1
  | csrrw rd csr rs1 => exact exec_csr_unnoticed hf _ csr rfl
  | csrrs rd csr rs1 => exact exec_csr_unnoticed hf _ csr rfl
  | csrrc rd csr rs1 => exact exec_csr_unnoticed hf _ csr rfl
  | csrrwi rd csr uimm => exact exec_csr_unnoticed hf _ csr rfl
  | csrrsi rd csr uimm => exact exec_csr_unnoticed hf _ csr rfl
  | csrrci rd csr uimm => exact exec_csr_unnoticed hf _ csr rfl

/-- Under scheme B an unnoticed change that keeps the effective mode, the fault and the choice of operation of `CBO.INVAL`
commutes with every instruction. -/
theorem exec_unnoticed_schemeB (hf : Unnoticed f s) (hB : s.cfg.scheme = .B) (hmode : (f s).effMode = s.effMode)
    (hfault : (f s).invwFault = s.invwFault) (hinval : (f s).invwInvalidates = s.invwInvalidates) (i : Instr) :
    exec i (f s) = mapNext f (exec i s) := by
  cases i with
  | cboInval rs1 =>
    simp only [exec, execCboInval, hf.cfg, hB]
    exact invalSchemeB_unnoticed hf hmode hfault hinval rs1
  | cboClean rs1 => simp only [exec, execCboClean, hf.cfg, hB, mapNext]
  | cboFlush rs1 => simp only [exec, execCboFlush, hf.cfg, hB, mapNext]
  | cboZero rs1 => simp only [exec, execCboZero, hf.cfg, hB, mapNext]
  | csrrw rd csr rs1 => exact exec_csr_unnoticed hf _ csr rfl
  | csrrs rd csr rs1 => exact exec_csr_unnoticed hf _ csr rfl
  | csrrc rd csr rs1 => exact exec_csr_unnoticed hf _ csr rfl
  | csrrwi rd csr uimm => exact exec_csr_unnoticed hf _ csr rfl
  | csrrsi rd csr uimm => exact exec_csr_unnoticed hf _ csr rfl
  | csrrci rd csr uimm => exact exec_csr_unnoticed hf _ csr rfl

end

/-! ### Changes of what the three registers hold -/

/-- What each of the three registers holds, changed by `g`. -/
def mapCsrs (g : CmoReg → CmoCsr → CmoCsr) (s : State) : State :=
  { s with mcmo := g .m s.mcmo, scmo := g .s s.scmo, hcmo := g .h s.hcmo }

theorem csr_mapCsrs (g : CmoReg → CmoCsr → CmoCsr) (s : State) (r : CmoReg) : (mapCsrs g s).csr r = g r (s.csr r) := by
  cases r <;> rfl

theorem setX_mapCsrs (g : CmoReg → CmoCsr → CmoCsr) (s : State) (i : RegNum) (v : Word) :
    (mapCsrs g s).setX i v = mapCsrs g (s.setX i v) := by
  unfold State.setX
  split <;> rfl

theorem cacheOp_mapCsrs (g : CmoReg → CmoCsr → CmoCsr) (s : State) (kind : CacheOpKind) (addr : Word) :
    (mapCsrs g s).cacheOp kind addr = mapCsrs g (s.cacheOp kind addr) := by
  cases kind <;> rfl

theorem takeTrap_mapCsrs (g : CmoReg → CmoCsr → CmoCsr) (s : State) (k : ExceptionKind) (info : Word) :
    (mapCsrs g s).takeTrap k info = mapCsrs g (s.takeTrap k info) := by
  have hlevel : (mapCsrs g s).trapLevel k = s.trapLevel k := rfl
  unfold State.takeTrap
  rw [hlevel]
  cases s.trapLevel k <;> rfl

theorem raise_mapCsrs (g : CmoReg → CmoCsr → CmoCsr) (s : State) (k : ExceptionKind) (info : Word) :
    raise k info (mapCsrs g s) = mapNext (mapCsrs g) (raise k info s) := by
  have hcfg : (mapCsrs g s).cfg = s.cfg := rfl
  unfold raise
  rw [hcfg, takeTrap_mapCsrs]
  cases s.cfg.trapModel <;> rfl

theorem setCsr_mapCsrs (g : CmoReg → CmoCsr → CmoCsr) (s : State) (r : CmoReg) (v : CmoCsr) :
    (mapCsrs g s).setCsr r (g r v) = mapCsrs g (s.setCsr r v) := by
  cases r <;> rfl

/-- A change of the registers is unnoticed if, for each register that may be accessed, the word read is the same and a write
legalises the same fields. -/
theorem unnoticed_mapCsrs (g : CmoReg → CmoCsr → CmoCsr) (s : State)
    (hread : ∀ r, s.checkAccess r = none → packCsr s.cfg (g r (s.csr r)) = packCsr s.cfg (s.csr r))
    (hwrite : ∀ r w, s.checkAccess r = none →
      legalizedCsr s.cfg r (g r (s.csr r)) w = g r (legalizedCsr s.cfg r (s.csr r) w)) : Unnoticed (mapCsrs g) s where
  cfg := rfl
  curMode := rfl
  hPresent := rfl
  x _ := rfl
  csrRead r ha := by
    unfold State.csrRead
    rw [csr_mapCsrs]
    exact hread r ha
  csrWrite r w ha := by
    unfold State.csrWrite
    rw [csr_mapCsrs, ← setCsr_mapCsrs, ← hwrite r _ ha]
    rfl
  finish t rd v := by
    rw [setX_mapCsrs]
    rfl
  countAccess _ := rfl
  complete kind rs1 := by
    have hop := cacheOp_mapCsrs g s kind (s.blockOperand rs1)
    exact congrArg (fun t : State => Host.Outcome.next t.advance) hop
  raise := raise_mapCsrs g s

/-! ### The fields of the scheme not in force (R2) -/

/-- The value of three that stands for a register. -/
def ofReg {α : Type} (m s h : α) : CmoReg → α
  | .m => m
  | .s => s
  | .h => h

theorem withFieldsB_eq_mapCsrs (m s' h : FieldsB) : withFieldsB m s' h = mapCsrs fun r v => { v with b := ofReg m s' h r } :=
  rfl

theorem withFieldsA_eq_mapCsrs (m s' h : FieldsA) : withFieldsA m s' h = mapCsrs fun r v => { v with a := ofReg m s' h r } :=
  rfl

theorem withFieldsB_unnoticed (m s' h : FieldsB) (s : State) (hA : s.cfg.scheme = .A) :
    Unnoticed (withFieldsB m s' h) s := by
  rw [withFieldsB_eq_mapCsrs]
  refine unnoticed_mapCsrs _ s (fun r _ => ?_) fun r w _ => ?_
  · simp only [packCsr, hA]
  · simp only [legalizedCsr, hA]

theorem withFieldsA_unnoticed (m s' h : FieldsA) (s : State) (hB : s.cfg.scheme = .B) :
    Unnoticed (withFieldsA m s' h) s := by
  rw [withFieldsA_eq_mapCsrs]
  refine unnoticed_mapCsrs _ s (fun r _ => ?_) fun r w _ => ?_
  · simp only [packCsr, hB]
  · simp only [legalizedCsr, hB]

/-- Settles O24: a word read or written has the fields of the scheme in force alone, and so have the rules of the cache-block
instructions. -/
theorem fieldsOfTheOtherSchemeHaveNoEffect : Obligations.FieldsOfTheOtherSchemeHaveNoEffect := by
  refine fun s i => ⟨fun hA m s' h => ?_, fun hB m s' h => ?_⟩
  · refine exec_unnoticed_schemeA (withFieldsB_unnoticed m s' h s hA) hA (fun r _ => ?_) i
    rw [withFieldsB_eq_mapCsrs, csr_mapCsrs]
  · exact exec_unnoticed_schemeB (withFieldsA_unnoticed m s' h s hB) hB rfl rfl rfl i

end Sys2Proof.Machine
end

section
/-! The state and its registers: what the invariant of the machine is kept by, from reset through every step (R17, R28, R30,
R31, R105), and what follows from it; which steps change a control register (R29, R90); what a written register holds and
reads back as (R17, R22 to R24); what an instruction reads of the inputs (R71); and the fetch, `x0` and reset. -/

namespace Sys2Proof.Machine

/-! ### The fetch and the step (R26, R41, R108) -/

/-- Settles O6. -/
theorem stepRunsTheDecodedInstruction : Obligations.StepRunsTheDecodedInstruction := by
  intro s bs rest i haligned hfetch hdecode
  simp [step, haligned, hfetch, hdecode]

/-- The fetch stops at the first of the four bytes where it finds no value. -/
theorem fetchBytes_of_missing (s : State) (k : Nat) (hk : k < 4)
    (hbefore : ∀ j < k, (s.fetchByte (s.pc.toNat + j)).isSome = true) (hmissing : s.fetchByte (s.pc.toNat + k) = none) :
    s.fetchBytes = .error (s.pc.toNat + k) := by
  have hfound (j : Nat) (hj : j < k) : ∃ b, s.fetchByte (s.pc.toNat + j) = some b :=
    Option.isSome_iff_exists.mp (hbefore j hj)
  match k, hk with
  | 0, _ =>
    rw [Nat.add_zero] at hmissing
    simp [State.fetchBytes, hmissing]
  | 1, _ =>
    obtain ⟨b0, h0⟩ := hfound 0 (by omega)
    rw [Nat.add_zero] at h0
    simp [State.fetchBytes, h0, hmissing]
  | 2, _ =>
    obtain ⟨b0, h0⟩ := hfound 0 (by omega)
    obtain ⟨b1, h1⟩ := hfound 1 (by omega)
    rw [Nat.add_zero] at h0
    simp [State.fetchBytes, h0, h1, hmissing]
  | 3, _ =>
    obtain ⟨b0, h0⟩ := hfound 0 (by omega)
    obtain ⟨b1, h1⟩ := hfound 1 (by omega)
    obtain ⟨b2, h2⟩ := hfound 2 (by omega)
    rw [Nat.add_zero] at h0
    simp [State.fetchBytes, h0, h1, h2, hmissing]

/-- Settles O8: a misaligned pc is refused before any fetch, and a missing byte ends the fetch. -/
theorem fetchStopsByName : Obligations.FetchStopsByName := by
  refine fun s => ⟨fun hmisaligned => if_pos hmisaligned, fun k hk haligned hbefore hmissing => ?_⟩
  have hfetch : s.arrive.fetchBytes = .error (s.pc.toNat + k) := by
    simpa using fetchBytes_of_missing s.arrive k hk (by simpa using hbefore) (by simpa using hmissing)
  simp [step, haligned, hfetch]

/-! ### Integer registers (R25) -/

/-- Writing a register changes no field but the integer registers. -/
theorem setX_eq (s : State) (i : RegNum) (v : Word) : s.setX i v = { s with xregs := (s.setX i v).xregs } := by
  unfold State.setX
  split <;> rfl

/-- Settles O41, from what a read finds after a write (`x_setX`). -/
theorem zeroRegisterReadsZeroAndDiscardsWrites : Obligations.ZeroRegisterReadsZeroAndDiscardsWrites := by
  refine fun s v => ⟨x_zero s, if_pos rfl, fun i => ⟨setX_eq s i v, fun hi => ⟨?_, fun j hj => ?_⟩⟩⟩
  · rw [x_setX, if_pos ⟨rfl, hi⟩]
  · rw [x_setX, if_neg fun h => hj h.1]

/-! ### The invariant right after reset (R28, R120) -/

theorem resetWith_zeroReg (c : Config) (d : ResetDraw) : (State.resetWith c d).xregs[0] = 0#64 := by
  simp [State.resetWith]

theorem resetWith_regs_fit (c : Config) (d : ResetDraw) (h : ∀ i : Fin 32, fits c d.xregs[i]) (i : Fin 32) :
    fits c (State.resetWith c d).xregs[i] := by
  by_cases hi : i.val = 0
  · simp [State.resetWith, hi]
  · simpa [State.resetWith, Vector.getElem_set, Ne.symm hi] using h i

/-- The pc after reset is a code address of a well-formed configuration (R26). -/
theorem resetPc_codeAddress (c : Config) (h : c.wf = true) : codeAddress c c.resetPc := by
  simp only [Config.wf, Bool.and_eq_true, decide_eq_true_eq] at h
  obtain ⟨⟨-, haligned⟩, hfits⟩ := h
  exact ⟨hfits, haligned⟩

theorem resetWith_inv (c : Config) (d : ResetDraw) (hc : c.wf = true) (hd : d.Legal c) : Inv (State.resetWith c d) where
  config := hc
  mode := nofun
  effInput := hd.effInput
  legal
    | .m => hd.mcmo
    | .s => hd.scmo
    | .h => hd.hcmo
  zeroReg := resetWith_zeroReg c d
  regs := resetWith_regs_fit c d hd.regs
  pc := resetPc_codeAddress c hc
  trapM := hd.trapM
  trapHs := hd.trapHs
  trapVs := hd.trapVs
  mem := .nil
  memRange := nofun
  modified := .nil
  modifiedRange := nofun
  pending := .nil
  pendingRange := nofun
  differs := nofun

theorem standardDraw_legal : ResetDraw.standard.Legal Config.standard where
  mcmo := by decide
  scmo := by decide
  hcmo := by decide
  regs := by decide
  effInput := by
    rintro i (h | rfl) mode hm
    · cases h
    · cases hm
  trapM := by decide
  trapHs := by decide
  trapVs := by decide

/-- Settles O43. -/
theorem invariantHoldsAtReset : Obligations.InvariantHoldsAtReset :=
  ⟨resetWith_inv, resetWith_inv _ _ (by decide) standardDraw_legal⟩

/-! ### The cells of a cache block (R33) -/

theorem cacheBlockBytes_dvd (c : Config) (h : c.wf = true) : 0 < c.cacheBlockBytes ∧ c.cacheBlockBytes ∣ 2 ^ c.xlen.bits := by
  simp only [Config.wf, Bool.and_eq_true, List.any_eq_true, List.mem_range, beq_iff_eq] at h
  obtain ⟨⟨⟨-, k, hk, hblock⟩, -⟩, -⟩ := h
  rw [hblock]
  exact ⟨Nat.two_pow_pos k, Nat.pow_dvd_pow 2 (by omega)⟩

/-- A block of an `XLEN`-bit address lies inside the address space. -/
theorem blockAddresses_lt (c : Config) (addr : Word) (a : Nat) (hc : c.wf = true) (haddr : fits c addr)
    (ha : a ∈ blockAddresses c addr) : a < 2 ^ c.xlen.bits := by
  obtain ⟨hpos, hdvd⟩ := cacheBlockBytes_dvd c hc
  simp only [blockAddresses, List.mem_map, List.mem_range] at ha
  obtain ⟨i, hi, rfl⟩ := ha
  have hblock : addr.toNat / c.cacheBlockBytes + 1 ≤ 2 ^ c.xlen.bits / c.cacheBlockBytes :=
    Nat.div_lt_div_of_lt_of_dvd hdvd haddr
  calc addr.toNat / c.cacheBlockBytes * c.cacheBlockBytes + i
      < (addr.toNat / c.cacheBlockBytes + 1) * c.cacheBlockBytes := by rw [Nat.succ_mul]; omega
    _ ≤ 2 ^ c.xlen.bits / c.cacheBlockBytes * c.cacheBlockBytes := Nat.mul_le_mul_right _ hblock
    _ = 2 ^ c.xlen.bits := Nat.div_mul_cancel hdvd

/-- What the invariant asks of the modified bytes, over what stands below them: canonical form, below a bound, and each
different from what stands below it (R30, R31). -/
structure CachedCopies (below : Nat → Option Byte) (bound : Nat) (modified : Memory) : Prop where
  wf : Memory.wf modified
  range : ∀ c ∈ modified, c.1 < bound
  differs : ∀ c ∈ modified, below c.1 ≠ some c.2

theorem Inv.copies {s : State} (h : Inv s) : CachedCopies s.stored (2 ^ s.cfg.xlen.bits) s.modified :=
  ⟨h.modified, h.modifiedRange, h.differs⟩

theorem CachedCopies.dropWhere {below : Nat → Option Byte} {bound : Nat} {md : Memory} (h : CachedCopies below bound md)
    (p : Nat → Bool) : CachedCopies below bound (Memory.dropWhere p md) where
  wf := memory_dropWhere_wf p md h.wf
  range c hc := h.range c ((memory_mem_dropWhere p md c).mp hc).1
  differs c hc := h.differs c ((memory_mem_dropWhere p md c).mp hc).1

theorem CachedCopies.cacheByte {below : Nat → Option Byte} {bound : Nat} {md : Memory} (h : CachedCopies below bound md)
    (a : Nat) (v : Byte) (ha : a < bound) : CachedCopies below bound (cacheByte below md a v) := by
  unfold Machine.cacheByte
  split
  · exact h.dropWhere _
  · rename_i hne
    refine ⟨memory_write_wf md a v h.wf, fun c hc => ?_, fun c hc => ?_⟩ <;>
      rcases memory_mem_write md a v c hc with rfl | hc
    · exact ha
    · exact h.range c hc
    · exact hne
    · exact h.differs c hc

/-! ### What keeps the invariant: the shared operations -/

theorem Inv.advance {s : State} (h : Inv s) : Inv s.advance :=
  { h with pc := trunc_add_four_aligned s.cfg s.pc h.pc.2 }

theorem Inv.countAccess {s : State} (h : Inv s) : Inv s.countAccess := { h with }

theorem Inv.setX {s : State} (h : Inv s) (i : RegNum) (v : Word) : Inv (s.setX i v) := by
  have hzero := xregs_zero_setX s i v h.zeroReg
  have hregs := xregs_fit_setX s i v h.regs
  rw [setX_eq]
  exact { h with zeroReg := hzero, regs := hregs }

theorem Inv.setCsr {s : State} (h : Inv s) (r : CmoReg) (v : CmoCsr) (hv : legalCsr s.cfg r v = true) :
    Inv (s.setCsr r v) := by
  have hlegal (r' : CmoReg) : legalCsr s.cfg r' ((s.setCsr r v).csr r') = true := by
    by_cases hr : r' = r
    · rw [hr, csr_setCsr_same]
      exact hv
    · rw [csr_setCsr_other s r r' v hr]
      exact h.legal r'
  cases r with
  | m => exact { h with legal := hlegal }
  | s => exact { h with legal := hlegal }
  | h => exact { h with legal := hlegal }

theorem Inv.csrWrite {s : State} (h : Inv s) (r : CmoReg) (w : Word) : Inv (s.csrWrite r w) :=
  h.setCsr r _ (legalizedCsr_legal s.cfg r _ _ h.config)

theorem Inv.record {s : State} (h : Inv s) (kind : CacheOpKind) (addr : Word) : Inv (s.record kind addr) := { h with }

theorem Inv.updateBlock {s : State} (h : Inv s) (addr : Word) : Inv (s.updateBlock addr) :=
  { h with
    modified := memory_dropWhere_wf _ _ h.modified
    modifiedRange := (h.copies.dropWhere _).range
    pending := memory_writeAll_wf _ _ h.pending
    pendingRange := fun c hc =>
      (memory_mem_writeAll _ _ c hc).elim (fun hc => h.modifiedRange c (List.mem_filter.mp hc).1) (h.pendingRange c)
    differs := fun c hc => by
      obtain ⟨hmem, hout⟩ := (memory_mem_dropWhere _ _ c).mp hc
      rw [stored_updateBlock s addr c.1 h.modified, hout]
      exact h.differs c hmem }

theorem Inv.invalidateBlock {s : State} (h : Inv s) (addr : Word) : Inv (s.invalidateBlock addr) :=
  have hcopies := h.copies.dropWhere fun a => inBlock s.cfg addr a && Config.exposesStale s.draws a
  { h with modified := hcopies.wf, modifiedRange := hcopies.range, differs := hcopies.differs }

theorem Inv.zeroBlock {s : State} (h : Inv s) (addr : Word) (haddr : fits s.cfg addr) : Inv (s.zeroBlock addr) :=
  have hcopies : CachedCopies s.stored (2 ^ s.cfg.xlen.bits) (s.zeroBlock addr).modified :=
    List.foldlRecOn _ _ h.copies fun _ hmd a ha =>
      hmd.cacheByte a 0 (blockAddresses_lt s.cfg addr a h.config haddr ha)
  { h with modified := hcopies.wf, modifiedRange := hcopies.range, differs := hcopies.differs }

theorem Inv.cacheOp {s : State} (h : Inv s) (kind : CacheOpKind) (addr : Word) (haddr : fits s.cfg addr) :
    Inv (s.cacheOp kind addr) := by
  cases kind with
  | clean => exact (h.updateBlock addr).record _ _
  | flush => exact (h.updateBlock addr).record _ _
  | invalidate => exact (h.invalidateBlock addr).record _ _
  | zero => exact (h.zeroBlock addr haddr).record _ _

theorem causeCode_fits (c : Config) (k : FaultKind) (e : ExceptionKind) : fits c (BitVec.ofNat 64 (causeCode k e)) := by
  have hlt : 32 < 2 ^ c.xlen.bits := by cases c.xlen <;> decide
  have := causeCode_lt k e
  rw [fits, BitVec.toNat_ofNat, Nat.mod_eq_of_lt (by omega)]
  omega

/-- What a trap entry records in a level keeps the level's registers well-formed (R105). -/
theorem Inv.wf_enter {s : State} (h : Inv s) {t : TrapCsrs} (ht : t.wf s.cfg) (k : ExceptionKind) (info : Word)
    (hinfo : fits s.cfg info) : (t.enter s.pc (BitVec.ofNat 64 (causeCode s.cfg.faultKind k)) info).wf s.cfg := by
  obtain ⟨-, hbase, -, -⟩ := ht
  exact ⟨h.pc, hbase, causeCode_fits _ _ _, hinfo⟩

theorem Inv.enterM {s : State} (h : Inv s) (k : ExceptionKind) (info : Word) (hinfo : fits s.cfg info) :
    Inv (s.enterM k info) := by
  obtain ⟨-, hbase, -, -⟩ := h.trapM
  exact { h with mode := nofun, pc := hbase, trapM := h.wf_enter h.trapM k info hinfo }

theorem Inv.enterHs {s : State} (h : Inv s) (k : ExceptionKind) (info : Word) (hinfo : fits s.cfg info) :
    Inv (s.enterHs k info) := by
  obtain ⟨-, hbase, -, -⟩ := h.trapHs
  exact { h with mode := nofun, pc := hbase, trapHs := h.wf_enter h.trapHs k info hinfo }

theorem Inv.enterVs {s : State} (h : Inv s) (k : ExceptionKind) (info : Word) (hinfo : fits s.cfg info)
    (hv : s.curMode.virtualised = true) : Inv (s.enterVs k info) := by
  obtain ⟨-, hbase, -, -⟩ := h.trapVs
  exact { h with mode := fun _ => h.mode hv, pc := hbase, trapVs := h.wf_enter h.trapVs k info hinfo }

/-- Taking an exception keeps the invariant: VS is entered from a virtualised mode only (R105, R107). -/
theorem Inv.takeTrap {s : State} (h : Inv s) (k : ExceptionKind) (info : Word) (hinfo : fits s.cfg info) :
    Inv (s.takeTrap k info) := by
  rcases takeTrap_cases s k info with ⟨-, ht⟩ | ⟨-, ht⟩ | ⟨hlevel, ht⟩ <;> rw [ht]
  · exact h.enterM k info hinfo
  · exact h.enterHs k info hinfo
  · exact h.enterVs k info hinfo (trapLevel_vs s k hlevel).1

/-! ### What keeps the invariant: a step -/

/-- Updates that arrive keep memory canonical and in range, and what stands below a cached copy stays the same (R37). -/
theorem Inv.arrive {s : State} (h : Inv s) : Inv s.arrive := by
  have hdiffers (c : Host.Cell) (hc : c ∈ s.modified) : s.arrive.stored c.1 ≠ some c.2 := by
    rw [stored_arrive s c.1 h.pending]
    exact h.differs c hc
  unfold State.arrive at hdiffers ⊢
  split
  · exact h
  · rename_i hpending
    rw [if_neg hpending] at hdiffers
    exact { h with
      mem := memory_writeAll_wf _ _ h.mem
      memRange := fun c hc =>
        (memory_mem_writeAll _ _ c hc).elim (fun hc => h.pendingRange c (List.mem_filter.mp hc).1) (h.memRange c)
      pending := memory_dropWhere_wf _ _ h.pending
      pendingRange := fun c hc => h.pendingRange c ((memory_mem_dropWhere _ _ c).mp hc).1
      differs := hdiffers }

theorem Inv.fetched {s : State} (h : Inv s) : Inv s.fetched := by
  unfold State.fetched
  simp only
  split
  · exact h
  · exact { h with }

theorem Inv.beforeExec {s : State} (h : Inv s) : Inv s.beforeExec := h.arrive.fetched

/-- Each effect an instruction can have keeps the invariant. -/
theorem Effect.inv {s t : State} (h : Effect s t) (hs : Inv s) : Inv t := by
  cases h with
  | cacheOp kind rs1 ht => exact ht ▸ (hs.cacheOp kind _ (x_fits s rs1)).advance
  | access kind rs1 ht => exact ht ▸ (hs.cacheOp kind _ (x_fits s rs1)).advance.countAccess
  | trap k info _ hinfo ht => exact ht ▸ hs.takeTrap k info hinfo
  | accessTrap k info _ hinfo ht => exact ht ▸ (hs.takeTrap k info hinfo).countAccess
  | csrRead r rd _ ht => exact ht ▸ (hs.setX rd _).advance
  | csrWrite r rd w _ ht => exact ht ▸ ((hs.csrWrite r w).setX rd _).advance

/-- Settles O44: what happens before the instruction keeps the invariant, and so does each effect of the instruction. -/
theorem everyStepKeepsTheInvariant : Obligations.EveryStepKeepsTheInvariant := by
  intro s t hs h
  obtain ⟨-, i, hi⟩ := step_next s t h
  exact (exec_effect i _ t hi).inv hs.beforeExec

/-! ### The shapes of the ten meanings -/

/-- The meaning of an instruction is one of these: `CBO.INVAL` under either scheme (R53, R85), another cache-block instruction
gated by a field under scheme A (R54 to R56) or without a rule under scheme B (R86), or a CSR access (R91 to R96). -/
inductive Shape (s : State) : Instr → Host.Outcome State Fault Refusal → Prop where
  | invalA (rs1 : RegNum) : Shape s (.cboInval rs1) (invalSchemeA (.cboInval rs1) rs1 s)
  | invalB (rs1 : RegNum) (hB : s.cfg.scheme = .B) : Shape s (.cboInval rs1) (invalSchemeB rs1 s)
  | gated (i : Instr) (field : CmoCsr → Bool) (kind : CacheOpKind) (rs1 : RegNum) :
    Shape s i (gatedCacheOp field kind i rs1 s)
  | noRule (i : Instr) : Shape s i (.refused .noRuleUnderSchemeB)
  | csr (i : Instr) (csr : CsrNum) (rd : RegNum) (form : Word → Option Word) : Shape s i (csrAccess i csr rd form s)

theorem shape_of_csr (i : Instr) (csr : CsrNum) (s : State) (h : i.csr? = some csr) : Shape s i (exec i s) := by
  obtain ⟨rd, form, hform⟩ := exec_csr i csr s h
  rw [hform]
  exact .csr i csr rd form

theorem exec_shape (i : Instr) (s : State) : Shape s i (exec i s) := by
  cases i with
  | cboInval rs1 =>
    simp only [exec, execCboInval]
    split
    · exact .invalA rs1
    · rename_i hB
      exact .invalB rs1 hB
  | cboClean rs1 =>
    simp only [exec, execCboClean]
    split
    · exact .gated _ _ _ rs1
    · exact .noRule _
  | cboFlush rs1 =>
    simp only [exec, execCboFlush]
    split
    · exact .gated _ _ _ rs1
    · exact .noRule _
  | cboZero rs1 =>
    simp only [exec, execCboZero]
    split
    · exact .gated _ _ _ rs1
    · exact .noRule _
  | csrrw rd csr rs1 => exact shape_of_csr _ csr s rfl
  | csrrs rd csr rs1 => exact shape_of_csr _ csr s rfl
  | csrrc rd csr rs1 => exact shape_of_csr _ csr s rfl
  | csrrwi rd csr uimm => exact shape_of_csr _ csr s rfl
  | csrrsi rd csr uimm => exact shape_of_csr _ csr s rfl
  | csrrci rd csr uimm => exact shape_of_csr _ csr s rfl

/-! ### No register holds the reserved `CBIE` value (R17, R58) -/

theorem raise_ne_refused (k : ExceptionKind) (info : Word) (s : State) (r : Refusal) : raise k info s ≠ .refused r := by
  rcases raise_cases k info s with ⟨-, h⟩ | ⟨-, h⟩ <;> rw [h] <;> nofun

theorem mapNext_refused (f : State → State) (o : Host.Outcome State Fault Refusal) (r : Refusal)
    (h : mapNext f o = .refused r) : o = .refused r := by
  cases o with
  | next s => cases h
  | fault e => cases h
  | refused e => exact h

theorem gatedCacheOp_refused (field : CmoCsr → Bool) (kind : CacheOpKind) (i : Instr) (rs1 : RegNum) (s : State)
    (r : Refusal) (h : gatedCacheOp field kind i rs1 s = .refused r) : r = .absentHRegister := by
  unfold gatedCacheOp at h
  split at h
  · cases h
    rfl
  · split at h
    · cases h
    · exact absurd h (raise_ne_refused _ _ _ _)

theorem invalSchemeB_refused (rs1 : RegNum) (s : State) (r : Refusal) (h : invalSchemeB rs1 s = .refused r) :
    r = .absentHRegister := by
  unfold invalSchemeB at h
  split at h
  · cases h
    rfl
  · have h := mapNext_refused _ _ _ h
    split at h
    · exact absurd h (raise_ne_refused _ _ _ _)
    · cases h

theorem csrAccess_refused (i : Instr) (csr : CsrNum) (rd : RegNum) (form : Word → Option Word) (s : State) (r : Refusal)
    (h : csrAccess i csr rd form s = .refused r) : r = .csrNotInScope csr := by
  unfold csrAccess at h
  split at h
  · cases h
    rfl
  · split at h
    · exact absurd h (raise_ne_refused _ _ _ _)
    · split at h <;> cases h

/-- `CBO.INVAL` under scheme A is refused as `reservedCbie` only where a register holds the reserved value (R58). -/
theorem invalSchemeA_reservedCbie (i : Instr) (rs1 : RegNum) (s : State)
    (h : invalSchemeA i rs1 s = .refused .reservedCbie) : ∃ r, (s.csr r).a.cbie = 0b10#2 := by
  unfold invalSchemeA at h
  rw [governors_eq] at h
  split_ifs at h
  · cases h
  · simp only at h
    split at h
    · exact absurd h (raise_ne_refused _ _ _ _)
    · split at h
      · rename_i hreserved
        obtain ⟨v, hv, hcbie⟩ := List.any_eq_true.mp hreserved
        obtain ⟨r, -, rfl⟩ := List.mem_map.mp hv
        exact ⟨r, beq_iff_eq.mp hcbie⟩
      · split at h <;> cases h

/-- The only instruction refused as `reservedCbie` is `CBO.INVAL` where a register holds the reserved value (R58). -/
theorem exec_reservedCbie (i : Instr) (s : State) (h : exec i s = .refused .reservedCbie) :
    ∃ r, (s.csr r).a.cbie = 0b10#2 := by
  have hshape := exec_shape i s
  rw [h] at hshape
  generalize ho : Host.Outcome.refused Refusal.reservedCbie = o at hshape
  cases hshape with
  | invalA rs1 => exact invalSchemeA_reservedCbie _ _ _ ho.symm
  | invalB rs1 hB => cases invalSchemeB_refused _ _ _ ho.symm
  | gated i field kind rs1 => cases gatedCacheOp_refused _ _ _ _ _ _ ho.symm
  | noRule i => cases ho
  | csr i csr rd form => cases csrAccess_refused _ _ _ _ _ _ ho.symm

/-- A step is refused as `reservedCbie` by the instruction it executes alone. -/
theorem step_reservedCbie (s : State) (h : step s = .refused .reservedCbie) :
    ∃ i, exec i s.beforeExec = .refused .reservedCbie := by
  unfold step at h
  split at h
  · cases h
  · split at h
    · cases h
    · split at h
      · rename_i e _
        cases e <;> cases h
      · exact ⟨_, h⟩

theorem legalSets_cbie_ne_reserved (l : LegalSets) (v : BitVec 2) (h : l.wf = true) (hv : l.cbie.contains v = true) :
    v ≠ 0b10#2 := by
  rintro rfl
  simp only [LegalSets.wf, hv, Bool.not_true, Bool.and_false, Bool.false_and, Bool.false_eq_true] at h

/-- Under scheme A a legal register does not hold the reserved `CBIE` value (R17). -/
theorem legalCsr_cbie_ne_reserved (c : Config) (r : CmoReg) (v : CmoCsr) (hc : c.wf = true) (hA : c.scheme = .A)
    (h : legalCsr c r v = true) : v.a.cbie ≠ 0b10#2 := by
  simp only [legalCsr, hA, Bool.and_eq_true] at h
  obtain ⟨⟨hcbie, -⟩, -⟩ := h
  exact legalSets_cbie_ne_reserved _ _ (config_legal_wf c r hc) hcbie

/-- Settles O18: no register holds the reserved value in `s`, nor in the state in which the step's instruction executes. -/
theorem reservedCbieIsUnreachable : Obligations.ReservedCbieIsUnreachable := by
  intro s i hs hA
  have hnone (t : State) (ht : Inv t) (htA : t.cfg.scheme = .A) (r : CmoReg) : (t.csr r).a.cbie ≠ 0b10#2 :=
    legalCsr_cbie_ne_reserved _ r _ ht.config htA (ht.legal r)
  refine ⟨hnone s hs hA, fun h => ?_, fun h => ?_⟩
  · obtain ⟨r, hr⟩ := exec_reservedCbie i s h
    exact hnone s hs hA r hr
  · obtain ⟨j, hj⟩ := step_reservedCbie s h
    obtain ⟨r, hr⟩ := exec_reservedCbie j _ hj
    exact hnone _ hs.beforeExec (by simpa using hA) r hr

/-! ### Which steps change a control register (R29, R90) -/

/-- Whether an access is allowed depends on the mode and the presence of the h-register alone. -/
theorem AccessAllowed.congr {s t : State} {r : CmoReg} (h : AccessAllowed s r) (hmode : t.curMode = s.curMode)
    (hpresent : t.hPresent = s.hPresent) : AccessAllowed t r := by
  cases r <;> simpa [AccessAllowed, hmode, hpresent] using h

/-- The only effect that changes a control register is an allowed write of it, which changes no other and not the mode. -/
theorem Effect.changed_csr {s t : State} (h : Effect s t) (r : CmoReg) (hr : t.csr r ≠ s.csr r) :
    AccessAllowed s r ∧ t.curMode = s.curMode ∧ ∀ r', r' ≠ r → t.csr r' = s.csr r' := by
  cases h with
  | cacheOp kind rs1 ht => exact absurd (by simp [ht]) hr
  | access kind rs1 ht =>
    subst ht
    exact absurd (csr_cacheOp s kind (s.x rs1) r) hr
  | trap k info _ _ ht => exact absurd (by simp [ht]) hr
  | accessTrap k info _ _ ht =>
    subst ht
    exact absurd (csr_takeTrap s k info r) hr
  | csrRead q rd _ ht => exact absurd (by simp [ht]) hr
  | csrWrite q rd w ha ht =>
    have hq : r = q := by
      by_contra hne
      exact hr (by simp [ht, csr_csrWrite_other s q r w hne])
    subst hq
    exact ⟨(checkAccess_none s r).mp ha, by simp [ht], fun r' hne => by simp [ht, csr_csrWrite_other s r r' w hne]⟩

theorem csr_beforeExec (s : State) (r : CmoReg) : s.beforeExec.csr r = s.csr r :=
  csr_congr _ _ r (beforeExec_mcmo s) (beforeExec_scmo s) (beforeExec_hcmo s)

/-- Settles O45: what happens before the instruction changes no register, and of its effects only an allowed write does. -/
theorem onlyPermittedModesChangeControlRegisters : Obligations.OnlyPermittedModesChangeControlRegisters := by
  intro s t r h hr
  obtain ⟨-, i, hi⟩ := step_next s t h
  obtain ⟨hallowed, hmode, hothers⟩ := (exec_effect i _ t hi).changed_csr r (by rwa [csr_beforeExec])
  refine ⟨hallowed.congr (by simp) (by simp [State.hPresent]), by simpa using hmode, fun r' hne => ?_⟩
  rw [hothers r' hne, csr_beforeExec]

/-! ### What an allowed access of a control register does (R91 to R94) -/

section
variable {csr : CsrNum} {r : CmoReg} {s : State}

theorem csrAccess_allowed_read (i : Instr) (rd : RegNum) (form : Word → Option Word) (hr : s.cfg.regOf csr = some r)
    (ha : AccessAllowed s r) (hform : form (s.csrRead r) = none) :
    csrAccess i csr rd form s = .next (s.setX rd (s.csrRead r)).advance := by
  simp only [csrAccess, hr, (checkAccess_none s r).mpr ha, hform]

theorem csrAccess_allowed_write (i : Instr) (rd : RegNum) (form : Word → Option Word) (w : Word)
    (hr : s.cfg.regOf csr = some r) (ha : AccessAllowed s r) (hform : form (s.csrRead r) = some w) :
    csrAccess i csr rd form s = .next ((s.csrWrite r w).setX rd (s.csrRead r)).advance := by
  simp only [csrAccess, hr, (checkAccess_none s r).mpr ha, hform]

theorem exec_csrrw_allowed (rd rs1 : RegNum) (hr : s.cfg.regOf csr = some r) (ha : AccessAllowed s r) :
    exec (.csrrw rd csr rs1) s = .next ((s.csrWrite r (s.x rs1)).setX rd (s.csrRead r)).advance :=
  csrAccess_allowed_write (.csrrw rd csr rs1) rd (writeForm (s.regOperand rs1)) _ hr ha rfl

theorem exec_csrrwi_allowed (rd : RegNum) (uimm : BitVec 5) (hr : s.cfg.regOf csr = some r) (ha : AccessAllowed s r) :
    exec (.csrrwi rd csr uimm) s = .next ((s.csrWrite r (immOperand uimm)).setX rd (s.csrRead r)).advance :=
  csrAccess_allowed_write (.csrrwi rd csr uimm) rd (writeForm (immOperand uimm)) _ hr ha rfl

/-- `csrrs` with `rs1 = x0` reads and does not write (R92). -/
theorem exec_csrrs_zero_allowed (rd : RegNum) (hr : s.cfg.regOf csr = some r) (ha : AccessAllowed s r) :
    exec (.csrrs rd csr 0#5) s = .next (s.setX rd (s.csrRead r)).advance :=
  csrAccess_allowed_read (.csrrs rd csr 0#5) rd (setForm 0#5 (s.regOperand 0#5)) hr ha rfl

end

/-- What the written register holds once the access is complete. -/
theorem csr_written (s : State) (r : CmoReg) (rd : RegNum) (w v : Word) :
    ((s.csrWrite r w).setX rd v).advance.csr r = legalizedCsr s.cfg r (s.csr r) (trunc s.cfg w) := by
  simp [csr_csrWrite_same]

/-- Settles O31: `legalize` answers legal values, of which the reserved one is none. -/
theorem writtenRegisterHoldsLegalValues : Obligations.WrittenRegisterHoldsLegalValues := by
  intro s csr r rd field hc hr ha
  have hlegal (w v : Word) : legalCsr s.cfg r (((s.csrWrite r w).setX rd v).advance.csr r) = true := by
    rw [csr_written]
    exact legalizedCsr_legal _ _ _ _ hc
  exact ⟨⟨_, exec_csrrw_allowed rd field hr ha, hlegal _ _,
      fun hA => legalCsr_cbie_ne_reserved _ r _ hc hA (hlegal _ _)⟩,
    ⟨_, exec_csrrwi_allowed rd field hr ha, hlegal _ _,
      fun hA => legalCsr_cbie_ne_reserved _ r _ hc hA (hlegal _ _)⟩⟩

/-! ### Reading back what was written (R22, R24, R40) -/

/-- A bit of a word, moved out and back in, stays where it is. -/
theorem bitAt_getLsbD (w : Word) (p j : Nat) (hj : j < 64) :
    (bitAt (w.getLsbD p) p).getLsbD j = (decide (j = p) && w.getLsbD j) := by
  by_cases hp : j = p
  · subst hp
    cases hw : w.getLsbD j <;> simp [bitAt, hj]
  · cases hw : w.getLsbD p <;> simp [bitAt, hp, ← BitVec.twoPow_eq, Ne.symm hp]

/-- The bits of a word at the two positions of `CBIE`, moved out and back in, stay where they are. -/
theorem cbie_getLsbD (w : Word) (p j : Nat) (hj : j < 64) :
    (((w >>> p).setWidth 2).setWidth 64 <<< p).getLsbD j = (decide (j = p ∨ j = p + 1) && w.getLsbD j) := by
  rw [BitVec.getLsbD_shiftLeft, BitVec.getLsbD_setWidth, BitVec.getLsbD_setWidth, BitVec.getLsbD_ushiftRight]
  by_cases hlo : j < p
  · have hne : ¬(j = p ∨ j = p + 1) := by omega
    simp [hlo, hne]
  · have hadd : p + (j - p) = j := by omega
    have hlt : j - p < 2 ↔ (j = p ∨ j = p + 1) := by omega
    simp [hj, hlo, hadd, hlt, show j - p < 64 by omega]

theorem fieldBits_lt (c : Config) (hc : c.wf = true) (j : Nat) (hj : j ∈ fieldBits c) : j < c.xlen.bits := by
  simp only [Config.wf, Bool.and_eq_true, List.all_eq_true, decide_eq_true_eq] at hc
  obtain ⟨⟨⟨⟨⟨⟨⟨⟨-, hbits⟩, -⟩, -⟩, -⟩, -⟩, -⟩, -⟩, -⟩ := hc
  unfold fieldBits at hj
  split at hj
  · exact hbits j (List.mem_append_left _ hj)
  · exact hbits j (List.mem_append_right _ hj)

/-- The word of a register whose fields hold the bits of `w` is `w` less the bits that are no field's (R22, R24). -/
theorem packCsr_of_holdsFields (c : Config) (v : CmoCsr) (w : Word) (hc : c.wf = true) (h : HoldsFieldsOf c w v) (j : Nat) :
    (packCsr c v).getLsbD j = (decide (j ∈ fieldBits c) && w.getLsbD j) := by
  by_cases hj : j < c.xlen.bits
  · have hj64 : j < 64 := hj.trans_le (by cases c.xlen <;> decide)
    unfold packCsr fieldBits
    unfold HoldsFieldsOf at h
    cases hs : c.scheme <;> simp only [hs] at h ⊢
    · obtain ⟨hcbie, hcbcfe, hcbze⟩ := h
      simp only [trunc_getLsbD, hj, BitVec.getLsbD_or, hcbie, hcbcfe, hcbze, cbie_getLsbD _ _ _ hj64,
        bitAt_getLsbD _ _ _ hj64, ← Bool.and_or_distrib_right]
      simp [FieldPositions.usedA, Bool.or_assoc]
    · obtain ⟨hw0e, hw1e, hw0i, hw1i⟩ := h
      simp only [trunc_getLsbD, hj, BitVec.getLsbD_or, hw0e, hw1e, hw0i, hw1i, bitAt_getLsbD _ _ _ hj64,
        ← Bool.and_or_distrib_right]
      simp [FieldPositions.usedB, Bool.or_assoc]
  · have hout : j ∉ fieldBits c := fun hmem => hj (fieldBits_lt c hc j hmem)
    rw [← packCsr_trunc, trunc_getLsbD]
    simp [hj, hout]

/-- Settles O32: the written register holds the fields of the word, and its own word is what the next instruction reads. -/
theorem legalWordReadsBackNext : Obligations.LegalWordReadsBackNext := by
  intro s csr r rd rs1 rd2 hc hr ha hlegal hrd2
  have hholds : HoldsFieldsOf s.cfg (s.x rs1) (((s.csrWrite r (s.x rs1)).setX rd (s.csrRead r)).advance.csr r) := by
    rw [csr_written, x_trunc]
    exact legalizedCsr_of_legalWord _ _ _ _ hlegal
  refine ⟨_, _, exec_csrrw_allowed rd rs1 hr ha, hholds,
    exec_csrrs_zero_allowed rd2 (by simpa using hr) (ha.congr (by simp) (by simp [State.hPresent])), fun j => ?_⟩
  rw [x_advance, x_setX, if_pos ⟨rfl, hrd2⟩]
  simpa [State.csrRead] using packCsr_of_holdsFields _ _ _ hc hholds j

/-! ### The hart after reset (R121) -/

/-- In M-mode under scheme A no register governs, so a cache-block instruction executes (R50, R52). -/
theorem exec_cacheBlock_of_machineMode (i : Instr) (s : State) (hi : isCacheBlockInstr i = true) (hA : s.cfg.scheme = .A)
    (hm : s.curMode = .m) : ∃ kind rs1, exec i s = completeCacheOp kind rs1 s := by
  have hg : s.governors = some [] := by simp [governors_eq, hm, governing]
  cases i with
  | cboInval rs1 => exact ⟨.invalidate, rs1, by simp [exec, execCboInval, hA, invalSchemeA, hg]⟩
  | cboClean rs1 => exact ⟨.clean, rs1, by simp [exec, execCboClean, hA, gatedCacheOp, hg]⟩
  | cboFlush rs1 => exact ⟨.flush, rs1, by simp [exec, execCboFlush, hA, gatedCacheOp, hg]⟩
  | cboZero rs1 => exact ⟨.zero, rs1, by simp [exec, execCboZero, hA, gatedCacheOp, hg]⟩
  | csrrw rd csr rs1 => cases hi
  | csrrs rd csr rs1 => cases hi
  | csrrc rd csr rs1 => cases hi
  | csrrwi rd csr uimm => cases hi
  | csrrsi rd csr uimm => cases hi
  | csrrci rd csr uimm => cases hi

theorem accessAllowed_of_machineMode (s : State) (r : CmoReg) (hm : s.curMode = .m) (hp : r = .h → s.hPresent = true) :
    AccessAllowed s r := by
  cases r with
  | m => exact hm
  | s => exact Or.inl hm
  | h => exact ⟨hp rfl, Or.inl hm⟩

/-- Settles O42: the hart comes up in M-mode, where every cache-block instruction executes and every access is allowed. -/
theorem resetHartRunsEverything : Obligations.ResetHartRunsEverything := by
  intro c d s
  have hm : s.curMode = .m := rfl
  refine ⟨hm, rfl, rfl, rfl, rfl, fun hA i hi => ?_, fun csr r rd rs1 hr hp => ?_⟩
  · obtain ⟨kind, rs1, hexec⟩ := exec_cacheBlock_of_machineMode i s hi hA hm
    exact ⟨_, hexec, by simp [s, State.resetWith]⟩
  · refine ⟨_, exec_csrrw_allowed rd rs1 hr (accessAllowed_of_machineMode s r hm hp), ?_⟩
    rw [csr_written, x_trunc]
    exact writtenTo_legalizedCsr c r _ _

/-! ### Inputs by access (R21, R71) -/

theorem access_congr (s t : State) (hi : t.inputs = s.inputs) (ha : t.accesses = s.accesses) : t.access = s.access := by
  simp [State.access, hi, ha]

theorem raise_accesses (k : ExceptionKind) (info : Word) (s t : State) (h : raise k info s = .next t) :
    t.accesses = s.accesses := by
  obtain ⟨-, rfl⟩ := raise_next k info s t h
  exact takeTrap_accesses s k info

theorem completeCacheOp_accesses (kind : CacheOpKind) (rs1 : RegNum) (s t : State)
    (h : completeCacheOp kind rs1 s = .next t) : t.accesses = s.accesses := by
  cases h
  simp

theorem gatedCacheOp_accesses (field : CmoCsr → Bool) (kind : CacheOpKind) (i : Instr) (rs1 : RegNum) (s t : State)
    (h : gatedCacheOp field kind i rs1 s = .next t) : t.accesses = s.accesses := by
  unfold gatedCacheOp at h
  split at h
  · cases h
  · split at h
    · exact completeCacheOp_accesses _ _ _ _ h
    · exact raise_accesses _ _ _ _ h

theorem invalSchemeA_accesses (i : Instr) (rs1 : RegNum) (s t : State) (h : invalSchemeA i rs1 s = .next t) :
    t.accesses = s.accesses := by
  unfold invalSchemeA at h
  split at h
  · cases h
  · split at h
    · exact raise_accesses _ _ _ _ h
    · split at h
      · cases h
      · split at h <;> exact completeCacheOp_accesses _ _ _ _ h

/-- `CBO.INVAL` under scheme B is one access, whether it executes or takes an exception (R71, R85). -/
theorem invalSchemeB_accesses (rs1 : RegNum) (s t : State) (h : invalSchemeB rs1 s = .next t) :
    t.accesses = s.accesses + 1 := by
  unfold invalSchemeB at h
  split at h
  · cases h
  · obtain ⟨u, hu, rfl⟩ := mapNext_next _ _ _ h
    have hsame : u.accesses = s.accesses := by
      split at hu
      · exact raise_accesses _ _ _ _ hu
      · exact completeCacheOp_accesses _ _ _ _ hu
    rw [countAccess_accesses, hsame]

theorem csrAccess_accesses (i : Instr) (csr : CsrNum) (rd : RegNum) (form : Word → Option Word) (s t : State)
    (h : csrAccess i csr rd form s = .next t) : t.accesses = s.accesses := by
  unfold csrAccess at h
  split at h
  · cases h
  · split at h
    · exact raise_accesses _ _ _ _ h
    · split at h <;> cases h <;> simp

/-- No instruction but `CBO.INVAL` under scheme B is an access. -/
theorem exec_accesses_other (i : Instr) (s t : State) (h : exec i s = .next t)
    (hother : s.cfg.scheme = .A ∨ ∀ rs1, i ≠ .cboInval rs1) : t.accesses = s.accesses := by
  have hshape := exec_shape i s
  rw [h] at hshape
  generalize ho : Host.Outcome.next t = o at hshape
  cases hshape with
  | invalA rs1 => exact invalSchemeA_accesses _ _ _ _ ho.symm
  | invalB rs1 hB => simp [hB] at hother
  | gated i field kind rs1 => exact gatedCacheOp_accesses _ _ _ _ _ _ ho.symm
  | noRule i => cases ho
  | csr i csr rd form => exact csrAccess_accesses _ _ _ _ _ _ ho.symm

/-- Settles O53: the inputs stay as they are, and the count of accesses rises with `CBO.INVAL` under scheme B alone. -/
theorem eachAccessHasItsOwnInputs : Obligations.EachAccessHasItsOwnInputs := by
  intro s t i h
  obtain ⟨-, -, hinputs⟩ := (exec_effect i s t h).parameters
  refine ⟨fun hB hi => ?_, fun hother => access_congr s t hinputs (exec_accesses_other i s t h hother)⟩
  obtain ⟨rs1, rfl⟩ := hi
  simp only [exec, execCboInval, hB] at h
  rw [State.access, hinputs, invalSchemeB_accesses rs1 s t h]

section
variable {inputs : Inputs} {s : State}

theorem effMode_withInputs (h : (withInputs inputs s).access = s.access) :
    (withInputs inputs s).effMode = s.effMode := by
  unfold State.effMode
  rw [h]
  rfl

theorem recordsGuestAddress_withInputs (h : (withInputs inputs s).access = s.access) (k : ExceptionKind) :
    (withInputs inputs s).recordsGuestAddress k = s.recordsGuestAddress k := by
  cases k <;> simp only [State.recordsGuestAddress, effMode_withInputs h]

theorem guestAddressRecorded_withInputs (h : (withInputs inputs s).access = s.access) (k : ExceptionKind) (old : Word) :
    (withInputs inputs s).guestAddressRecorded k old = s.guestAddressRecorded k old := by
  unfold State.guestAddressRecorded
  rw [h]
  rfl

/-- What a trap records of the inputs is the effective mode and the guest physical address of this access (R101). -/
theorem takeTrap_withInputs (h : (withInputs inputs s).access = s.access) (k : ExceptionKind) (info : Word) :
    (withInputs inputs s).takeTrap k info = withInputs inputs (s.takeTrap k info) := by
  have hlevel : (withInputs inputs s).trapLevel k = s.trapLevel k := rfl
  unfold State.takeTrap
  rw [hlevel]
  cases s.trapLevel k with
  | m =>
    simp only [State.enterM, recordsGuestAddress_withInputs h, guestAddressRecorded_withInputs h]
    rfl
  | hs =>
    simp only [State.enterHs, State.hstatusOnEntry, recordsGuestAddress_withInputs h, guestAddressRecorded_withInputs h]
    rfl
  | vs => rfl

theorem withInputs_unnoticed (h : (withInputs inputs s).access = s.access) : Unnoticed (withInputs inputs) s where
  cfg := rfl
  curMode := rfl
  hPresent := rfl
  x _ := rfl
  csrRead r _ := by cases r <;> rfl
  csrWrite r _ _ := by cases r <;> rfl
  finish t rd v := by
    unfold State.setX
    split <;> rfl
  countAccess _ := rfl
  complete kind _ := by cases kind <;> rfl
  raise k info := by
    have hcfg : (withInputs inputs s).cfg = s.cfg := rfl
    unfold raise
    rw [hcfg, takeTrap_withInputs h]
    cases s.cfg.trapModel <;> rfl

theorem bareS_withInputs (h : (withInputs inputs s).access = s.access) (hs : inputs.satpBare = s.inputs.satpBare)
    (hv : inputs.vsatpBare = s.inputs.vsatpBare) : (withInputs inputs s).bareS = s.bareS := by
  unfold State.bareS
  rw [effMode_withInputs h, ← hs, ← hv]
  rfl

theorem invwFault_withInputs (h : (withInputs inputs s).access = s.access)
    (hs : (withInputs inputs s).bareS = s.bareS) (hh : (withInputs inputs s).bareH = s.bareH) :
    (withInputs inputs s).invwFault = s.invwFault := by
  have hem : (withInputs inputs s).em = s.em := by rw [State.em, h]; rfl
  have hes : (withInputs inputs s).es = s.es := by rw [State.es, h, hs]; rfl
  have heh : (withInputs inputs s).eh = s.eh := by rw [State.eh, h, hh]; rfl
  simp only [State.invwFault, effMode_withInputs h, hem, hes, heh]

theorem invwInvalidates_withInputs (h : (withInputs inputs s).access = s.access)
    (hs : (withInputs inputs s).bareS = s.bareS) (hh : (withInputs inputs s).bareH = s.bareH) :
    (withInputs inputs s).invwInvalidates = s.invwInvalidates := by
  have him : (withInputs inputs s).im = s.im := by rw [State.im, h]; rfl
  have his : (withInputs inputs s).is = s.is := by rw [State.is, h, hs]; rfl
  have hih : (withInputs inputs s).ih = s.ih := by rw [State.ih, h, hh]; rfl
  simp only [State.invwInvalidates, effMode_withInputs h, him, his, hih]

end

/-- Settles O52: a change of the inputs that keeps those of this access and the `Bare` Booleans is unnoticed, and keeps what
decides `CBO.INVAL` under scheme B. -/
theorem otherAccessInputsHaveNoEffect : Obligations.OtherAccessInputsHaveNoEffect := by
  intro s i inputs hs hv hh haccess
  have hf := withInputs_unnoticed haccess
  cases hscheme : s.cfg.scheme with
  | A => exact exec_unnoticed_schemeA hf hscheme (fun r _ => by cases r <;> rfl) i
  | B =>
    have hbareS := bareS_withInputs haccess hs hv
    exact exec_unnoticed_schemeB hf hscheme (effMode_withInputs haccess) (invwFault_withInputs haccess hbareS hh)
      (invwInvalidates_withInputs haccess hbareS hh) i

end Sys2Proof.Machine
end

section
/-! Memory as this hart sees it: what a fetch finds (R35, R37), a program placed at the pc, the updates that arrive between two
instructions (R32, R37), and what a recorded cache-block operation does to the bytes of its block and leaves of the others (R32,
R33). -/

namespace Sys2Proof.Machine

/-! ### What a fetch finds (R37, N20; log 17) -/

/-- The values a fetch may find beside what a read finds: below the cached copy, in memory, and those the byte had. -/
theorem mem_fetchChoices (s : State) (a : Nat) (v : Option Byte) :
    v ∈ s.fetchChoices a ↔ v = s.stored a ∨ v = Memory.read s.mem a ∨ ∃ b, (a, b) ∈ s.past ∧ v = some b := by
  have hpast : v ∈ (s.past.filter fun c => c.1 == a).map (fun c => some c.2) ↔ ∃ b, (a, b) ∈ s.past ∧ v = some b := by
    simp only [List.mem_map, List.mem_filter, beq_iff_eq]
    constructor
    · rintro ⟨⟨a', b⟩, ⟨hmem, rfl⟩, rfl⟩
      exact ⟨b, hmem, rfl⟩
    · rintro ⟨b, hmem, rfl⟩
      exact ⟨(a, b), ⟨hmem, rfl⟩, rfl⟩
  rw [State.fetchChoices, List.mem_cons, List.mem_cons, hpast]

/-- Settles O50: what a fetch finds beside a read is one of its choices, and a plain byte leaves it none. -/
theorem fetchFindsAHeldValue : Obligations.FetchFindsAHeldValue := by
  refine fun s a => ⟨?_, fun hpending hmodified hpast =>
    fetchByte_settled s a (fetchSettled_of_plain s a hpending hmodified hpast)⟩
  rcases fetchByte_mem s a with hread | hchoice
  · exact Or.inl hread
  · exact Or.inr ((mem_fetchChoices s a _).mp hchoice)

/-! ### Between two instructions (R32, R37; logs 9, 23) -/

theorem arrive_of_none_pending (s : State) (h : s.pending = []) : s.arrive = s := by
  simp [State.arrive, h]

theorem fetched_of_settled (s : State) (h : ∀ k < 4, s.fetchSettled (s.pc.toNat + k) = true) : s.fetched = s := by
  have h0 : s.fetchSettled s.pc.toNat = true := h 0 (by omega)
  simp [State.fetched, h0, h 1 (by omega), h 2 (by omega), h 3 (by omega)]

theorem beforeExec_mem (s : State) : s.beforeExec.mem = s.arrive.mem := fetched_mem _

theorem beforeExec_pending (s : State) : s.beforeExec.pending = s.arrive.pending := fetched_pending _

theorem beforeExec_onlyArrivalsDiffer (s : State) (h : Memory.wf s.pending) : OnlyArrivalsDiffer s s.beforeExec where
  hart := by simp
  csrs := by simp
  inputs := by simp
  events := beforeExec_events s
  modified := beforeExec_modified s
  reads a := readByte_beforeExec s a h
  arrivals a := by
    rw [beforeExec_pending, beforeExec_mem]
    exact arrive_cases s a h

/-- Settles O49: what arrives is `arrive_cases`, and with nothing on its way and a settled fetch there is nothing to draw. -/
theorem betweenInstructionsOnlyUpdatesArrive : Obligations.BetweenInstructionsOnlyUpdatesArrive := by
  refine fun s => ⟨beforeExec_onlyArrivalsDiffer s, fun hpending hsettled => ?_⟩
  rw [State.beforeExec, arrive_of_none_pending s hpending, fetched_of_settled s hsettled]

/-! ### A byte placed in memory (log 18) -/

/-- An address reads as nothing exactly where no cell has it. -/
theorem memory_read_none_iff (m : Memory) (a : Nat) : Memory.read m a = none ↔ ∀ c ∈ m, c.1 ≠ a := by
  induction m with
  | nil => simp
  | cons c m ih =>
    rw [Memory.read, List.forall_mem_cons, ← ih]
    split <;> simp_all

theorem read_pending_placeByte (s : State) (a b : Nat) (v : Byte) :
    Memory.read (s.placeByte a v).pending b = if b = a then none else Memory.read s.pending b := by
  simp [State.placeByte, memory_read_dropWhere]

theorem read_modified_placeByte (s : State) (a b : Nat) (v : Byte) :
    Memory.read (s.placeByte a v).modified b = if b = a then none else Memory.read s.modified b := by
  simp [State.placeByte, memory_read_dropWhere]

theorem mem_past_placeByte (s : State) (a : Nat) (v : Byte) (c : Host.Cell) :
    c ∈ (s.placeByte a v).past ↔ c ∈ s.past ∧ c.1 ≠ a := by
  simp [State.placeByte]

/-- Memory itself holds the byte `v` at `a`, and there is nothing else about `a` that a read or a fetch could find. -/
structure HoldsOnly (s : State) (a : Nat) (v : Byte) : Prop where
  mem : Memory.read s.mem a = some v
  modified : Memory.read s.modified a = none
  pending : Memory.read s.pending a = none
  past : ∀ c ∈ s.past, c.1 ≠ a

section
variable {s : State} {a : Nat} {v : Byte}

theorem HoldsOnly.fetchSettled (h : HoldsOnly s a v) : s.fetchSettled a = true :=
  fetchSettled_of_plain s a h.pending h.modified h.past

theorem HoldsOnly.fetchByte (h : HoldsOnly s a v) : s.fetchByte a = some v := by
  rw [fetchByte_settled s a h.fetchSettled]
  simp [State.readByte, State.stored, h.mem, h.modified, h.pending]

/-- An arrival changes only bytes that were on their way to memory. -/
theorem HoldsOnly.arrive (h : HoldsOnly s a v) : HoldsOnly s.arrive a v := by
  have harriving : Memory.read s.arriving a = none := by simp [read_arriving, h.pending]
  unfold State.arrive
  split
  · exact h
  · exact
      { mem := (memory_read_writeAll_other _ _ a ((memory_read_none_iff _ a).mp harriving)).trans h.mem
        modified := h.modified
        pending := by simp [memory_read_dropWhere, h.pending]
        past := fun c hc => by
          rcases List.mem_append.mp hc with hc | hc
          · exact h.past c hc
          · rintro rfl
            simp [Memory.replacedBy, harriving] at hc }

theorem HoldsOnly.placeByte_other (h : HoldsOnly s a v) (b : Nat) (w : Byte) (hb : a ≠ b) :
    HoldsOnly (s.placeByte b w) a v where
  mem := (memory_read_write_other s.mem b a w hb).trans h.mem
  modified := by simp [read_modified_placeByte, h.modified]
  pending := by simp [read_pending_placeByte, h.pending]
  past c hc := h.past c ((mem_past_placeByte s b w c).mp hc).1

end

theorem holdsOnly_placeByte (s : State) (a : Nat) (v : Byte) : HoldsOnly (s.placeByte a v) a v where
  mem := memory_read_write_same s.mem a v
  modified := by simp [read_modified_placeByte]
  pending := by simp [read_pending_placeByte]
  past c hc := ((mem_past_placeByte s a v c).mp hc).2

theorem fetchByte_congr (s t : State) (a : Nat) (hread : t.readByte a = s.readByte a)
    (hchoices : t.fetchChoices a = s.fetchChoices a) (hdraws : t.draws = s.draws) : t.fetchByte a = s.fetchByte a := by
  have hsettled : t.fetchSettled a = s.fetchSettled a := by
    rw [State.fetchSettled, State.fetchSettled, hchoices, hread]
  rw [State.fetchByte, State.fetchByte, hsettled, hchoices, hread, hdraws]

/-- Placing a byte changes nothing that a read or a fetch finds at another address. -/
theorem placeByte_other (s : State) (a b : Nat) (v : Byte) (h : b ≠ a) :
    (s.placeByte a v).readByte b = s.readByte b ∧ (s.placeByte a v).fetchByte b = s.fetchByte b := by
  have hmem : Memory.read (s.placeByte a v).mem b = Memory.read s.mem b := memory_read_write_other s.mem a b v h
  have hstored : (s.placeByte a v).stored b = s.stored b := by
    rw [State.stored, State.stored, read_pending_placeByte, if_neg h, hmem]
  have hread : (s.placeByte a v).readByte b = s.readByte b := by
    rw [State.readByte, State.readByte, read_modified_placeByte, if_neg h, hstored]
  have hpast : (s.placeByte a v).past.filter (fun c => c.1 == b) = s.past.filter (fun c => c.1 == b) := by
    rw [State.placeByte, List.filter_filter]
    refine List.filter_congr fun c _ => ?_
    by_cases hc : c.1 = b <;> simp [hc, h]
  have hchoices : (s.placeByte a v).fetchChoices b = s.fetchChoices b := by
    rw [State.fetchChoices, State.fetchChoices, hstored, hmem, hpast]
  exact ⟨hread, fetchByte_congr s _ b hread hchoices rfl⟩

/-! ### Bytes placed at consecutive addresses -/

@[simp] theorem placeBytes_pc (s : State) (a : Nat) (vs : List Byte) : (s.placeBytes a vs).pc = s.pc := by
  induction vs generalizing s a with
  | nil => rfl
  | cons v vs ih => exact ih (s.placeByte a v) (a + 1)

theorem placeBytes_pending_nil (s : State) (a : Nat) (vs : List Byte) (h : s.pending = []) :
    (s.placeBytes a vs).pending = [] := by
  induction vs generalizing s a with
  | nil => exact h
  | cons v vs ih => exact ih (s.placeByte a v) (a + 1) (by simp [State.placeByte, Memory.dropWhere, h])

theorem placeBytes_other (s : State) (a b : Nat) (vs : List Byte) (h : b < a ∨ a + vs.length ≤ b) :
    (s.placeBytes a vs).readByte b = s.readByte b ∧ (s.placeBytes a vs).fetchByte b = s.fetchByte b := by
  induction vs generalizing s a with
  | nil => exact ⟨rfl, rfl⟩
  | cons v vs ih =>
    rw [List.length_cons] at h
    obtain ⟨hread, hfetch⟩ := placeByte_other s a b v (by omega)
    obtain ⟨ihread, ihfetch⟩ := ih (s.placeByte a v) (a + 1) (by omega)
    exact ⟨ihread.trans hread, ihfetch.trans hfetch⟩

/-- Placing bytes above an address leaves what stands there. -/
theorem HoldsOnly.placeBytes_above {s : State} {a : Nat} {v : Byte} (h : HoldsOnly s a v) (b : Nat) (vs : List Byte)
    (hb : a < b) : HoldsOnly (s.placeBytes b vs) a v := by
  induction vs generalizing s b with
  | nil => exact h
  | cons w vs ih => exact ih (h.placeByte_other b w (by omega)) (b + 1) (by omega)

theorem holdsOnly_placeBytes (s : State) (a : Nat) (vs : List Byte) (k : Nat) (hk : k < vs.length) :
    HoldsOnly (s.placeBytes a vs) (a + k) vs[k] := by
  induction vs generalizing s a k with
  | nil => cases hk
  | cons v vs ih =>
    cases k with
    | zero => exact (holdsOnly_placeByte s a v).placeBytes_above (a + 1) vs (by omega)
    | succ k =>
      have hplaced := ih (s.placeByte a v) (a + 1) k (by simpa using hk)
      rwa [Nat.add_right_comm, Nat.add_assoc] at hplaced

/-! ### A word placed at the pc is fetched and decoded (R35, R41 to R43) -/

/-- Each row's fixed fields lead the decoder to that row, which takes its operands from the fields that hold them. -/
theorem decode_encode (i : Instr) : decode (encode i) = .ok i := by
  cases i with
  | cboInval rs1 => simp [encode, decode_of_opcode, decodeMiscMem]
  | cboClean rs1 => simp [encode, decode_of_opcode, decodeMiscMem]
  | cboFlush rs1 => simp [encode, decode_of_opcode, decodeMiscMem]
  | cboZero rs1 => simp [encode, decode_of_opcode, decodeMiscMem]
  | csrrw rd csr rs1 => simp [encode, decode_of_opcode, decodeSystem, opSystem, opMiscMem]
  | csrrs rd csr rs1 => simp [encode, decode_of_opcode, decodeSystem, opSystem, opMiscMem]
  | csrrc rd csr rs1 => simp [encode, decode_of_opcode, decodeSystem, opSystem, opMiscMem]
  | csrrwi rd csr uimm => simp [encode, decode_of_opcode, decodeSystem, opSystem, opMiscMem]
  | csrrsi rd csr uimm => simp [encode, decode_of_opcode, decodeSystem, opSystem, opMiscMem]
  | csrrci rd csr uimm => simp [encode, decode_of_opcode, decodeSystem, opSystem, opMiscMem]

theorem decodeBytes_encode (i : Instr) : decodeBytes (bytesOfWord (encode i)) = .ok (i, []) := by
  simpa [decode_encode, Except.map] using decodeBytes_bytesOfWord (encode i) []

/-- The four bytes at the pc are those of the word `w`, and there is nothing else about them that a fetch could find. -/
def HoldsWordAtPc (s : State) (w : InstrWord) : Prop :=
  ∀ k (hk : k < (bytesOfWord w).length), HoldsOnly s (s.pc.toNat + k) (bytesOfWord w)[k]

theorem holdsWordAtPc_placeWord (s : State) (w : InstrWord) : HoldsWordAtPc (s.placeWord w) w := by
  intro k hk
  rw [State.placeWord, placeBytes_pc]
  exact holdsOnly_placeBytes s _ _ k hk

section
variable {s : State} {w : InstrWord}

theorem HoldsWordAtPc.arrive (h : HoldsWordAtPc s w) : HoldsWordAtPc s.arrive w := by
  intro k hk
  rw [arrive_pc]
  exact (h k hk).arrive

theorem HoldsWordAtPc.fetchBytes (h : HoldsWordAtPc s w) : s.fetchBytes = .ok (bytesOfWord w) := by
  have hbyte (k : Nat) (hk : k < 4) : s.fetchByte (s.pc.toNat + k) = some (bytesOfWord w)[k] := (h k hk).fetchByte
  have h0 : s.fetchByte s.pc.toNat = some (w.extractLsb' 0 8) := hbyte 0 (by omega)
  simp only [State.fetchBytes, h0, hbyte 1 (by omega), hbyte 2 (by omega), hbyte 3 (by omega)]
  rfl

theorem HoldsWordAtPc.fetched (h : HoldsWordAtPc s w) : s.fetched = s :=
  fetched_of_settled s fun k hk => (h k hk).fetchSettled

/-- The next step executes the instruction whose word stands at the pc, whatever arrives before it (R108). -/
theorem HoldsWordAtPc.step {i : Instr} (h : HoldsWordAtPc s (encode i)) (haligned : s.pc.toNat % 4 = 0) :
    step s = exec i s.arrive := by
  rw [stepRunsTheDecodedInstruction s _ _ i haligned h.arrive.fetchBytes (decodeBytes_encode i), State.beforeExec,
    h.arrive.fetched]

end

/-- Settles O7: the word stands at the pc with nothing else to fetch there, and the placement reaches no other address. -/
theorem placedInstructionRunsNext : Obligations.PlacedInstructionRunsNext := by
  intro s i haligned t
  have hpc : t.pc = s.pc := placeBytes_pc ..
  have hstep : step t = exec i t.arrive := (holdsWordAtPc_placeWord s (encode i)).step (by rwa [← hpc] at haligned)
  refine ⟨hstep, fun hpending => ?_, hpc, fun a ha => placeBytes_other s _ a _ ha⟩
  rw [hstep, arrive_of_none_pending t (placeBytes_pending_nil s _ _ hpending)]

/-! ### What an operation does to the bytes of its block and leaves of the others (R32, R33) -/

/-- No operation changes what a read finds outside its block. -/
theorem readByte_cacheOp_outside (s : State) (kind : CacheOpKind) (addr : Word) (a : Nat)
    (ha : inBlock s.cfg addr a = false) (hpos : 0 < s.cfg.cacheBlockBytes) (hw : Memory.wf s.modified) :
    (s.cacheOp kind addr).readByte a = s.readByte a := by
  cases kind with
  | clean => exact readByte_updateBlock s addr a hw
  | flush => exact readByte_updateBlock s addr a hw
  | invalidate => simp [State.cacheOp, readByte_invalidateBlock, ha]
  | zero => simp [State.cacheOp, readByte_zeroBlock s addr a hpos, ha]

/-- A clean or a flush sends the modified bytes of its block to memory (R32 b). -/
theorem updateBlock_sentToMemory (s : State) (addr : Word) (hw : Memory.wf s.modified) :
    SentToMemory addr s (s.updateBlock addr) where
  mem := rfl
  modifiedInside a v ha hv := by
    rw [read_pending_updateBlock s addr a hw, read_modified_updateBlock]
    simp [ha, hv]
  unmodifiedInside a ha hv := by
    rw [read_pending_updateBlock s addr a hw, read_modified_updateBlock]
    simp [ha, hv]
  outside a ha := by
    rw [read_pending_updateBlock s addr a hw, read_modified_updateBlock]
    simp [ha]

theorem SentToMemory.congr {addr : Word} {s t u : State} (h : SentToMemory addr s t) (hmem : u.mem = t.mem)
    (hpending : u.pending = t.pending) (hmodified : u.modified = t.modified) : SentToMemory addr s u where
  mem := hmem.trans h.mem
  modifiedInside := by rw [hpending, hmodified]; exact h.modifiedInside
  unmodifiedInside := by rw [hpending, hmodified]; exact h.unmodifiedInside
  outside := by rw [hpending, hmodified]; exact h.outside

/-- A clean and a flush differ in nothing but the kind they record (R33). -/
theorem cacheOp_of_clean_or_flush (s : State) (kind : CacheOpKind) (addr : Word) (h : kind = .clean ∨ kind = .flush) :
    s.cacheOp kind addr = (s.updateBlock addr).record kind addr := by
  rcases h with rfl | rfl <;> rfl

theorem cacheOp_sentToMemory (s : State) (kind : CacheOpKind) (addr : Word) (hkind : kind = .clean ∨ kind = .flush)
    (hw : Memory.wf s.modified) : SentToMemory addr s (s.cacheOp kind addr).advance := by
  rw [cacheOp_of_clean_or_flush s kind addr hkind]
  exact (updateBlock_sentToMemory s addr hw).congr rfl rfl rfl

/-! ### What a step records and what it leaves (R33, R37, R38) -/

/-- The instruction records nothing, and no byte, update on its way or draw changes. -/
structure RecordsNothing (s t : State) : Prop where
  mem : t.mem = s.mem
  events : t.events = s.events
  modified : t.modified = s.modified
  pending : t.pending = s.pending
  past : t.past = s.past
  draws : t.draws = s.draws

/-- The instruction performs one cache-block operation and the pc advances (R33, R53 to R56, R85). -/
structure Performs (kind : CacheOpKind) (addr : Word) (s t : State) : Prop where
  events : t.events = s.events ++ [{ hart := s.cfg.hartId, kind := kind, addr := addr }]
  pc : t.pc = trunc s.cfg (s.pc + 4)
  mem : t.mem = s.mem
  pending : t.pending = (s.cacheOp kind addr).pending
  modified : t.modified = (s.cacheOp kind addr).modified

theorem performs_advance (s : State) (kind : CacheOpKind) (addr : Word) :
    Performs kind addr s (s.cacheOp kind addr).advance where
  events := cacheOp_events ..
  pc := by simp
  mem := cacheOp_mem ..
  pending := rfl
  modified := rfl

theorem Performs.countAccess {kind : CacheOpKind} {addr : Word} {s t : State} (h : Performs kind addr s t) :
    Performs kind addr s t.countAccess := { h with }

/-- An instruction records nothing or performs one operation. -/
theorem Effect.recordsNothing_or_performs {s t : State} (h : Effect s t) :
    RecordsNothing s t ∨ ∃ kind addr, Performs kind addr s t := by
  cases h with
  | cacheOp kind rs1 h => exact Or.inr ⟨kind, _, h ▸ performs_advance s kind _⟩
  | access kind rs1 h => exact Or.inr ⟨kind, _, h ▸ (performs_advance s kind _).countAccess⟩
  | trap k info hm hi h => exact Or.inl (by constructor <;> simp [h])
  | accessTrap k info hm hi h => exact Or.inl (by constructor <;> simp [h])
  | csrRead r rd ha h => exact Or.inl (by constructor <;> simp [h])
  | csrWrite r rd w ha h => exact Or.inl (by constructor <;> simp [h])

/-- Settles O48: the instruction records nothing or performs one operation, in a state whose reads are those before the
step. -/
theorem eventsAreRecordedInProgramOrder : Obligations.EventsAreRecordedInProgramOrder := by
  intro s t h
  obtain ⟨-, i, hi⟩ := step_next s t h
  rcases (exec_effect i _ t hi).recordsNothing_or_performs with hnone | ⟨kind, addr, hperforms⟩
  · refine ⟨hnone.mem, Or.inl ⟨by simp [hnone.events], by simp [hnone.modified], hnone.pending, hnone.past, hnone.draws,
      fun hpending a => ?_⟩⟩
    rw [readByte_congr _ t a hnone.mem hnone.pending hnone.modified, readByte_beforeExec s a hpending]
  · refine ⟨hperforms.mem, Or.inr ⟨kind, addr, by simpa using hperforms.events, by simpa using hperforms.pc,
      fun a ha hpos hmodified hpending => ?_⟩⟩
    calc t.readByte a
        = (s.beforeExec.cacheOp kind addr).readByte a :=
          readByte_congr _ t a (by simp [hperforms.mem]) hperforms.pending hperforms.modified
      _ = s.beforeExec.readByte a :=
          readByte_cacheOp_outside _ kind addr a (by simpa using ha) (by simpa using hpos) (by simpa using hmodified)
      _ = s.readByte a := readByte_beforeExec s a hpending

/-- An instruction that recorded a clean or a flush of a block sent its modified bytes to memory (R32 b, R33). -/
theorem Effect.sentToMemory {s t : State} (h : Effect s t) (kind : CacheOpKind) (addr : Word)
    (hkind : kind = .clean ∨ kind = .flush) (hw : Memory.wf s.modified)
    (hevents : t.events = s.events ++ [{ hart := s.cfg.hartId, kind := kind, addr := addr }]) :
    SentToMemory addr s t := by
  rcases h.recordsNothing_or_performs with hnone | ⟨kind', addr', hperforms⟩
  · simp [hnone.events] at hevents
  · have hsame := hperforms.events
    simp only [hevents, List.append_cancel_left_eq, List.cons.injEq, CacheEvent.mk.injEq, true_and, and_true] at hsame
    obtain ⟨rfl, rfl⟩ := hsame
    exact (cacheOp_sentToMemory s kind addr hkind hw).congr (by simp [hperforms.mem]) hperforms.pending hperforms.modified

/-! ### A cache-block instruction that its governing registers enable (R51, R53 to R55) -/

section
variable {s : State} (rs1 : RegNum)

theorem gatedCacheOp_enabled (field : CmoCsr → Bool) (kind : CacheOpKind) (i : Instr) (hmode : ModeOfHart s)
    (h : ∀ r ∈ governing s.curMode, field (s.csr r) = true) :
    gatedCacheOp field kind i rs1 s = completeCacheOp kind rs1 s := by
  have hall : ((governing s.curMode).map s.csr).all field = true := by simpa using h
  simp only [gatedCacheOp, governors_of_mode s hmode, hall, if_true]

theorem exec_cboClean_enabled (hA : s.cfg.scheme = .A) (hmode : ModeOfHart s)
    (h : ∀ r ∈ governing s.curMode, (s.csr r).a.cbcfe = true) :
    exec (.cboClean rs1) s = completeCacheOp .clean rs1 s := by
  simp only [exec, execCboClean, hA]
  exact gatedCacheOp_enabled rs1 _ _ _ hmode h

theorem exec_cboFlush_enabled (hA : s.cfg.scheme = .A) (hmode : ModeOfHart s)
    (h : ∀ r ∈ governing s.curMode, (s.csr r).a.cbcfe = true) :
    exec (.cboFlush rs1) s = completeCacheOp .flush rs1 s := by
  simp only [exec, execCboFlush, hA]
  exact gatedCacheOp_enabled rs1 _ _ _ hmode h

/-- Where every governing `CBIE` is `01` or `11`, `CBO.INVAL` is a flush if one is `01` and an invalidate if none is (R53). -/
theorem exec_cboInval_enabled (hA : s.cfg.scheme = .A) (hmode : ModeOfHart s)
    (h : ∀ r ∈ governing s.curMode, (s.csr r).a.cbie = 0b01#2 ∨ (s.csr r).a.cbie = 0b11#2) :
    exec (.cboInval rs1) s =
      if ∃ r ∈ governing s.curMode, (s.csr r).a.cbie = 0b01#2 then completeCacheOp .flush rs1 s
      else completeCacheOp .invalidate rs1 s := by
  have hnot (k : BitVec 2) (h01 : 0b01#2 ≠ k) (h11 : 0b11#2 ≠ k) :
      ((governing s.curMode).map s.csr).any (fun v => v.a.cbie == k) = false := by
    simp only [List.any_map, List.any_eq_false, Function.comp_apply, beq_iff_eq]
    intro r hr
    rcases h r hr with hcbie | hcbie <;> rwa [hcbie]
  have hflush : ((governing s.curMode).map s.csr).any (fun v => v.a.cbie == 0b01) =
      decide (∃ r ∈ governing s.curMode, (s.csr r).a.cbie = 0b01#2) := by
    simp [List.any_eq]
  simp only [exec, execCboInval, hA, invalSchemeA, governors_of_mode s hmode, hnot 0b00 (by decide) (by decide),
    hnot 0b10 (by decide) (by decide), hflush, decide_eq_true_eq, Bool.false_eq_true, if_false]

end

/-- Settles O51: where the registers enable a clean or a flush it is performed, and a performed one sends the bytes. -/
theorem cleanAndFlushSendTheModifiedBytes : Obligations.CleanAndFlushSendTheModifiedBytes := by
  intro s rs1 hw
  refine ⟨fun hA hmode hcbcfe => ⟨?_, ?_⟩, fun hA hmode hcbie hone => ?_, fun _ t ht hevents => ?_⟩
  · exact ⟨_, exec_cboClean_enabled rs1 hA hmode hcbcfe, cacheOp_sentToMemory s .clean _ (Or.inl rfl) hw⟩
  · exact ⟨_, exec_cboFlush_enabled rs1 hA hmode hcbcfe, cacheOp_sentToMemory s .flush _ (Or.inr rfl) hw⟩
  · rw [exec_cboInval_enabled rs1 hA hmode hcbie, if_pos hone]
    exact ⟨_, rfl, cacheOp_sentToMemory s .flush _ (Or.inr rfl) hw⟩
  · exact (exec_effect _ s t ht).sentToMemory .flush (s.x rs1) (Or.inr rfl) hw hevents

/-! ### An invalidate after a clean or a flush (R32 b) -/

/-- Where no byte of the block is modified, an invalidate exposes nothing: it has no cached copy to drop. -/
theorem readByte_invalidateBlock_of_unmodified (s : State) (addr : Word) (a : Nat)
    (h : inBlock s.cfg addr a = true → Memory.read s.modified a = none) :
    (s.invalidateBlock addr).readByte a = s.readByte a := by
  rw [readByte_invalidateBlock]
  split
  · rename_i hexposed
    rw [State.readByte, h (Bool.and_eq_true_iff.mp hexposed).1, Option.none_or]
  · rfl

/-- Where no byte of the block is modified, an enabled `CBO.INVAL` changes no value read, whether it is a flush or an
invalidate. -/
theorem exec_cboInval_of_unmodified (s : State) (rs1 : RegNum) (hA : s.cfg.scheme = .A) (hmode : ModeOfHart s)
    (hw : Memory.wf s.modified)
    (hcbie : ∀ r ∈ governing s.curMode, (s.csr r).a.cbie = 0b01#2 ∨ (s.csr r).a.cbie = 0b11#2)
    (h : ∀ a, inBlock s.cfg (s.x rs1) a = true → Memory.read s.modified a = none) :
    ∃ u, exec (.cboInval rs1) s = .next u ∧ ∀ a, u.readByte a = s.readByte a := by
  rw [exec_cboInval_enabled rs1 hA hmode hcbie]
  split
  · exact ⟨_, rfl, fun a => readByte_updateBlock s (s.x rs1) a hw⟩
  · exact ⟨_, rfl, fun a => readByte_invalidateBlock_of_unmodified s (s.x rs1) a (h a)⟩

/-- A clean or a flush of the block leaves none of its bytes modified, so the `CBO.INVAL` that follows changes no value read. -/
theorem exec_cboInval_after_clean_or_flush (s : State) (rs1 : RegNum) (kind : CacheOpKind)
    (hkind : kind = .clean ∨ kind = .flush) (hA : s.cfg.scheme = .A) (hmode : ModeOfHart s) (hw : Memory.wf s.modified)
    (hcbie : ∀ r ∈ governing s.curMode, (s.csr r).a.cbie = 0b01#2 ∨ (s.csr r).a.cbie = 0b11#2) :
    ∃ u, exec (.cboInval rs1) (s.cacheOp kind (s.x rs1)).advance = .next u ∧ ∀ a, u.readByte a = s.readByte a := by
  rw [cacheOp_of_clean_or_flush s kind _ hkind]
  have hunmodified (a : Nat) (ha : inBlock s.cfg (s.x rs1) a = true) :
      Memory.read (s.updateBlock (s.x rs1)).modified a = none := by
    rw [read_modified_updateBlock, if_pos ha]
  obtain ⟨u, hu, hread⟩ := exec_cboInval_of_unmodified ((s.updateBlock (s.x rs1)).record kind (s.x rs1)).advance rs1
    hA hmode (memory_dropWhere_wf _ _ hw) (fun r => by cases r <;> exact hcbie _) hunmodified
  exact ⟨u, hu, fun a => (hread a).trans (readByte_updateBlock s _ a hw)⟩

/-- Settles O19. -/
theorem cleanOrFlushThenInvalidateExposesNothing : Obligations.CleanOrFlushThenInvalidateExposesNothing := by
  intro s rs1 hA hmode hw hcbcfe hcbie
  obtain ⟨u, hu, hread⟩ := exec_cboInval_after_clean_or_flush s rs1 .clean (Or.inl rfl) hA hmode hw hcbie
  obtain ⟨v, hv, hread'⟩ := exec_cboInval_after_clean_or_flush s rs1 .flush (Or.inr rfl) hA hmode hw hcbie
  exact ⟨⟨_, u, exec_cboClean_enabled rs1 hA hmode hcbcfe, hu, hread⟩,
    ⟨_, v, exec_cboFlush_enabled rs1 hA hmode hcbcfe, hv, hread'⟩⟩

end Sys2Proof.Machine
end

section
/-! The encoding (R40 to R44, R47): decoding and encoding are inverse to each other, the rows of the opcode table are the words
the encoder writes, what the step makes of a word outside the spec, and the layout of a register's word. -/

namespace Sys2Proof.Machine

/-! ### Decode and encode are inverse (R41 to R43) -/

/-- Settles O1. -/
theorem decodeOfEncodeIsTheInstruction : Obligations.DecodeOfEncodeIsTheInstruction := by
  refine fun i rest => ⟨decode_encode i, ?_⟩
  rw [decodeBytes_bytesOfWord, decode_encode]
  rfl

/-- What the decoder reads from a word of the cache-block opcode has that word: `funct3`, `rd` and `imm12` are the row's own,
and `rs1` is the operand (R42). -/
theorem encode_of_decodeMiscMem (w : InstrWord) (i : Instr) (hop : fieldOpcode w = opMiscMem)
    (h : decodeMiscMem w = .ok i) : encode i = w := by
  have hfields := encodeIType_fields w
  rw [hop] at hfields
  unfold decodeMiscMem at h
  split_ifs at h with hfixed hinval hclean hflush hzero <;> cases h <;> obtain ⟨hfunct3, hrd⟩ := hfixed
  · rwa [hfunct3, hrd, hinval] at hfields
  · rwa [hfunct3, hrd, hclean] at hfields
  · rwa [hfunct3, hrd, hflush] at hfields
  · rwa [hfunct3, hrd, hzero] at hfields

/-- The same for the CSR opcode, where `funct3` alone is the row's own (R43). -/
theorem encode_of_decodeSystem (w : InstrWord) (i : Instr) (hop : fieldOpcode w = opSystem)
    (h : decodeSystem w = .ok i) : encode i = w := by
  have hfields := encodeIType_fields w
  rw [hop] at hfields
  unfold decodeSystem at h
  split_ifs at h with hrw hrs hrc hrwi hrsi hrci <;> cases h
  · rwa [hrw] at hfields
  · rwa [hrs] at hfields
  · rwa [hrc] at hfields
  · rwa [hrwi] at hfields
  · rwa [hrsi] at hfields
  · rwa [hrci] at hfields

/-- Settles O2, by the opcode the decoder went by. -/
theorem encodeOfDecodeIsTheWord : Obligations.EncodeOfDecodeIsTheWord := by
  intro w i h
  unfold decode at h
  split_ifs at h with hlength hmisc hsystem
  · exact encode_of_decodeMiscMem w i hmisc h
  · exact encode_of_decodeSystem w i hsystem h

/-- An instruction's word is the only word that decodes to it. -/
theorem decode_eq_ok_iff (w : InstrWord) (i : Instr) : decode w = .ok i ↔ encode i = w := by
  constructor
  · exact encodeOfDecodeIsTheWord w i
  · rintro rfl
    exact decode_encode i

/-! ### The opcode table (R42, R43) -/

/-- The word of every instruction matches the row that has its mnemonic. -/
theorem encode_matches_row (i : Instr) : Laws.EncodesItsRow.Statement i := by
  cases i with
  | cboInval rs1 => exact Laws.EncodesItsRow.cboInval rs1
  | cboClean rs1 => exact Laws.EncodesItsRow.cboClean rs1
  | cboFlush rs1 => exact Laws.EncodesItsRow.cboFlush rs1
  | cboZero rs1 => exact Laws.EncodesItsRow.cboZero rs1
  | csrrw rd csr rs1 => exact Laws.EncodesItsRow.csrrw rd csr rs1
  | csrrs rd csr rs1 => exact Laws.EncodesItsRow.csrrs rd csr rs1
  | csrrc rd csr rs1 => exact Laws.EncodesItsRow.csrrc rd csr rs1
  | csrrwi rd csr uimm => exact Laws.EncodesItsRow.csrrwi rd csr uimm
  | csrrsi rd csr uimm => exact Laws.EncodesItsRow.csrrsi rd csr uimm
  | csrrci rd csr uimm => exact Laws.EncodesItsRow.csrrci rd csr uimm

/-- A word that agrees with a cache-block word under the mask of those rows differs from it in `rs1` alone (R42). -/
theorem word_of_cacheBlock_mask (w : InstrWord) (imm : BitVec 12)
    (h : w &&& 0xFFF07FFF#32 = encodeIType imm 0 0b010 0 opMiscMem) :
    encodeIType imm (fieldRs1 w) 0b010 0 opMiscMem = w := by
  rw [and_cacheBlock_mask] at h
  refine word_ext _ _ ?_ ?_ ?_ ?_ ?_
  · simpa using congrArg fieldImm12 h.symm
  · simp
  · simpa using congrArg fieldFunct3 h.symm
  · simpa using congrArg fieldRd h.symm
  · simpa using congrArg fieldOpcode h.symm

/-- A word that agrees with a CSR word under the mask of those rows has its `funct3` and its opcode (R43). -/
theorem word_of_csr_mask (w : InstrWord) (f3 : BitVec 3) (h : w &&& 0x0000707F#32 = encodeIType 0 0 f3 0 opSystem) :
    encodeIType (fieldImm12 w) (fieldRs1 w) f3 (fieldRd w) opSystem = w := by
  rw [and_csr_mask] at h
  refine word_ext _ _ ?_ ?_ ?_ ?_ ?_
  · simp
  · simp
  · simpa using congrArg fieldFunct3 h.symm
  · simp
  · simpa using congrArg fieldOpcode h.symm

/-- A word that matches one of the four cache-block rows is the word of that row's instruction (R42). -/
theorem encode_of_cacheBlockRow (w : InstrWord) (row : OpcodeRow) (hrow : row ∈ opcodeTable.take 4)
    (h : w &&& row.mask = row.pattern) : ∃ i, encode i = w ∧ mnemonicOf i = row.mnemonic := by
  simp only [opcodeTable, List.take_succ_cons, List.take_zero, List.mem_cons, List.not_mem_nil, or_false] at hrow
  rcases hrow with rfl | rfl | rfl | rfl
  · exact ⟨.cboInval (fieldRs1 w), word_of_cacheBlock_mask w 0 (h.trans (by decide)), rfl⟩
  · exact ⟨.cboClean (fieldRs1 w), word_of_cacheBlock_mask w 1 (h.trans (by decide)), rfl⟩
  · exact ⟨.cboFlush (fieldRs1 w), word_of_cacheBlock_mask w 2 (h.trans (by decide)), rfl⟩
  · exact ⟨.cboZero (fieldRs1 w), word_of_cacheBlock_mask w 4 (h.trans (by decide)), rfl⟩

/-- A word that matches one of the six CSR rows is the word of that row's instruction, which names the CSR of `bits[31:20]`
(R43, R44). -/
theorem encode_of_csrRow (w : InstrWord) (row : OpcodeRow) (hrow : row ∈ opcodeTable.drop 4)
    (h : w &&& row.mask = row.pattern) :
    ∃ i, encode i = w ∧ mnemonicOf i = row.mnemonic ∧ i.csr? = some (fieldImm12 w) := by
  simp only [opcodeTable, List.drop_succ_cons, List.drop_zero, List.mem_cons, List.not_mem_nil, or_false] at hrow
  rcases hrow with rfl | rfl | rfl | rfl | rfl | rfl
  · exact ⟨.csrrw (fieldRd w) (fieldImm12 w) (fieldRs1 w), word_of_csr_mask w 0b001 (h.trans (by decide)), rfl, rfl⟩
  · exact ⟨.csrrs (fieldRd w) (fieldImm12 w) (fieldRs1 w), word_of_csr_mask w 0b010 (h.trans (by decide)), rfl, rfl⟩
  · exact ⟨.csrrc (fieldRd w) (fieldImm12 w) (fieldRs1 w), word_of_csr_mask w 0b011 (h.trans (by decide)), rfl, rfl⟩
  · exact ⟨.csrrwi (fieldRd w) (fieldImm12 w) (fieldRs1 w), word_of_csr_mask w 0b101 (h.trans (by decide)), rfl, rfl⟩
  · exact ⟨.csrrsi (fieldRd w) (fieldImm12 w) (fieldRs1 w), word_of_csr_mask w 0b110 (h.trans (by decide)), rfl, rfl⟩
  · exact ⟨.csrrci (fieldRd w) (fieldImm12 w) (fieldRs1 w), word_of_csr_mask w 0b111 (h.trans (by decide)), rfl, rfl⟩

/-- A word that matches a row is the word of that row's instruction. -/
theorem encode_of_row (w : InstrWord) (row : OpcodeRow) (hrow : row ∈ opcodeTable) (h : w &&& row.mask = row.pattern) :
    ∃ i, encode i = w ∧ mnemonicOf i = row.mnemonic := by
  rw [← List.take_append_drop 4 opcodeTable, List.mem_append] at hrow
  rcases hrow with hcbo | hcsr
  · exact encode_of_cacheBlockRow w row hcbo h
  · obtain ⟨i, hword, hname, -⟩ := encode_of_csrRow w row hcsr h
    exact ⟨i, hword, hname⟩

/-- Settles O3: the words the decoder accepts are those the encoder writes, and these are the words of the rows. -/
theorem decoderAcceptsExactlyTheTable : Obligations.DecoderAcceptsExactlyTheTable := by
  intro w name
  simp only [decode_eq_ok_iff]
  constructor
  · rintro ⟨i, rfl, rfl⟩
    exact encode_matches_row i
  · rintro ⟨row, hrow, rfl, hmatch⟩
    exact encode_of_row w row hrow hmatch

/-- Settles O4. -/
theorem wordsOfTheTestVectorsDecode : Obligations.WordsOfTheTestVectorsDecode :=
  ⟨rfl, rfl, rfl, rfl, rfl, rfl, rfl, rfl, rfl, rfl, rfl, rfl⟩

/-! ### Words outside the spec (R41, R47) -/

theorem decodeMiscMem_error (w : InstrWord) (e : DecodeError) (h : decodeMiscMem w = .error e) : e = .notInScope := by
  unfold decodeMiscMem at h
  split_ifs at h <;> cases h <;> rfl

theorem decodeSystem_error (w : InstrWord) (e : DecodeError) (h : decodeSystem w = .error e) : e = .notInScope := by
  unfold decodeSystem at h
  split_ifs at h
  cases h
  rfl

/-- A 32-bit word is rejected for one reason only (R47). -/
theorem decode_error_of_thirtyTwoBits (w : InstrWord) (e : DecodeError) (hlow : w.extractLsb' 0 2 = 0b11#2)
    (hlength : w.extractLsb' 2 3 ≠ 0b111#3) (h : decode w = .error e) : e = .notInScope := by
  unfold decode at h
  rw [if_neg (by simp [hlow, hlength])] at h
  split_ifs at h
  · exact decodeMiscMem_error w e h
  · exact decodeSystem_error w e h
  · cases h
    rfl

/-- A 32-bit word that matches no row is `NotInScope` to the decoder (R47). -/
theorem decode_of_no_row (w : InstrWord) (hlow : w.extractLsb' 0 2 = 0b11#2) (hlength : w.extractLsb' 2 3 ≠ 0b111#3)
    (hnorow : ∀ row ∈ opcodeTable, w &&& row.mask ≠ row.pattern) : decode w = .error .notInScope := by
  cases hdecode : decode w with
  | ok i =>
    obtain ⟨row, hrow, -, hmatch⟩ := (decoderAcceptsExactlyTheTable w (mnemonicOf i)).mp ⟨i, hdecode, rfl⟩
    exact absurd hmatch (hnorow row hrow)
  | error e => rw [decode_error_of_thirtyTwoBits w e hlow hlength hdecode]

/-- A step whose fetched word the decoder does not accept is refused, by name of the reason. -/
theorem step_of_decode_error (s : State) (w : InstrWord) (e : DecodeError) (haligned : s.pc.toNat % 4 = 0)
    (hfetch : s.arrive.fetchBytes = .ok (bytesOfWord w)) (hdecode : decode w = .error e) :
    step s = .refused (decodeRefusal e (bytesOfWord w)) := by
  have hbytes : decodeBytes (bytesOfWord w) = .error e := by
    simpa [hdecode, Except.map] using decodeBytes_bytesOfWord w []
  simp [step, haligned, hfetch, hbytes]

@[simp] theorem wordOfList_bytesOfWord (w : InstrWord) : wordOfList (bytesOfWord w) = w :=
  wordOfBytes_bytesOfWord w

theorem regOf_eq_none (c : Config) (csr : CsrNum) (hm : csr ≠ c.addrM) (hs : csr ≠ c.addrS) (hh : csr ≠ c.addrH) :
    c.regOf csr = none := by
  simp [Config.regOf, hm, hs, hh]

/-- A CSR instruction that names another unit's CSR is refused, whatever the mode and the operands are (R47). -/
theorem exec_of_csr_not_in_scope (i : Instr) (csr : CsrNum) (s : State) (hcsr : i.csr? = some csr)
    (hreg : s.cfg.regOf csr = none) : exec i s = .refused (.csrNotInScope csr) := by
  obtain ⟨rd, form, hexec⟩ := exec_csr i csr s hcsr
  rw [hexec]
  simp only [csrAccess, hreg]

/-- Settles O5: a word of no row is not decoded, and a word of a CSR row is decoded and its instruction refused. -/
theorem wordsOutsideTheSpecAreRefused : Obligations.WordsOutsideTheSpecAreRefused := by
  refine fun s w haligned hfetch => ⟨fun hlow hlength hnorow => ?_, fun row hrow hmatch hm hs hh => ?_⟩
  · rw [step_of_decode_error s w _ haligned hfetch (decode_of_no_row w hlow hlength hnorow), decodeRefusal,
      wordOfList_bytesOfWord]
  · obtain ⟨i, rfl, -, hcsr⟩ := encode_of_csrRow w row hrow hmatch
    rw [stepRunsTheDecodedInstruction s _ _ i haligned hfetch (decodeBytes_encode i)]
    refine exec_of_csr_not_in_scope i _ _ hcsr ?_
    rw [beforeExec_cfg]
    exact regOf_eq_none _ _ hm hs hh

/-! ### The layout of a register's word (R22, R24, R40) -/

theorem usedA_nodup (c : Config) (hc : c.wf = true) : c.pos.usedA.Nodup := by
  simp only [Config.wf, Bool.and_eq_true, decide_eq_true_eq] at hc
  obtain ⟨⟨⟨⟨⟨⟨⟨⟨⟨hA, -⟩, -⟩, -⟩, -⟩, -⟩, -⟩, -⟩, -⟩, -⟩ := hc
  exact hA

theorem usedB_nodup (c : Config) (hc : c.wf = true) : c.pos.usedB.Nodup := by
  simp only [Config.wf, Bool.and_eq_true, decide_eq_true_eq] at hc
  obtain ⟨⟨⟨⟨⟨⟨⟨⟨⟨-, hB⟩, -⟩, -⟩, -⟩, -⟩, -⟩, -⟩, -⟩, -⟩ := hc
  exact hB

/-- A one-bit field stands at its position and nowhere else. -/
theorem getLsbD_bitAt (b : Bool) (p j : Nat) (hj : j < 64) : (bitAt b p).getLsbD j = if j = p then b else false := by
  cases b
  · simp [bitAt]
  · simp [bitAt, ← BitVec.twoPow_eq, hj, eq_comm]

/-- A two-bit field stands at its position and the next, and nowhere else. -/
theorem getLsbD_twoBitField (v : BitVec 2) (p j : Nat) (hj : j < 64) :
    (v.setWidth 64 <<< p).getLsbD j =
      if j = p then v.getLsbD 0 else if j = p + 1 then v.getLsbD 1 else false := by
  rw [BitVec.getLsbD_shiftLeft, BitVec.getLsbD_setWidth]
  split_ifs with hlo hhi
  · subst hlo
    simp [hj]
  · subst hhi
    simp [hj]
  · by_cases hp : j < p
    · simp [hp]
    · simp [BitVec.getLsbD_of_ge v (j - p) (by omega)]

/-- In range the truncation drops nothing, and at distinct positions an OR of fields has the bit of the field that stands there;
out of range there is neither a bit nor a field. -/
theorem packCsr_getLsbD_schemeA (c : Config) (v : CmoCsr) (hc : c.wf = true) (hA : c.scheme = .A) (j : Nat) :
    (packCsr c v).getLsbD j =
      if j = c.pos.cbieLo then v.a.cbie.getLsbD 0 else if j = c.pos.cbieLo + 1 then v.a.cbie.getLsbD 1
      else if j = c.pos.cbcfe then v.a.cbcfe else if j = c.pos.cbze then v.a.cbze else false := by
  have hdistinct := usedA_nodup c hc
  simp only [packCsr, hA, trunc_getLsbD]
  by_cases hj : j < c.xlen.bits
  · have hj64 : j < 64 := hj.trans_le (by cases c.xlen <;> decide)
    simp only [hj, BitVec.getLsbD_or, getLsbD_bitAt _ _ _ hj64, getLsbD_twoBitField _ _ _ hj64]
    simp only [FieldPositions.usedA, List.nodup_cons, List.mem_cons] at hdistinct
    split_ifs <;> simp_all
  · have hfield : j ∉ fieldBits c := fun hmem => hj (fieldBits_lt c hc j hmem)
    simp only [fieldBits, hA, FieldPositions.usedA, List.mem_cons, List.not_mem_nil, or_false, not_or] at hfield
    simp [hj, hfield]

theorem packCsr_getLsbD_schemeB (c : Config) (v : CmoCsr) (hc : c.wf = true) (hB : c.scheme = .B) (j : Nat) :
    (packCsr c v).getLsbD j =
      if j = c.pos.invw0e then v.b.invw0e else if j = c.pos.invw1e then v.b.invw1e
      else if j = c.pos.invw0i then v.b.invw0i else if j = c.pos.invw1i then v.b.invw1i else false := by
  have hdistinct := usedB_nodup c hc
  simp only [packCsr, hB, trunc_getLsbD]
  by_cases hj : j < c.xlen.bits
  · have hj64 : j < 64 := hj.trans_le (by cases c.xlen <;> decide)
    simp only [hj, BitVec.getLsbD_or, getLsbD_bitAt _ _ _ hj64]
    simp only [FieldPositions.usedB, List.nodup_cons, List.mem_cons] at hdistinct
    split_ifs <;> simp_all
  · have hfield : j ∉ fieldBits c := fun hmem => hj (fieldBits_lt c hc j hmem)
    simp only [fieldBits, hB, FieldPositions.usedB, List.mem_cons, List.not_mem_nil, or_false, not_or] at hfield
    simp [hj, hfield]

/-- The two bits read at `CBIE_LO` are `CBIE`. -/
theorem cbieOf_packCsr (c : Config) (v : CmoCsr) (hc : c.wf = true) (hA : c.scheme = .A) :
    cbieOf c (packCsr c v) = v.a.cbie := by
  apply BitVec.eq_of_getLsbD_eq
  intro i hi
  rw [cbieOf, BitVec.getLsbD_setWidth, BitVec.getLsbD_ushiftRight, packCsr_getLsbD_schemeA c v hc hA]
  interval_cases i <;> simp

/-- Settles O30. -/
theorem registerWordLayout : Obligations.RegisterWordLayout :=
  fun c v hc => ⟨packCsr_getLsbD_schemeA c v hc, cbieOf_packCsr c v hc, packCsr_getLsbD_schemeB c v hc⟩

end Sys2Proof.Machine
end

section
/-! Scheme A: the cache-block instructions gated by the governing registers (R50 to R60). What each instruction does is first
written as a case analysis on the governing fields; from it follow what executes, flushes, invalidates or traps in a mode,
what a higher mode is permitted, and which registers and fields have no effect. -/

namespace Sys2Proof.Machine

/-! ### Which registers govern (R50, R60) -/

/-- Settles O9, by the definition. -/
theorem governingRegistersOfEachMode : Obligations.GoverningRegistersOfEachMode := ⟨rfl, rfl, rfl, rfl, rfl⟩

theorem h_mem_governing_iff (mode : Mode) : .h ∈ governing mode ↔ mode.virtualised = true := by
  cases mode <;> decide

/-- In a mode of the hart no governing register is absent. -/
theorem governor_not_absent {s : State} (hmode : ModeOfHart s) : ¬(.h ∈ governing s.curMode ∧ s.hPresent = false) := by
  rintro ⟨hmem, habsent⟩
  simp [hmode ((h_mem_governing_iff _).mp hmem)] at habsent

/-! ### The four instructions as case analyses on the governing fields (R53 to R58) -/

theorem gatedCacheOp_eq (field : CmoCsr → Bool) (kind : CacheOpKind) (i : Instr) (rs1 : RegNum) (s : State) :
    gatedCacheOp field kind i rs1 s =
      if .h ∈ governing s.curMode ∧ s.hPresent = false then .refused .absentHRegister
      else if ∀ r ∈ governing s.curMode, field (s.csr r) = true then completeCacheOp kind rs1 s
      else raise .illegalInstruction (instrInfo s.cfg i) s := by
  unfold gatedCacheOp
  rw [governors_eq]
  split_ifs with _ hall
  · rfl
  · exact if_pos (by simpa using hall)
  · exact if_neg (by simpa using hall)

theorem invalSchemeA_eq (i : Instr) (rs1 : RegNum) (s : State) :
    invalSchemeA i rs1 s =
      if .h ∈ governing s.curMode ∧ s.hPresent = false then .refused .absentHRegister
      else if ∃ r ∈ governing s.curMode, (s.csr r).a.cbie = 0b00#2 then
        raise .illegalInstruction (instrInfo s.cfg i) s
      else if ∃ r ∈ governing s.curMode, (s.csr r).a.cbie = 0b10#2 then .refused .reservedCbie
      else if ∃ r ∈ governing s.curMode, (s.csr r).a.cbie = 0b01#2 then completeCacheOp .flush rs1 s
      else completeCacheOp .invalidate rs1 s := by
  have hany (k : BitVec 2) : ((governing s.curMode).map s.csr).any (fun v => v.a.cbie == k) =
      decide (∃ r ∈ governing s.curMode, (s.csr r).a.cbie = k) := by
    simp [List.any_eq]
  unfold invalSchemeA
  rw [governors_eq]
  by_cases habsent : .h ∈ governing s.curMode ∧ s.hPresent = false
  · rw [if_pos habsent, if_pos habsent]
  · rw [if_neg habsent, if_neg habsent]
    simp only [hany, decide_eq_true_eq, BitVec.ofNat_eq_ofNat]

section
variable {s : State} (rs1 : RegNum) (hA : s.cfg.scheme = .A)
include hA

theorem exec_cboInval_schemeA : exec (.cboInval rs1) s = invalSchemeA (.cboInval rs1) rs1 s := by
  simp only [exec, execCboInval, hA]

theorem exec_cboClean_schemeA :
    exec (.cboClean rs1) s = gatedCacheOp (fun v => v.a.cbcfe) .clean (.cboClean rs1) rs1 s := by
  simp only [exec, execCboClean, hA]

theorem exec_cboFlush_schemeA :
    exec (.cboFlush rs1) s = gatedCacheOp (fun v => v.a.cbcfe) .flush (.cboFlush rs1) rs1 s := by
  simp only [exec, execCboFlush, hA]

theorem exec_cboZero_schemeA :
    exec (.cboZero rs1) s = gatedCacheOp (fun v => v.a.cbze) .zero (.cboZero rs1) rs1 s := by
  simp only [exec, execCboZero, hA]

end

/-! ### What a completed operation leaves (R33) -/

theorem cacheOp_draws (s : State) (kind : CacheOpKind) (addr : Word) :
    (s.cacheOp kind addr).draws = if kind = .invalidate then s.draws + 1 else s.draws := by
  cases kind <;> rfl

section
variable {s : State} (kind : CacheOpKind)
  (hw : kind = .clean ∨ kind = .flush → Memory.wf s.modified) (hpos : kind = .zero → 0 < s.cfg.cacheBlockBytes)
include hw hpos

/-- Outside its block no operation changes a value read: a clean or a flush of modified bytes in canonical form, and a zero of a
block that has bytes. -/
theorem readByte_cacheOp_of_not_inBlock (addr : Word) (a : Nat) (ha : inBlock s.cfg addr a = false) :
    (s.cacheOp kind addr).readByte a = s.readByte a := by
  cases kind with
  | clean => exact readByte_updateBlock s addr a (hw (.inl rfl))
  | flush => exact readByte_updateBlock s addr a (hw (.inr rfl))
  | invalidate => simp [State.cacheOp, readByte_invalidateBlock, ha]
  | zero => simp [State.cacheOp, readByte_zeroBlock s addr a (hpos rfl), ha]

/-- Under scheme A the operation, once the pc has advanced, is complete in the sense of R33 and R53 to R56. -/
theorem completesCacheOp_schemeA (addr : Word) (hA : s.cfg.scheme = .A) :
    CompletesCacheOp kind addr s (s.cacheOp kind addr).advance where
  event := cacheOp_events ..
  pc := by simp
  frame := by simp
  accesses := by simp [hA]
  draws := cacheOp_draws ..
  outside := readByte_cacheOp_of_not_inBlock kind hw hpos addr
  inside a ha := by
    cases kind with
    | clean => exact readByte_updateBlock s addr a (hw (.inl rfl))
    | flush => exact readByte_updateBlock s addr a (hw (.inr rfl))
    | invalidate =>
      have hread := readByte_invalidateBlock s addr a
      split at hread
      · exact .inr hread
      · exact .inl hread
    | zero => exact (readByte_zeroBlock s addr a (hpos rfl)).trans (if_pos ha)

end

/-! ### What executes and what traps (R52 to R56) -/

/-- In a mode of the hart a gated instruction completes where every governing field is set, and traps where one is clear. -/
theorem gatedCacheOp_completes_or_traps {s : State} (field : CmoCsr → Bool) (kind : CacheOpKind) (i : Instr) (rs1 : RegNum)
    (hmode : ModeOfHart s) (hcompletes : CompletesCacheOp kind (s.x rs1) s (s.cacheOp kind (s.x rs1)).advance) :
    ((∀ r ∈ governing s.curMode, field (s.csr r) = true) →
      ∃ t, gatedCacheOp field kind i rs1 s = .next t ∧ CompletesCacheOp kind (s.x rs1) s t) ∧
    ((∃ r ∈ governing s.curMode, field (s.csr r) = false) →
      gatedCacheOp field kind i rs1 s = raise .illegalInstruction (instrInfo s.cfg i) s) := by
  refine ⟨fun hset => ⟨_, gatedCacheOp_enabled rs1 field kind i hmode hset, hcompletes⟩, fun ⟨r, hr, hclear⟩ => ?_⟩
  rw [gatedCacheOp_eq, if_neg (governor_not_absent hmode), if_neg]
  intro hset
  simp [hset r hr] at hclear

/-- Settles O11: a gated instruction, whose clean needs of the state only that its modified bytes are in canonical form. -/
theorem cboCleanExecutesOrTraps : Obligations.CboCleanExecutesOrTraps := by
  intro s rs1 hA hmode hw
  rw [exec_cboClean_schemeA rs1 hA]
  refine gatedCacheOp_completes_or_traps (fun v => v.a.cbcfe) _ _ rs1 hmode ?_
  exact completesCacheOp_schemeA .clean (fun _ => hw) nofun _ hA

/-- Settles O12, as O11 with the flush. -/
theorem cboFlushExecutesOrTraps : Obligations.CboFlushExecutesOrTraps := by
  intro s rs1 hA hmode hw
  rw [exec_cboFlush_schemeA rs1 hA]
  refine gatedCacheOp_completes_or_traps (fun v => v.a.cbcfe) _ _ rs1 hmode ?_
  exact completesCacheOp_schemeA .flush (fun _ => hw) nofun _ hA

/-- Settles O13: a gated instruction, whose zero needs of the state only that a block has bytes. -/
theorem cboZeroExecutesOrTraps : Obligations.CboZeroExecutesOrTraps := by
  intro s rs1 hA hmode hpos
  rw [exec_cboZero_schemeA rs1 hA]
  refine gatedCacheOp_completes_or_traps (fun v => v.a.cbze) _ _ rs1 hmode ?_
  exact completesCacheOp_schemeA .zero (by simp) (fun _ => hpos) _ hA

/-- Settles O10: a trap and a refusal are the first cases of the analysis; where every governing `CBIE` is `01` or `11` the
operation is a flush if one is `01`, and else an invalidate. -/
theorem cboInvalTrapsFlushesOrInvalidates : Obligations.CboInvalTrapsFlushesOrInvalidates := by
  intro s rs1 hA hmode hw
  refine ⟨fun htrap => ?_, fun hnotrap hreserved => ?_, fun henabled hflush => ?_, fun hinval => ?_⟩
  · rw [exec_cboInval_schemeA rs1 hA, invalSchemeA_eq, if_neg (governor_not_absent hmode), if_pos htrap]
  · have hnone : ¬∃ r ∈ governing s.curMode, (s.csr r).a.cbie = 0b00#2 := fun ⟨r, hr, hcbie⟩ => hnotrap r hr hcbie
    rw [exec_cboInval_schemeA rs1 hA, invalSchemeA_eq, if_neg (governor_not_absent hmode), if_neg hnone, if_pos hreserved]
  · rw [exec_cboInval_enabled rs1 hA hmode henabled, if_pos hflush]
    exact ⟨_, rfl, completesCacheOp_schemeA .flush (fun _ => hw) nofun _ hA⟩
  · have hnone : ¬∃ r ∈ governing s.curMode, (s.csr r).a.cbie = 0b01#2 := by
      rintro ⟨r, hr, hcbie⟩
      simp [hinval r hr] at hcbie
    rw [exec_cboInval_enabled rs1 hA hmode fun r hr => .inr (hinval r hr), if_neg hnone]
    exact ⟨_, rfl, completesCacheOp_schemeA .invalidate (fun _ => hw) nofun _ hA⟩

/-- Settles O14: no register governs M-mode, so every instruction is enabled there. -/
theorem machineModeExecutesEveryCacheBlockInstruction : Obligations.MachineModeExecutesEveryCacheBlockInstruction := by
  intro s rs1 hA hM hw hpos
  have hmode : ModeOfHart s := by simp [hM, Mode.virtualised]
  have hnone (p : CmoReg → Prop) : ∀ r ∈ governing s.curMode, p r := by simp [hM, governing]
  obtain ⟨-, -, -, hinval⟩ := cboInvalTrapsFlushesOrInvalidates s rs1 hA hmode hw
  exact ⟨hinval (hnone _), (cboCleanExecutesOrTraps s rs1 hA hmode hw).1 (hnone _),
    (cboFlushExecutesOrTraps s rs1 hA hmode hw).1 (hnone _), (cboZeroExecutesOrTraps s rs1 hA hmode hpos).1 (hnone _)⟩

/-! ### What executes in a lower mode executes in a higher one (R59 e) -/

/-- The outcome, of an instruction executed in `s`, is a next state with one more event, of the operation `kind`. -/
def RecordsOp (s : State) (kind : CacheOpKind) (o : Host.Outcome State Fault Refusal) : Prop :=
  ∃ t, o = .next t ∧ ∃ addr, t.events = s.events ++ [{ hart := s.cfg.hartId, kind := kind, addr := addr }]

theorem executesAs_iff_recordsOp (s : State) (mode : Mode) (i : Instr) (kind : CacheOpKind) :
    ExecutesAs s mode i kind ↔ RecordsOp { s with curMode := mode } kind (exec i { s with curMode := mode }) := Iff.rfl

theorem recordsOp_completeCacheOp (s : State) (kind kind' : CacheOpKind) (rs1 : RegNum) :
    RecordsOp s kind (completeCacheOp kind' rs1 s) ↔ kind = kind' := by
  constructor
  · rintro ⟨t, ht, addr, hevents⟩
    cases ht
    simp only [advance_events, cacheOp_events, List.append_cancel_left_eq, List.cons.injEq, CacheEvent.mk.injEq] at hevents
    obtain ⟨⟨-, hkind, -⟩, -⟩ := hevents
    exact hkind.symm
  · rintro rfl
    exact ⟨_, rfl, _, cacheOp_events ..⟩

theorem not_recordsOp_raise (s : State) (kind : CacheOpKind) (k : ExceptionKind) (info : Word) :
    ¬RecordsOp s kind (raise k info s) := by
  rintro ⟨t, ht, addr, hevents⟩
  obtain ⟨-, rfl⟩ := raise_next k info s t ht
  simp at hevents

theorem not_recordsOp_refused (s : State) (kind : CacheOpKind) (r : Refusal) : ¬RecordsOp s kind (.refused r) := by
  rintro ⟨t, ht, -⟩
  cases ht

theorem recordsOp_gatedCacheOp (s : State) (field : CmoCsr → Bool) (kind kind' : CacheOpKind) (i : Instr) (rs1 : RegNum)
    (hpresent : s.hPresent = true) :
    RecordsOp s kind (gatedCacheOp field kind' i rs1 s) ↔
      kind = kind' ∧ ∀ r ∈ governing s.curMode, field (s.csr r) = true := by
  rw [gatedCacheOp_eq, if_neg (governor_not_absent fun _ => hpresent)]
  split_ifs with hset
  · rw [recordsOp_completeCacheOp]
    exact ⟨fun hkind => ⟨hkind, hset⟩, And.left⟩
  · exact iff_of_false (not_recordsOp_raise _ _ _ _) fun ⟨_, h⟩ => hset h

theorem cbie_cases (v : BitVec 2) : v = 0b00#2 ∨ v = 0b01#2 ∨ v = 0b10#2 ∨ v = 0b11#2 := by
  revert v
  decide

/-- `CBO.INVAL` executes where every governing `CBIE` is `01` or `11`, and then invalidates where none is `01` (R53). -/
theorem recordsOp_invalSchemeA (s : State) (kind : CacheOpKind) (i : Instr) (rs1 : RegNum) (hpresent : s.hPresent = true) :
    RecordsOp s kind (invalSchemeA i rs1 s) ↔
      (∀ r ∈ governing s.curMode, (s.csr r).a.cbie = 0b01#2 ∨ (s.csr r).a.cbie = 0b11#2) ∧
        kind = if ∃ r ∈ governing s.curMode, (s.csr r).a.cbie = 0b01#2 then .flush else .invalidate := by
  rw [invalSchemeA_eq, if_neg (governor_not_absent fun _ => hpresent)]
  by_cases htrap : ∃ r ∈ governing s.curMode, (s.csr r).a.cbie = 0b00#2
  · rw [if_pos htrap]
    obtain ⟨r, hr, hcbie⟩ := htrap
    exact iff_of_false (not_recordsOp_raise _ _ _ _) fun ⟨h, _⟩ => by simpa [hcbie] using h r hr
  rw [if_neg htrap]
  by_cases hreserved : ∃ r ∈ governing s.curMode, (s.csr r).a.cbie = 0b10#2
  · rw [if_pos hreserved]
    obtain ⟨r, hr, hcbie⟩ := hreserved
    exact iff_of_false (not_recordsOp_refused _ _ _) fun ⟨h, _⟩ => by simpa [hcbie] using h r hr
  rw [if_neg hreserved]
  have henabled : ∀ r ∈ governing s.curMode, (s.csr r).a.cbie = 0b01#2 ∨ (s.csr r).a.cbie = 0b11#2 := by
    intro r hr
    rcases cbie_cases (s.csr r).a.cbie with h | h | h | h
    · exact absurd ⟨r, hr, h⟩ htrap
    · exact .inl h
    · exact absurd ⟨r, hr, h⟩ hreserved
    · exact .inr h
  rw [and_iff_right henabled]
  split_ifs <;> exact recordsOp_completeCacheOp ..

section
variable {s : State} (mode : Mode) (kind : CacheOpKind) (rs1 : RegNum) (hA : s.cfg.scheme = .A) (hpresent : s.hPresent = true)
include hA hpresent

theorem executesAs_cboInval_iff : ExecutesAs s mode (.cboInval rs1) kind ↔
    (∀ r ∈ governing mode, (s.csr r).a.cbie = 0b01#2 ∨ (s.csr r).a.cbie = 0b11#2) ∧
      kind = if ∃ r ∈ governing mode, (s.csr r).a.cbie = 0b01#2 then .flush else .invalidate := by
  rw [executesAs_iff_recordsOp, exec_cboInval_schemeA (s := { s with curMode := mode }) rs1 hA]
  exact recordsOp_invalSchemeA _ _ _ _ hpresent

theorem executesAs_cboClean_iff : ExecutesAs s mode (.cboClean rs1) kind ↔
    kind = .clean ∧ ∀ r ∈ governing mode, (s.csr r).a.cbcfe = true := by
  rw [executesAs_iff_recordsOp, exec_cboClean_schemeA (s := { s with curMode := mode }) rs1 hA]
  exact recordsOp_gatedCacheOp _ _ _ _ _ _ hpresent

theorem executesAs_cboFlush_iff : ExecutesAs s mode (.cboFlush rs1) kind ↔
    kind = .flush ∧ ∀ r ∈ governing mode, (s.csr r).a.cbcfe = true := by
  rw [executesAs_iff_recordsOp, exec_cboFlush_schemeA (s := { s with curMode := mode }) rs1 hA]
  exact recordsOp_gatedCacheOp _ _ _ _ _ _ hpresent

theorem executesAs_cboZero_iff : ExecutesAs s mode (.cboZero rs1) kind ↔
    kind = .zero ∧ ∀ r ∈ governing mode, (s.csr r).a.cbze = true := by
  rw [executesAs_iff_recordsOp, exec_cboZero_schemeA (s := { s with curMode := mode }) rs1 hA]
  exact recordsOp_gatedCacheOp _ _ _ _ _ _ hpresent

/-- `CBO.INVAL` executes in the higher mode too, where it invalidates if it does in the lower: it is governed by no `01` there
that did not govern it below. -/
theorem cboInval_permitted_higher {lower higher : Mode} (hsub : governing higher ⊆ governing lower) :
    ((∃ kind, ExecutesAs s lower (.cboInval rs1) kind) → ∃ kind, ExecutesAs s higher (.cboInval rs1) kind) ∧
      (ExecutesAs s lower (.cboInval rs1) .invalidate → ExecutesAs s higher (.cboInval rs1) .invalidate) := by
  simp only [executesAs_cboInval_iff _ _ _ hA hpresent]
  refine ⟨fun ⟨_, henabled, _⟩ => ⟨_, fun r hr => henabled r (hsub hr), rfl⟩, fun ⟨henabled, hinval⟩ =>
    ⟨fun r hr => henabled r (hsub hr), ?_⟩⟩
  have hnone : ¬∃ r ∈ governing lower, (s.csr r).a.cbie = 0b01#2 := by
    intro hflush
    simp [if_pos hflush] at hinval
  rw [if_neg fun ⟨r, hr, hcbie⟩ => hnone ⟨r, hsub hr, hcbie⟩]

end

theorem permitted_of_forall {s : State} {i : Instr} {lower higher : Mode}
    (h : ∀ kind, ExecutesAs s lower i kind → ExecutesAs s higher i kind) :
    ((∃ kind, ExecutesAs s lower i kind) → ∃ kind, ExecutesAs s higher i kind) ∧
      (ExecutesAs s lower i .invalidate → ExecutesAs s higher i .invalidate) :=
  ⟨fun ⟨kind, hkind⟩ => ⟨kind, h kind hkind⟩, h .invalidate⟩

/-- Settles O15: an instruction executes by a condition on each governing register, and the higher mode has fewer of them. -/
theorem lowerModesArePermittedNoMore : Obligations.LowerModesArePermittedNoMore := by
  intro s i lower higher hi hA hpresent hsub
  cases i with
  | cboInval rs1 => exact cboInval_permitted_higher rs1 hA hpresent hsub
  | cboClean rs1 =>
    refine permitted_of_forall fun kind => ?_
    simp only [executesAs_cboClean_iff _ _ _ hA hpresent]
    exact And.imp_right fun hset r hr => hset r (hsub hr)
  | cboFlush rs1 =>
    refine permitted_of_forall fun kind => ?_
    simp only [executesAs_cboFlush_iff _ _ _ hA hpresent]
    exact And.imp_right fun hset r hr => hset r (hsub hr)
  | cboZero rs1 =>
    refine permitted_of_forall fun kind => ?_
    simp only [executesAs_cboZero_iff _ _ _ hA hpresent]
    exact And.imp_right fun hset r hr => hset r (hsub hr)
  | csrrw | csrrs | csrrc | csrrwi | csrrsi | csrrci => cases hi

/-! ### Registers and fields without effect (R59 a, R59 c) -/

/-- Replacing what one register holds is a change of what the three hold. -/
theorem setCsr_eq_mapCsrs (s : State) (r : CmoReg) (v : CmoCsr) :
    s.setCsr r v = mapCsrs (fun r' old => if r' = r then v else old) s := by
  cases r <;> rfl

theorem completeCacheOp_mapCsrs (g : CmoReg → CmoCsr → CmoCsr) (s : State) (kind : CacheOpKind) (rs1 : RegNum) :
    completeCacheOp kind rs1 (mapCsrs g s) = mapNext (mapCsrs g) (completeCacheOp kind rs1 s) :=
  congrArg (fun t : State => Host.Outcome.next t.advance) (cacheOp_mapCsrs g s kind (s.blockOperand rs1))

section
variable (g : CmoReg → CmoCsr → CmoCsr) (s : State)

@[simp] theorem mapCsrs_cfg : (mapCsrs g s).cfg = s.cfg := rfl
@[simp] theorem mapCsrs_curMode : (mapCsrs g s).curMode = s.curMode := rfl
@[simp] theorem mapCsrs_hPresent : (mapCsrs g s).hPresent = s.hPresent := rfl

/-- A gated instruction reads, of the registers that govern the mode, the gating field. -/
theorem gatedCacheOp_mapCsrs (field : CmoCsr → Bool) (kind : CacheOpKind) (i : Instr) (rs1 : RegNum)
    (hg : ∀ r ∈ governing s.curMode, field (g r (s.csr r)) = field (s.csr r)) :
    gatedCacheOp field kind i rs1 (mapCsrs g s) = mapNext (mapCsrs g) (gatedCacheOp field kind i rs1 s) := by
  have hset : (∀ r ∈ governing s.curMode, field (g r (s.csr r)) = true) ↔
      ∀ r ∈ governing s.curMode, field (s.csr r) = true :=
    forall₂_congr fun r hr => by rw [hg r hr]
  rw [gatedCacheOp_eq, gatedCacheOp_eq]
  simp only [mapCsrs_cfg, mapCsrs_curMode, mapCsrs_hPresent, csr_mapCsrs, hset]
  split_ifs
  · rfl
  · exact completeCacheOp_mapCsrs ..
  · exact raise_mapCsrs ..

/-- `CBO.INVAL` reads, of the registers that govern the mode, `CBIE`. -/
theorem invalSchemeA_mapCsrs (i : Instr) (rs1 : RegNum)
    (hg : ∀ r ∈ governing s.curMode, (g r (s.csr r)).a.cbie = (s.csr r).a.cbie) :
    invalSchemeA i rs1 (mapCsrs g s) = mapNext (mapCsrs g) (invalSchemeA i rs1 s) := by
  have hany (k : BitVec 2) : (∃ r ∈ governing s.curMode, (g r (s.csr r)).a.cbie = k) ↔
      ∃ r ∈ governing s.curMode, (s.csr r).a.cbie = k :=
    exists_congr fun r => and_congr_right fun hr => by rw [hg r hr]
  rw [invalSchemeA_eq, invalSchemeA_eq]
  simp only [mapCsrs_cfg, mapCsrs_curMode, mapCsrs_hPresent, csr_mapCsrs, hany]
  split_ifs
  · rfl
  · exact raise_mapCsrs ..
  · rfl
  · exact completeCacheOp_mapCsrs ..
  · exact completeCacheOp_mapCsrs ..

end

section
variable {s : State} {r : CmoReg} {v : CmoCsr}

/-- If a field of register `r` is as before, or `r` does not govern the mode, then the replacement keeps that field in every
governing register. -/
theorem kept_by_setCsr {α : Type} (field : CmoCsr → α) (h : r ∈ governing s.curMode → field v = field (s.csr r)) :
    ∀ r' ∈ governing s.curMode, field (if r' = r then v else s.csr r') = field (s.csr r') := by
  intro r' hr'
  split
  · rename_i heq
    subst heq
    exact h hr'
  · rfl

theorem gatedCacheOp_setCsr (field : CmoCsr → Bool) (kind : CacheOpKind) (i : Instr) (rs1 : RegNum)
    (h : r ∈ governing s.curMode → field v = field (s.csr r)) :
    gatedCacheOp field kind i rs1 (s.setCsr r v) = mapNext (fun t => t.setCsr r v) (gatedCacheOp field kind i rs1 s) := by
  simp only [setCsr_eq_mapCsrs]
  exact gatedCacheOp_mapCsrs _ s field kind i rs1 (kept_by_setCsr field h)

variable (rs1 : RegNum) (hA : s.cfg.scheme = .A)
include hA

theorem exec_cboInval_setCsr (h : r ∈ governing s.curMode → v.a.cbie = (s.csr r).a.cbie) :
    exec (.cboInval rs1) (s.setCsr r v) = mapNext (fun t => t.setCsr r v) (exec (.cboInval rs1) s) := by
  rw [exec_cboInval_schemeA rs1 hA, exec_cboInval_schemeA rs1 (by simpa using hA)]
  simp only [setCsr_eq_mapCsrs]
  exact invalSchemeA_mapCsrs _ s _ rs1 (kept_by_setCsr (fun v => v.a.cbie) h)

theorem exec_cboClean_setCsr (h : r ∈ governing s.curMode → v.a.cbcfe = (s.csr r).a.cbcfe) :
    exec (.cboClean rs1) (s.setCsr r v) = mapNext (fun t => t.setCsr r v) (exec (.cboClean rs1) s) := by
  rw [exec_cboClean_schemeA rs1 hA, exec_cboClean_schemeA rs1 (by simpa using hA)]
  exact gatedCacheOp_setCsr _ _ _ rs1 h

theorem exec_cboFlush_setCsr (h : r ∈ governing s.curMode → v.a.cbcfe = (s.csr r).a.cbcfe) :
    exec (.cboFlush rs1) (s.setCsr r v) = mapNext (fun t => t.setCsr r v) (exec (.cboFlush rs1) s) := by
  rw [exec_cboFlush_schemeA rs1 hA, exec_cboFlush_schemeA rs1 (by simpa using hA)]
  exact gatedCacheOp_setCsr _ _ _ rs1 h

theorem exec_cboZero_setCsr (h : r ∈ governing s.curMode → v.a.cbze = (s.csr r).a.cbze) :
    exec (.cboZero rs1) (s.setCsr r v) = mapNext (fun t => t.setCsr r v) (exec (.cboZero rs1) s) := by
  rw [exec_cboZero_schemeA rs1 hA, exec_cboZero_schemeA rs1 (by simpa using hA)]
  exact gatedCacheOp_setCsr _ _ _ rs1 h

end

/-- Settles O16: a register that does not govern the mode holds no field the instruction reads. -/
theorem nonGoverningRegistersHaveNoEffect : Obligations.NonGoverningRegistersHaveNoEffect := by
  intro s i r v hi hA hr
  cases i with
  | cboInval rs1 => exact exec_cboInval_setCsr rs1 hA fun hmem => absurd hmem hr
  | cboClean rs1 => exact exec_cboClean_setCsr rs1 hA fun hmem => absurd hmem hr
  | cboFlush rs1 => exact exec_cboFlush_setCsr rs1 hA fun hmem => absurd hmem hr
  | cboZero rs1 => exact exec_cboZero_setCsr rs1 hA fun hmem => absurd hmem hr
  | csrrw | csrrs | csrrc | csrrwi | csrrsi | csrrci => cases hi

/-- Settles O17: the replacement keeps the one field that the instruction reads of the governing registers. -/
theorem eachInstructionReadsOneField : Obligations.EachInstructionReadsOneField := by
  intro s rs1 r v hA
  exact ⟨fun hcbie => exec_cboInval_setCsr rs1 hA fun _ => hcbie,
    fun hcbcfe => ⟨exec_cboClean_setCsr rs1 hA fun _ => hcbcfe, exec_cboFlush_setCsr rs1 hA fun _ => hcbcfe⟩,
    fun hcbze => exec_cboZero_setCsr rs1 hA fun _ => hcbze⟩

/-! ### The absent h-register (R11, R60) -/

section
variable {s : State} (v : CmoCsr) (habsent : s.hPresent = false)
include habsent

/-- Every access to the absent h-register is refused, so what is stored for it is neither read nor written. -/
theorem setCsr_h_unnoticed : Unnoticed (fun t => t.setCsr .h v) s := by
  have hother (r : CmoReg) (ha : s.checkAccess r = none) : r ≠ .h := by
    rintro rfl
    simp [State.checkAccess, habsent] at ha
  simp only [setCsr_eq_mapCsrs]
  refine unnoticed_mapCsrs _ s (fun r ha => ?_) fun r w ha => ?_
  · rw [if_neg (hother r ha)]
  · rw [if_neg (hother r ha), if_neg (hother r ha)]

/-- A hart without the h-register has no virtualised mode (R4, R11). -/
theorem not_virtualised_of_absent (mode : Mode) (hmode : mode.virtualised = true → s.hPresent = true) :
    mode = .m ∨ mode = .shs ∨ mode = .u := by
  cases mode <;> simp [habsent, Mode.virtualised] at hmode ⊢

theorem invwFault_setCsr_h (heff : EffModeOfHart s) : (s.setCsr .h v).invwFault = s.invwFault := by
  have hmode : (s.setCsr .h v).effMode = s.effMode := rfl
  unfold State.invwFault
  rw [hmode]
  rcases not_virtualised_of_absent habsent s.effMode heff with h | h | h <;> rw [h] <;> rfl

theorem invwInvalidates_setCsr_h (heff : EffModeOfHart s) : (s.setCsr .h v).invwInvalidates = s.invwInvalidates := by
  have hmode : (s.setCsr .h v).effMode = s.effMode := rfl
  unfold State.invwInvalidates
  rw [hmode]
  rcases not_virtualised_of_absent habsent s.effMode heff with h | h | h <;> rw [h] <;> rfl

end

/-- Settles O25: the replacement is unnoticed by the shared operations, and the h-register is consulted by no rule for a mode of
a hart without it, under scheme A (R50) or scheme B (R73 to R84). -/
theorem absentHRegisterIsNeverRead : Obligations.AbsentHRegisterIsNeverRead := by
  intro s i v habsent hmode heff
  have hnot : .h ∉ governing s.curMode := fun hmem => governor_not_absent hmode ⟨hmem, habsent⟩
  have hf := setCsr_h_unnoticed v habsent
  refine ⟨hnot, ?_⟩
  cases hscheme : s.cfg.scheme with
  | A =>
    refine exec_unnoticed_schemeA hf hscheme (fun r hr => ?_) i
    rw [csr_setCsr_other s .h r v (ne_of_mem_of_not_mem hr hnot)]
  | B =>
    exact exec_unnoticed_schemeB hf hscheme rfl (invwFault_setCsr_h v habsent heff)
      (invwInvalidates_setCsr_h v habsent heff) i

end Sys2Proof.Machine
end

section
/-! Scheme B: `CBO.INVAL` governed by the `INVW` bits (R70 to R86). Which exception it takes and which operation it performs are
first written as case analyses on the effective mode; from them follow what it does in each state, that effective mode M always
invalidates, and that the bits a mechanism's own write permission does not select have no effect. -/

namespace Sys2Proof.Machine

/-! ### The fault and the choice of operation as case analyses (R73 to R84) -/

/-- The first of page fault, guest-page fault and access fault whose condition holds (R73 to R78). -/
theorem invwFault_eq (s : State) :
    s.invwFault =
      if (s.effMode = .u ∨ s.effMode = .vu) ∧ s.es = false then some .pageFault
      else if (s.effMode = .vs ∨ s.effMode = .vu) ∧ s.eh = false then some .guestPageFault
      else if s.effMode ≠ .m ∧ s.em = false then some .accessFault
      else none := by
  unfold State.invwFault
  cases s.effMode <;> simp

/-- Every level that the effective mode consults says so (R80 to R84). -/
theorem invwInvalidates_iff (s : State) :
    s.invwInvalidates = true ↔ s.effMode = .m ∨ (s.effMode = .shs ∧ s.im = true) ∨
      (s.effMode = .u ∧ s.is = true ∧ s.im = true) ∨ (s.effMode = .vs ∧ s.ih = true ∧ s.im = true) ∨
      (s.effMode = .vu ∧ s.is = true ∧ s.ih = true ∧ s.im = true) := by
  unfold State.invwInvalidates
  cases s.effMode <;> simp [and_assoc]

/-- Where the s-register is consulted, its table is that of `vsatp` in VU and of `satp` in U (R71). -/
theorem bareS_of_user (s : State) (h : s.effMode = .u ∨ s.effMode = .vu) :
    s.bareS = if s.effMode = .vu then s.inputs.vsatpBare else s.inputs.satpBare := by
  unfold State.bareS
  rcases h with h | h <;> rw [h] <;> rfl

/-- A table that is Bare asks for both bits, else its write permission selects one (R79). -/
theorem selectI_eq (bare w : Bool) (v : CmoCsr) :
    selectI (!bare) w v = if bare then v.b.invw0i && v.b.invw1i else if w then v.b.invw1i else v.b.invw0i := by
  cases bare <;> rfl

/-! ### What a completed operation leaves (R33) -/

/-- Under scheme B a flush of modified bytes in canonical form, or an invalidate, is complete once the pc has advanced and the
access is counted (R33, R85). -/
theorem completesCacheOp_schemeB {s : State} (kind : CacheOpKind)
    (hkind : kind = .invalidate ∨ kind = .flush ∧ Memory.wf s.modified) (addr : Word) (hB : s.cfg.scheme = .B) :
    CompletesCacheOp kind addr s (s.cacheOp kind addr).advance.countAccess where
  event := cacheOp_events ..
  pc := by simp
  frame := by simp
  accesses := by simp [hB]
  draws := cacheOp_draws ..
  outside a ha := by
    rcases hkind with rfl | ⟨rfl, hw⟩
    · exact readByte_cacheOp_of_not_inBlock .invalidate (by simp) nofun addr a ha
    · exact readByte_cacheOp_of_not_inBlock .flush (fun _ => hw) nofun addr a ha
  inside a _ := by
    rcases hkind with rfl | ⟨rfl, hw⟩
    · have hread := readByte_invalidateBlock s addr a
      split at hread
      · exact .inr hread
      · exact .inl hread
    · exact readByte_updateBlock s addr a hw

/-! ### What the instruction does (R85, R86) -/

section
variable {s : State} (rs1 : RegNum) (hB : s.cfg.scheme = .B)
include hB

theorem exec_cboInval_schemeB : exec (.cboInval rs1) s = invalSchemeB rs1 s := by
  simp only [exec, execCboInval, hB]

theorem exec_cboInval_of_fault (heff : EffModeOfHart s) (k : ExceptionKind) (hk : s.invwFault = some k) :
    exec (.cboInval rs1) s = mapNext State.countAccess (raise k (s.x rs1) s) := by
  rw [exec_cboInval_schemeB rs1 hB]
  unfold invalSchemeB
  rw [if_neg (by simpa using heff), hk]
  rfl

theorem exec_cboInval_of_no_fault (heff : EffModeOfHart s) (hnone : s.invwFault = none) :
    exec (.cboInval rs1) s =
      .next (s.cacheOp (if s.invwInvalidates then .invalidate else .flush) (s.x rs1)).advance.countAccess := by
  rw [exec_cboInval_schemeB rs1 hB]
  unfold invalSchemeB
  rw [if_neg (by simpa using heff), hnone]
  rfl

theorem exec_cboInval_invalidates (heff : EffModeOfHart s) (hnone : s.invwFault = none) (hinv : s.invwInvalidates = true) :
    ∃ t, exec (.cboInval rs1) s = .next t ∧ CompletesCacheOp .invalidate (s.x rs1) s t := by
  rw [exec_cboInval_of_no_fault rs1 hB heff hnone, hinv]
  exact ⟨_, rfl, completesCacheOp_schemeB .invalidate (.inl rfl) _ hB⟩

theorem exec_cboInval_flushes (heff : EffModeOfHart s) (hw : Memory.wf s.modified) (hnone : s.invwFault = none)
    (hinv : s.invwInvalidates = false) :
    ∃ t, exec (.cboInval rs1) s = .next t ∧ CompletesCacheOp .flush (s.x rs1) s t := by
  rw [exec_cboInval_of_no_fault rs1 hB heff hnone, hinv]
  exact ⟨_, rfl, completesCacheOp_schemeB .flush (.inr ⟨rfl, hw⟩) _ hB⟩

end

/-- Settles O20: the statement's conditions are those of the two case analyses, its `Bare` term where the s-register is
consulted. -/
theorem cboInvalUnderSchemeB : Obligations.CboInvalUnderSchemeB := by
  intro s rs1 hB heff hw mode bareS bareH em es eh im is ih pageFault guestPageFault accessFault inv
  have hbare (huser : s.effMode = .u ∨ s.effMode = .vu) : s.bareS = bareS := bareS_of_user s huser
  have hes (huser : s.effMode = .u ∨ s.effMode = .vu) : s.es = es := congrArg (· || _) (hbare huser)
  have his (huser : s.effMode = .u ∨ s.effMode = .vu) : s.is = is := by
    rw [State.is, hbare huser]
    exact selectI_eq ..
  have hih : s.ih = ih := selectI_eq ..
  have hpage : pageFault ↔ (s.effMode = .u ∨ s.effMode = .vu) ∧ s.es = false :=
    and_congr_right fun huser => by rw [hes huser]
  have hinv : s.invwInvalidates = true ↔ inv := by
    rw [invwInvalidates_iff, hih]
    exact or_congr .rfl <| or_congr .rfl <| or_congr (and_congr_right fun hu => by rw [his (.inl hu)]; rfl) <|
      or_congr .rfl (and_congr_right fun hvu => by rw [his (.inr hvu)]; rfl)
  have hnext (hnpf : ¬pageFault) := (invwFault_eq s).trans (if_neg (mt hpage.mpr hnpf))
  have hnone (hnpf : ¬pageFault) (hngpf : ¬guestPageFault) (hnaf : ¬accessFault) : s.invwFault = none :=
    (hnext hnpf).trans <| (if_neg hngpf).trans (if_neg hnaf)
  refine ⟨fun hpf => ?_, fun hnpf hgpf => ?_, fun hnpf hngpf haf => ?_, fun hnpf hngpf hnaf hi => ?_,
    fun hnpf hngpf hnaf hni => ?_⟩
  · exact exec_cboInval_of_fault rs1 hB heff _ <| (invwFault_eq s).trans (if_pos (hpage.mp hpf))
  · exact exec_cboInval_of_fault rs1 hB heff _ <| (hnext hnpf).trans (if_pos hgpf)
  · exact exec_cboInval_of_fault rs1 hB heff _ <| (hnext hnpf).trans <| (if_neg hngpf).trans (if_pos haf)
  · exact exec_cboInval_invalidates rs1 hB heff (hnone hnpf hngpf hnaf) (hinv.mpr hi)
  · have hflush : s.invwInvalidates = false := Bool.eq_false_of_not_eq_true (mt hinv.mp hni)
    exact exec_cboInval_flushes rs1 hB heff hw (hnone hnpf hngpf hnaf) hflush

/-- Settles O21: in effective mode M there is no fault and no level to consult. -/
theorem effectiveMachineModeAlwaysInvalidates : Obligations.EffectiveMachineModeAlwaysInvalidates := by
  intro s rs1 hB hmode
  have heff : EffModeOfHart s := by simp [hmode, Mode.virtualised]
  have hnone : s.invwFault = none := by simp [invwFault_eq, hmode]
  exact exec_cboInval_invalidates rs1 hB heff hnone ((invwInvalidates_iff s).mpr (.inl hmode))

/-- Settles O22: the three have no rule under scheme B. -/
theorem schemeBRefusesTheOtherThree : Obligations.SchemeBRefusesTheOtherThree := by
  intro s rs1 hB
  refine ⟨?_, ?_, ?_⟩
  · simp only [exec, execCboClean, hB]
  · simp only [exec, execCboFlush, hB]
  · simp only [exec, execCboZero, hB]

/-! ### Bits without effect (R72, R79, R87) -/

/-- `CBO.INVAL` sees the registers only through its fault and its choice of operation. -/
theorem invalSchemeB_mapCsrs (g : CmoReg → CmoCsr → CmoCsr) (s : State) (rs1 : RegNum)
    (hfault : (mapCsrs g s).invwFault = s.invwFault) (hinval : (mapCsrs g s).invwInvalidates = s.invwInvalidates) :
    invalSchemeB rs1 (mapCsrs g s) = mapNext (mapCsrs g) (invalSchemeB rs1 s) := by
  have hmode : (mapCsrs g s).effMode = s.effMode := rfl
  have hoperand : (mapCsrs g s).blockOperand rs1 = s.blockOperand rs1 := rfl
  unfold invalSchemeB
  rw [hmode, mapCsrs_hPresent, hfault, hinval, hoperand]
  split
  · rfl
  · rw [mapNext_comm (mapCsrs g) State.countAccess fun _ => rfl]
    split
    · rw [raise_mapCsrs]
    · rw [completeCacheOp_mapCsrs]

section
variable {s : State} (rs1 : RegNum) (v : CmoCsr) (hB : s.cfg.scheme = .B)
include hB

theorem exec_cboInval_setCsr_schemeB (r : CmoReg) (hfault : (s.setCsr r v).invwFault = s.invwFault)
    (hinval : (s.setCsr r v).invwInvalidates = s.invwInvalidates) :
    exec (.cboInval rs1) (s.setCsr r v) = mapNext (fun t => t.setCsr r v) (exec (.cboInval rs1) s) := by
  rw [exec_cboInval_schemeB rs1 hB, exec_cboInval_schemeB rs1 (by simpa using hB)]
  simp only [setCsr_eq_mapCsrs] at hfault hinval ⊢
  exact invalSchemeB_mapCsrs _ s rs1 hfault hinval

/-- Of the s-register the instruction reads the bits that `W_s` and `Bare_s` select. -/
theorem exec_cboInval_of_same_selected_s (he : selectE s.access.wS v = selectE s.access.wS s.scmo)
    (hi : selectI (!s.bareS) s.access.wS v = selectI (!s.bareS) s.access.wS s.scmo) :
    exec (.cboInval rs1) (s.setCsr .s v) = mapNext (fun t => t.setCsr .s v) (exec (.cboInval rs1) s) := by
  have hes : (s.setCsr .s v).es = s.es := congrArg (s.bareS || ·) he
  have his : (s.setCsr .s v).is = s.is := hi
  refine exec_cboInval_setCsr_schemeB rs1 v hB .s ?_ ?_
  · unfold State.invwFault
    rw [hes]
    rfl
  · unfold State.invwInvalidates
    rw [his]
    rfl

/-- Of the h-register the instruction reads the bits that `W_h` and `Bare_h` select. -/
theorem exec_cboInval_of_same_selected_h (he : selectE s.access.wH v = selectE s.access.wH s.hcmo)
    (hi : selectI (!s.bareH) s.access.wH v = selectI (!s.bareH) s.access.wH s.hcmo) :
    exec (.cboInval rs1) (s.setCsr .h v) = mapNext (fun t => t.setCsr .h v) (exec (.cboInval rs1) s) := by
  have heh : (s.setCsr .h v).eh = s.eh := congrArg (s.bareH || ·) he
  have hih : (s.setCsr .h v).ih = s.ih := hi
  refine exec_cboInval_setCsr_schemeB rs1 v hB .h ?_ ?_
  · unfold State.invwFault
    rw [heh]
    rfl
  · unfold State.invwInvalidates
    rw [hih]
    rfl

end

/-- Settles O23: with both tables enabled, `W_s` set selects the `W1` bits of the s-register and `W_h` clear the `W0` bits of the
h-register, and the replaced bits are the others. -/
theorem unselectedInvwBitsHaveNoEffect : Obligations.UnselectedInvwBitsHaveNoEffect := by
  intro s rs1 e i hB hmode hvsatp hhgatp hwS hwH
  have hbareS : s.bareS = false := by
    rw [bareS_of_user s (.inr hmode), if_pos hmode, hvsatp]
  refine ⟨exec_cboInval_of_same_selected_s rs1 _ hB ?_ ?_, exec_cboInval_of_same_selected_h rs1 _ hB ?_ ?_⟩
  · simp [selectE, hwS]
  · simp [selectI, hbareS, hwS]
  · simp [selectE, hwH]
  · simp [selectI, State.bareH, hhgatp, hwH]

end Sys2Proof.Machine
end

section
/-! The CSR access instructions (R90 to R97). The six are one access with three ways to make the written word: what it does
is said once, for the refused access and for the allowed one, and each instruction's statement follows by its form. -/

namespace Sys2Proof.Machine

/-! ### The access check (R29, R90) -/

theorem checkAccess_absent (s : State) (habsent : s.hPresent = false) : s.checkAccess .h = some .illegalInstruction :=
  if_pos ⟨rfl, habsent⟩

theorem checkAccess_not_allowed (s : State) (r : CmoReg) (hpresent : r = .h → s.hPresent = true) (hn : ¬AccessAllowed s r) :
    s.checkAccess r = some (accessFaultKind s.cfg s.curMode r) := by
  have hnotAbsent : ¬(r = .h ∧ s.hPresent = false) := by
    rintro ⟨hr, habsent⟩
    simp [hpresent hr] at habsent
  rw [← checkAccess_none] at hn
  unfold State.checkAccess at hn ⊢
  rw [if_neg hnotAbsent] at hn ⊢
  exact if_neg fun hallowed => hn (if_pos hallowed)

theorem mem_defaultVirtualAccess_iff (mode : Mode) (r : CmoReg) :
    (mode, r) ∈ Config.defaultVirtualAccess ↔ mode.virtualised = true ∧ r ≠ .m := by
  cases mode <;> cases r <;> decide

/-- By default a refused access from `VS` or `VU` is a virtual instruction exception, unless it is of the m-register
(R3, R90). -/
theorem accessFaultKind_default (c : Config) (mode : Mode) (r : CmoReg) (hc : c.virtualAccess = Config.defaultVirtualAccess) :
    accessFaultKind c mode r = if mode.virtualised = true ∧ r ≠ .m then .virtualInstruction else .illegalInstruction := by
  simp only [accessFaultKind, hc, List.contains_iff_mem, mem_defaultVirtualAccess_iff]

theorem csrAccess_raises (i : Instr) (csr : CsrNum) (rd : RegNum) (form : Word → Option Word) {s : State} {r : CmoReg}
    {k : ExceptionKind} (hr : s.cfg.regOf csr = some r) (hk : s.checkAccess r = some k) :
    csrAccess i csr rd form s = raise k (instrInfo s.cfg i) s := by
  simp only [csrAccess, hr, hk]

/-! ### The allowed access (R91 to R96) -/

/-- What register `r` holds after an access that writes this word, or none: as before, or what `legalize` makes of it. -/
def State.csrAfter (s : State) (r : CmoReg) : Option Word → CmoCsr
  | none => s.csr r
  | some w => legalizedCsr s.cfg r (s.csr r) (trunc s.cfg w)

@[simp] theorem setCsr_csr (s : State) (r : CmoReg) : s.setCsr r (s.csr r) = s := by
  cases r <;> rfl

@[simp] theorem x_setCsr (s : State) (r : CmoReg) (v : CmoCsr) (i : RegNum) : (s.setCsr r v).x i = s.x i :=
  x_congr _ _ i (setCsr_cfg ..) (setCsr_xregs ..)

section
variable {csr : CsrNum} {r : CmoReg} {s : State}

theorem csrAccess_allowed (i : Instr) (rd : RegNum) (form : Word → Option Word) (hr : s.cfg.regOf csr = some r)
    (ha : AccessAllowed s r) :
    csrAccess i csr rd form s =
      .next ((s.setCsr r (s.csrAfter r (form (s.csrRead r)))).setX rd (s.csrRead r)).advance := by
  cases hform : form (s.csrRead r) with
  | none =>
    rw [State.csrAfter, setCsr_csr]
    exact csrAccess_allowed_read i rd form hr ha hform
  | some w => exact csrAccess_allowed_write i rd form w hr ha hform

/-- An `XLEN`-bit word is written as it is; the word read is one, so `rd` receives it whole. -/
theorem csrAfter_completesCsr (rd : RegNum) (written : Option Word) (hw : ∀ w ∈ written, trunc s.cfg w = w) :
    CompletesCsr r rd written s ((s.setCsr r (s.csrAfter r written)).setX rd (s.csrRead r)).advance where
  rdValue hrd := by
    rw [x_advance, x_setX, if_pos ⟨rfl, hrd⟩, setCsr_cfg, State.csrRead, packCsr_trunc]
  otherRegs i hi := by
    rw [x_advance, x_setX, if_neg fun h => hi.elim (· h.1) fun h0 => h.2 (h.1 ▸ h0), x_setCsr]
  register := by
    rw [csr_advance, csr_setX, csr_setCsr_same]
    cases written with
    | none => rfl
    | some w =>
      rw [State.csrAfter, hw w rfl]
      exact writtenTo_legalizedCsr ..
  otherCsrs r' hne := by rw [csr_advance, csr_setX, csr_setCsr_other s r r' _ hne]
  pc := by simp
  frame := by simp

theorem csrAccess_completes (i : Instr) (rd : RegNum) (form : Word → Option Word) (hr : s.cfg.regOf csr = some r)
    (ha : AccessAllowed s r) (hform : ∀ w ∈ form (s.csrRead r), trunc s.cfg w = w) :
    ∃ t, csrAccess i csr rd form s = .next t ∧ CompletesCsr r rd (form (s.csrRead r)) s t :=
  ⟨_, csrAccess_allowed i rd form hr ha, csrAfter_completesCsr rd _ hform⟩

end

/-- Settles O26: the four clauses are the answers of the access check. -/
theorem csrAccessCheckDecides : Obligations.CsrAccessCheckDecides := by
  intro s i csr r hi hr hdefault
  obtain ⟨rd, form, hexec⟩ := exec_csr i csr s hi
  rw [hexec]
  have hrefused (hpresent : r = .h → s.hPresent = true) (hn : ¬AccessAllowed s r) :
      csrAccess i csr rd form s = raise (if s.curMode.virtualised = true ∧ r ≠ .m then .virtualInstruction
        else .illegalInstruction) (instrInfo s.cfg i) s := by
    rw [csrAccess_raises i csr rd form hr (checkAccess_not_allowed s r hpresent hn), accessFaultKind_default _ _ _ hdefault]
  refine ⟨fun hh habsent => ?_, fun hpresent hn hvirt hm => ?_, fun hpresent hn hor => ?_, fun ha => ?_⟩
  · subst hh
    exact csrAccess_raises i csr rd form hr (checkAccess_absent s habsent)
  · rw [hrefused hpresent hn, if_pos ⟨hvirt, hm⟩]
  · rw [hrefused hpresent hn, if_neg]
    rintro ⟨hvirt, hm⟩
    exact hor.elim (by simp [hvirt]) hm
  · exact ⟨_, csrAccess_allowed i rd form hr ha, by simp, by simp⟩

/-! ### The words the six instructions write (R44, R91 to R97) -/

theorem immOperand_trunc (c : Config) (uimm : BitVec 5) : trunc c (immOperand uimm) = immOperand uimm := by
  apply trunc_of_fits
  have h := uimm.isLt
  unfold fits immOperand Xlen.bits
  rw [BitVec.toNat_setWidth]
  cases c.xlen <;> simp only <;> omega

theorem writeForm_trunc (c : Config) (src old : Word) (hsrc : trunc c src = src) :
    ∀ w ∈ writeForm src old, trunc c w = w := by
  rintro w ⟨⟩
  exact hsrc

theorem setForm_trunc (c : Config) (field : BitVec 5) (src old : Word) (hsrc : trunc c src = src) (hold : trunc c old = old) :
    ∀ w ∈ setForm field src old, trunc c w = w := by
  unfold setForm
  split
  · nofun
  · rintro w ⟨⟩
    exact trunc_or_fits c _ _ hold hsrc

theorem clearForm_trunc (c : Config) (field : BitVec 5) (src old : Word) (hold : trunc c old = old) :
    ∀ w ∈ clearForm field src old, trunc c w = w := by
  unfold clearForm
  split
  · nofun
  · rintro w ⟨⟩
    exact trunc_and_fits c _ _ hold

theorem csrRead_trunc (s : State) (r : CmoReg) : trunc s.cfg (s.csrRead r) = s.csrRead r := packCsr_trunc ..

/-- Settles O27. -/
theorem csrWriteFormsComplete : Obligations.CsrWriteFormsComplete := by
  intro s csr r rd hr ha
  refine ⟨fun rs1 => ?_, fun uimm => ?_⟩
  · exact csrAccess_completes (.csrrw rd csr rs1) rd (writeForm (s.x rs1)) hr ha
      (writeForm_trunc _ _ _ (x_trunc s rs1))
  · exact csrAccess_completes (.csrrwi rd csr uimm) rd (writeForm (immOperand uimm)) hr ha
      (writeForm_trunc _ _ _ (immOperand_trunc _ uimm))

/-- Settles O28. -/
theorem csrSetFormsComplete : Obligations.CsrSetFormsComplete := by
  intro s csr r rd hr ha
  refine ⟨fun rs1 => ?_, fun uimm => ?_⟩
  · exact csrAccess_completes (.csrrs rd csr rs1) rd (setForm rs1 (s.x rs1)) hr ha
      (setForm_trunc _ _ _ _ (x_trunc s rs1) (csrRead_trunc s r))
  · exact csrAccess_completes (.csrrsi rd csr uimm) rd (setForm uimm (immOperand uimm)) hr ha
      (setForm_trunc _ _ _ _ (immOperand_trunc _ uimm) (csrRead_trunc s r))

/-- Settles O29. -/
theorem csrClearFormsComplete : Obligations.CsrClearFormsComplete := by
  intro s csr r rd hr ha
  refine ⟨fun rs1 => ?_, fun uimm => ?_⟩
  · exact csrAccess_completes (.csrrc rd csr rs1) rd (clearForm rs1 (s.x rs1)) hr ha
      (clearForm_trunc _ _ _ _ (csrRead_trunc s r))
  · exact csrAccess_completes (.csrrci rd csr uimm) rd (clearForm uimm (immOperand uimm)) hr ha
      (clearForm_trunc _ _ _ _ (csrRead_trunc s r))

/-! ### Writing back the word just read (R92, R93, R97) -/

/-- Reading each field of a register's own word at its position gives the field back: no other field has that position
(R22, R40). -/
theorem packCsr_holdsFields (c : Config) (v : CmoCsr) (hc : c.wf = true) : HoldsFieldsOf c (packCsr c v) v := by
  unfold HoldsFieldsOf
  cases hs : c.scheme with
  | A =>
    have hdistinct := usedA_nodup c hc
    simp only [FieldPositions.usedA, List.nodup_cons, List.mem_cons] at hdistinct
    refine ⟨(cbieOf_packCsr c v hc hs).symm, ?_, ?_⟩ <;> rw [packCsr_getLsbD_schemeA c v hc hs] <;> split_ifs <;> simp_all
  | B =>
    have hdistinct := usedB_nodup c hc
    simp only [FieldPositions.usedB, List.nodup_cons, List.mem_cons] at hdistinct
    refine ⟨?_, ?_, ?_, ?_⟩ <;> rw [packCsr_getLsbD_schemeB c v hc hs] <;> split_ifs <;> simp_all

/-- `legalize` keeps every field of a legal register that is written its own bits (R17, R23). -/
theorem legalizedCsr_of_holdsFields (c : Config) (r : CmoReg) (v : CmoCsr) (w : Word) (hlegal : legalCsr c r v = true)
    (hw : HoldsFieldsOf c w v) : legalizedCsr c r v w = v := by
  unfold legalCsr at hlegal
  unfold HoldsFieldsOf at hw
  unfold legalizedCsr
  cases hs : c.scheme <;> simp only [hs, Bool.and_eq_true] at hlegal hw ⊢
  · obtain ⟨hcbie, hcbcfe, hcbze⟩ := hw
    obtain ⟨⟨lcbie, lcbcfe⟩, lcbze⟩ := hlegal
    simp only [cbieOf, bitOf, bitPosition, ← hcbie, ← hcbcfe, ← hcbze, legalizeCbie, legalizeBit, LegalSets.bit,
      lcbie, lcbcfe, lcbze, if_true]
  · obtain ⟨h0e, h1e, h0i, h1i⟩ := hw
    obtain ⟨⟨⟨l0e, l1e⟩, l0i⟩, l1i⟩ := hlegal
    simp only [bitOf, bitPosition, ← h0e, ← h1e, ← h0i, ← h1i, legalizeBit, LegalSets.bit, l0e, l1e, l0i, l1i, if_true]

theorem Inv.csrAfter_csrRead {s : State} (h : Inv s) (r : CmoReg) : s.csrAfter r (some (s.csrRead r)) = s.csr r := by
  rw [State.csrAfter, csrRead_trunc]
  exact legalizedCsr_of_holdsFields _ _ _ _ (h.legal r) (packCsr_holdsFields _ _ h.config)

/-- An access whose form gives the word back leaves the three registers as they were. -/
theorem Inv.csrAccess_keeps_csrs {s : State} (h : Inv s) {csr : CsrNum} {r : CmoReg} (i : Instr) (rd : RegNum)
    (form : Word → Option Word) (hr : s.cfg.regOf csr = some r) (ha : AccessAllowed s r)
    (hform : form (s.csrRead r) = some (s.csrRead r)) :
    ∃ t, csrAccess i csr rd form s = .next t ∧ ∀ r', t.csr r' = s.csr r' :=
  ⟨_, csrAccess_allowed i rd form hr ha, fun r' => by rw [hform, h.csrAfter_csrRead, setCsr_csr, csr_advance, csr_setX]⟩

/-- Settles O33: setting no bit and clearing no bit both give back the word read. -/
theorem settingOrClearingNothingKeepsEveryField : Obligations.SettingOrClearingNothingKeepsEveryField := by
  intro s csr r rd rs1 hs hr ha hrs1 hzero
  refine ⟨hs.csrAccess_keeps_csrs (.csrrs rd csr rs1) rd (setForm rs1 (s.x rs1)) hr ha ?_,
    hs.csrAccess_keeps_csrs (.csrrc rd csr rs1) rd (clearForm rs1 (s.x rs1)) hr ha ?_⟩
  · simp only [setForm, hrs1, hzero, if_false, BitVec.or_zero]
  · simp only [clearForm, hrs1, hzero, if_false, BitVec.not_zero, BitVec.and_allOnes]

end Sys2Proof.Machine
end

section
/-! Exceptions (R100 to R107): the level a trap is taken into, what the entry into each level saves and where it goes, that the
return from the level undoes it, that no step changes the mode or a trap register otherwise, and what a run that ends at a
trap records. -/

namespace Sys2Proof.Machine

/-! ### The level a trap is taken into (R105, R107) -/

/-- The mode a level's trap handler runs in (R105). -/
def TrapLevel.mode : TrapLevel → Mode
  | .m => .m
  | .hs => .shs
  | .vs => .vs

theorem TrapLevel.mode_injective : Function.Injective TrapLevel.mode := by
  intro l l' h
  cases l <;> cases l' <;> cases h <;> rfl

theorem takeTrap_curMode (s : State) (k : ExceptionKind) (info : Word) :
    (s.takeTrap k info).curMode = (s.trapLevel k).mode := by
  rcases takeTrap_cases s k info with ⟨hlevel, ht⟩ | ⟨hlevel, ht⟩ | ⟨hlevel, ht⟩ <;> rw [hlevel, ht] <;> rfl

section
variable (s : State) (k : ExceptionKind)

theorem trapLevel_eq_m_iff :
    s.trapLevel k = .m ↔ s.curMode = .m ∨ s.trap.medeleg.getLsbD (causeCode s.cfg.faultKind k) = false := by
  unfold State.trapLevel
  split_ifs with hm hvs <;> simp [hm]

theorem trapLevel_eq_vs_iff :
    s.trapLevel k = .vs ↔ s.trap.medeleg.getLsbD (causeCode s.cfg.faultKind k) = true ∧ s.curMode.virtualised = true ∧
      s.trap.hedeleg.getLsbD (causeCode s.cfg.faultKind k) = true ∧ k ≠ .guestPageFault := by
  unfold State.trapLevel
  split_ifs with hm hvs
  · refine iff_of_false nofun ?_
    rintro ⟨hmedeleg, hvirt, -, -⟩
    rcases hm with hm | hm
    · simp [hm, Mode.virtualised] at hvirt
    · simp [hm] at hmedeleg
  · obtain ⟨-, hmedeleg⟩ := not_or.mp hm
    obtain ⟨hvirt, hgpf, hhedeleg⟩ := hvs
    exact iff_of_true rfl ⟨eq_true_of_ne_false hmedeleg, hvirt, hhedeleg, hgpf⟩
  · refine iff_of_false nofun ?_
    rintro ⟨-, hvirt, hhedeleg, hgpf⟩
    exact hvs ⟨hvirt, hgpf, hhedeleg⟩

theorem trapLevel_eq_hs_iff :
    s.trapLevel k = .hs ↔ s.curMode ≠ .m ∧ s.trap.medeleg.getLsbD (causeCode s.cfg.faultKind k) = true ∧
      (s.curMode.virtualised = false ∨ s.trap.hedeleg.getLsbD (causeCode s.cfg.faultKind k) = false ∨
        k = .guestPageFault) := by
  have hremains : s.trapLevel k = .hs ↔ s.trapLevel k ≠ .m ∧ s.trapLevel k ≠ .vs := by cases s.trapLevel k <;> simp
  rw [hremains, Ne, Ne, trapLevel_eq_m_iff, trapLevel_eq_vs_iff]
  grind

end

/-- Settles O36: the mode after the entry is that of the level `trapLevel` chooses. -/
theorem delegationChoosesTheMode : Obligations.DelegationChoosesTheMode := by
  refine fun s k info => ⟨fun hm => ?_, fun hmode hmedeleg hstays => ?_, fun hmedeleg hvirt hhedeleg hgpf => ?_⟩ <;>
    rw [takeTrap_curMode]
  · rw [(trapLevel_eq_m_iff s k).mpr hm]
    rfl
  · rw [(trapLevel_eq_hs_iff s k).mpr ⟨hmode, hmedeleg, hstays⟩]
    rfl
  · rw [(trapLevel_eq_vs_iff s k).mpr ⟨hmedeleg, hvirt, hhedeleg, hgpf⟩]
    rfl

/-! ### Taking an exception (R101, R104, R105) -/

/-- Settles O34, by the two values of `trapModel`. -/
theorem raiseStopsOrEntersTheTrap : Obligations.RaiseStopsOrEntersTheTrap := by
  intro s k info
  rcases raise_cases k info s with ⟨hmodel, hraise⟩ | ⟨hmodel, hraise⟩ <;> simp [hmodel, hraise]

theorem OnlyTrapStateDiffers.trans {s t u : State} (h : OnlyTrapStateDiffers s t) (h' : OnlyTrapStateDiffers t u) :
    OnlyTrapStateDiffers s u := by
  obtain ⟨hcfg, hhEn, hxregs, hcsrs, hinputs, hmemory, hevents⟩ := h
  obtain ⟨hcfg', hhEn', hxregs', hcsrs', hinputs', hmemory', hevents'⟩ := h'
  constructor <;> simp_all

theorem takeTrap_onlyTrapStateDiffers (s : State) (k : ExceptionKind) (info : Word) :
    OnlyTrapStateDiffers s (s.takeTrap k info) := by
  constructor <;> simp

theorem trapReturn_onlyTrapStateDiffers (s : State) (level : TrapLevel) : OnlyTrapStateDiffers s (s.trapReturn level) := by
  constructor <;> simp

/-- The guest physical address is recorded for a guest-page fault alone (R101, log 15). -/
theorem guestAddressRecorded_eq (s : State) (k : ExceptionKind) (old : Word) :
    s.guestAddressRecorded k old = if k = .guestPageFault then trunc s.cfg (s.access.gpa >>> 2) else old := by
  cases k <;> rfl

theorem hstatusOnEntry_spv (s : State) (k : ExceptionKind) (h : s.hPresent = true) :
    (s.hstatusOnEntry k).spv = s.curMode.virtualised := by
  simp [State.hstatusOnEntry, h]

section
variable {s : State} {k : ExceptionKind} {info : Word}

/-- The mode after an entry names the level entered. -/
theorem trapLevel_of_curMode {level : TrapLevel} (h : (s.takeTrap k info).curMode = level.mode) : s.trapLevel k = level :=
  TrapLevel.mode_injective <| (takeTrap_curMode s k info).symm.trans h

theorem takeTrap_eq_enterM (h : (s.takeTrap k info).curMode = .m) : s.takeTrap k info = s.enterM k info := by
  rw [State.takeTrap, trapLevel_of_curMode (level := .m) h]

theorem takeTrap_eq_enterHs (h : (s.takeTrap k info).curMode = .shs) : s.takeTrap k info = s.enterHs k info := by
  rw [State.takeTrap, trapLevel_of_curMode (level := .hs) h]

theorem takeTrap_eq_enterVs (h : (s.takeTrap k info).curMode = .vs) : s.takeTrap k info = s.enterVs k info := by
  rw [State.takeTrap, trapLevel_of_curMode (level := .vs) h]

end

/-- Settles O37: the entry is `enterM`, whose fields are these by definition but for `mtval2`. -/
theorem trapEntryIntoMachineMode : Obligations.TrapEntryIntoMachineMode := by
  intro s k info hmode
  have hframe := takeTrap_onlyTrapStateDiffers s k info
  rw [takeTrap_eq_enterM hmode] at hframe ⊢
  have hmtval2 : (s.enterM k info).trap.mtval2 = _ := guestAddressRecorded_eq s k s.trap.mtval2
  exact ⟨rfl, rfl, rfl, rfl, rfl, rfl, rfl, rfl, rfl, rfl, hmtval2, rfl, rfl, rfl, rfl, rfl, rfl, rfl, rfl, hframe, rfl⟩

/-- Settles O38: the entry is `enterHs`, whose fields are these by definition but for `SPV` and `htval`. -/
theorem trapEntryIntoSupervisorMode : Obligations.TrapEntryIntoSupervisorMode := by
  intro s k info hmode
  have hframe := takeTrap_onlyTrapStateDiffers s k info
  rw [takeTrap_eq_enterHs hmode] at hframe ⊢
  have hspv : s.hPresent = true → (s.enterHs k info).trap.hstatus.spv = _ := hstatusOnEntry_spv s k
  have hhtval : (s.enterHs k info).trap.htval = _ := guestAddressRecorded_eq s k s.trap.htval
  exact ⟨rfl, rfl, rfl, rfl, rfl, rfl, rfl, rfl, hspv, hhtval, rfl, rfl, rfl, rfl, rfl, rfl, rfl, hframe, rfl⟩

/-- Settles O39: the entry is `enterVs`, whose fields are these by definition. -/
theorem trapEntryIntoVirtualSupervisorMode : Obligations.TrapEntryIntoVirtualSupervisorMode := by
  intro s k info hmode
  have hframe := takeTrap_onlyTrapStateDiffers s k info
  rw [takeTrap_eq_enterVs hmode] at hframe ⊢
  exact ⟨rfl, rfl, rfl, rfl, rfl, rfl, rfl, rfl, rfl, rfl, rfl, rfl, rfl, rfl, rfl, rfl, rfl, hframe, rfl⟩

/-! ### The return undoes the entry (R106) -/

/-- Without the H-extension `SPV` is not written, and does not count (R4, R106). -/
theorem modeOf_hstatusOnEntry (s : State) (p : Priv) (k : ExceptionKind) :
    s.modeOf p (s.hstatusOnEntry k).spv = s.modeOf p s.curMode.virtualised := by
  cases hpresent : s.hPresent with
  | true => rw [hstatusOnEntry_spv s k hpresent]
  | false => simp [State.modeOf, hpresent]

section
variable {s : State} (hmode : ModeOfHart s)
include hmode

/-- A mode of the hart is the one its privilege and virtualisation bit name (R4, R105). -/
theorem modeOf_privOf : s.modeOf (privOf s.curMode) s.curMode.virtualised = s.curMode := by
  cases hcur : s.curMode <;> simp_all [ModeOfHart, State.modeOf, privOf, Mode.virtualised]

theorem returnFromM_enterM_curMode (k : ExceptionKind) (info : Word) : (s.enterM k info).returnFromM.curMode = s.curMode :=
  modeOf_privOf hmode

/-- Below M one bit is enough to record the privilege, as `SPP` does (R105). -/
theorem modeOf_spp (hm : s.curMode ≠ .m) :
    s.modeOf (if decide (privOf s.curMode = .s) then .s else .u) s.curMode.virtualised = s.curMode := by
  have hpriv : (if decide (privOf s.curMode = .s) then Priv.s else .u) = privOf s.curMode := by
    cases hcur : s.curMode <;> simp_all [privOf]
  rw [hpriv, modeOf_privOf hmode]

theorem returnFromHs_enterHs_curMode (k : ExceptionKind) (info : Word) (hm : s.curMode ≠ .m) :
    (s.enterHs k info).returnFromHs.curMode = s.curMode :=
  (modeOf_hstatusOnEntry s _ k).trans (modeOf_spp hmode hm)

theorem returnFromVs_enterVs_curMode (k : ExceptionKind) (info : Word) (hvirt : s.curMode.virtualised = true) :
    (s.enterVs k info).returnFromVs.curMode = s.curMode := by
  have hm : s.curMode ≠ .m := fun hm => by simp [hm, Mode.virtualised] at hvirt
  have hspp := modeOf_spp hmode hm
  rwa [hvirt] at hspp

end

/-- Settles O40, by the level the trap is taken into. -/
theorem trapReturnUndoesTrapEntry : Obligations.TrapReturnUndoesTrapEntry := by
  intro s k info hmode
  have hframe := (takeTrap_onlyTrapStateDiffers s k info).trans (trapReturn_onlyTrapStateDiffers _ (s.trapLevel k))
  have haccesses := (trapReturn_accesses _ (s.trapLevel k)).trans (takeTrap_accesses s k info)
  rcases takeTrap_cases s k info with ⟨hlevel, ht⟩ | ⟨hlevel, ht⟩ | ⟨hlevel, ht⟩ <;>
    rw [hlevel, ht] at hframe haccesses ⊢
  · exact ⟨returnFromM_enterM_curMode hmode k info, rfl, rfl, rfl, rfl, hframe, haccesses⟩
  · obtain ⟨hm, -, -⟩ := (trapLevel_eq_hs_iff s k).mp hlevel
    exact ⟨returnFromHs_enterHs_curMode hmode k info hm, rfl, rfl, rfl, rfl, hframe, haccesses⟩
  · obtain ⟨hvirt, -⟩ := trapLevel_vs s k hlevel
    exact ⟨returnFromVs_enterVs_curMode hmode k info hvirt, rfl, rfl, rfl, rfl, hframe, haccesses⟩

/-! ### No step changes the mode otherwise (R104, R105, R110) -/

/-- The hart is where taking an exception leads from a state: in the mode of a level that state can enter, at that level's trap
vector, with the pc of the instruction in its `epc` (R105, R107). -/
def AtTrapVector (s t : State) : Prop :=
  (t.curMode = .m ∧ t.trap.m.epc = s.pc ∧ t.pc = s.trap.m.tvec.base) ∨
    (t.curMode = .shs ∧ s.curMode ≠ .m ∧ t.trap.hs.epc = s.pc ∧ t.pc = s.trap.hs.tvec.base) ∨
    (t.curMode = .vs ∧ s.curMode.virtualised = true ∧ t.trap.vs.epc = s.pc ∧ t.pc = s.trap.vs.tvec.base)

theorem takeTrap_atTrapVector (s : State) (k : ExceptionKind) (info : Word) : AtTrapVector s (s.takeTrap k info) := by
  rcases takeTrap_cases s k info with ⟨-, ht⟩ | ⟨hlevel, ht⟩ | ⟨hlevel, ht⟩ <;> rw [ht]
  · exact .inl ⟨rfl, rfl, rfl⟩
  · obtain ⟨hm, -, -⟩ := (trapLevel_eq_hs_iff s k).mp hlevel
    exact .inr (.inl ⟨rfl, hm, rfl, rfl⟩)
  · obtain ⟨hvirt, -⟩ := trapLevel_vs s k hlevel
    exact .inr (.inr ⟨rfl, hvirt, rfl, rfl⟩)

/-- An instruction leaves the mode and the trap registers alone, or takes an exception. -/
theorem Effect.keepsTrapState_or_traps {s t : State} (h : Effect s t) :
    (t.curMode = s.curMode ∧ t.trap = s.trap) ∨
      (s.cfg.trapModel = .entry ∧ OnlyTrapStateDiffers s t ∧ AtTrapVector s t) := by
  cases h with
  | cacheOp kind rs1 h => exact .inl (by simp [h])
  | access kind rs1 h => exact .inl (by simp [h])
  | trap k info hm hi h =>
    subst h
    exact .inr ⟨hm, takeTrap_onlyTrapStateDiffers s k info, takeTrap_atTrapVector s k info⟩
  | accessTrap k info hm hi h =>
    subst h
    exact .inr ⟨hm, { takeTrap_onlyTrapStateDiffers s k info with }, takeTrap_atTrapVector s k info⟩
  | csrRead r rd ha h => exact .inl (by simp [h])
  | csrWrite r rd w ha h => exact .inl (by simp [h])

/-- Settles O46: what happens before the instruction changes no mode, pc or trap register. -/
theorem modeChangesOnlyByTakingAnException : Obligations.ModeChangesOnlyByTakingAnException := by
  intro s t h
  obtain ⟨-, i, hi⟩ := step_next s t h
  rcases (exec_effect i _ t hi).keepsTrapState_or_traps with hkept | ⟨hmodel, hframe, hvector⟩
  · exact .inl (by simpa using hkept)
  · exact .inr ⟨by simpa using hmodel, hframe, by simpa [AtTrapVector] using hvector⟩

/-! ### What a trap records (R101, D21) -/

theorem instrInfo_of_decode {c : Config} {w : InstrWord} {i : Instr} (h : decode w = .ok i) :
    (c.tvalIllegal = .instructionWord → (instrInfo c i).toNat = w.toNat) ∧ (c.tvalIllegal = .zero → instrInfo c i = 0) := by
  have hw : encode i = w := encodeOfDecodeIsTheWord w i h
  constructor <;> intro hinfo
  · simp only [instrInfo, hinfo, hw, BitVec.toNat_setWidth]
    omega
  · simp only [instrInfo, hinfo]

/-- Settles O35: the codes by definition, and the recorded word is the one that decodes to the instruction. -/
theorem exceptionCodes : Obligations.ExceptionCodes :=
  ⟨fun _ => ⟨rfl, rfl, rfl, rfl, rfl, rfl, rfl, rfl⟩, fun _ _ _ h => instrInfo_of_decode h⟩

/-- What an instruction records with an exception it raises (R101): its word or zero with an illegal or a virtual instruction
exception, and `CBO.INVAL` the address in `x[rs1]` with the three faults of scheme B. -/
inductive Records (s : State) (i : Instr) (k : ExceptionKind) : Word → Prop where
  | word (hk : k = .illegalInstruction ∨ k = .virtualInstruction) : Records s i k (instrInfo s.cfg i)
  | address (rs1 : RegNum) (hi : i = .cboInval rs1) (hk : k = .pageFault ∨ k = .guestPageFault ∨ k = .accessFault) :
    Records s i k (s.x rs1)

theorem raise_fault {k : ExceptionKind} {info : Word} {s : State} {f : Fault} (h : raise k info s = .fault f) :
    f = .trap k info s.pc := by
  rcases raise_cases k info s with ⟨-, hraise⟩ | ⟨-, hraise⟩ <;> rw [hraise] at h <;> cases h
  rfl

theorem mapNext_fault {g : State → State} {o : Host.Outcome State Fault Refusal} {f : Fault} (h : mapNext g o = .fault f) :
    o = .fault f := by
  cases o with
  | next s => cases h
  | fault e => exact h
  | refused r => cases h

theorem invwFault_kind {s : State} {k : ExceptionKind} (h : s.invwFault = some k) :
    k = .pageFault ∨ k = .guestPageFault ∨ k = .accessFault := by
  rw [invwFault_eq] at h
  split_ifs at h <;> cases h <;> simp

theorem checkAccess_kind {s : State} {r : CmoReg} {k : ExceptionKind} (h : s.checkAccess r = some k) :
    k = .illegalInstruction ∨ k = .virtualInstruction := by
  unfold State.checkAccess accessFaultKind at h
  split_ifs at h <;> cases h <;> simp

section
variable {s : State} {f : Fault}

theorem gatedCacheOp_fault {field : CmoCsr → Bool} {kind : CacheOpKind} {i : Instr} {rs1 : RegNum}
    (h : gatedCacheOp field kind i rs1 s = .fault f) : ∃ k info, f = .trap k info s.pc ∧ Records s i k info := by
  rw [gatedCacheOp_eq] at h
  split_ifs at h
  · cases h
  · exact ⟨_, _, raise_fault h, .word (.inl rfl)⟩

theorem invalSchemeA_fault {i : Instr} {rs1 : RegNum} (h : invalSchemeA i rs1 s = .fault f) :
    ∃ k info, f = .trap k info s.pc ∧ Records s i k info := by
  rw [invalSchemeA_eq] at h
  split_ifs at h
  · exact ⟨_, _, raise_fault h, .word (.inl rfl)⟩
  all_goals cases h

theorem invalSchemeB_fault {rs1 : RegNum} (h : invalSchemeB rs1 s = .fault f) :
    ∃ k info, f = .trap k info s.pc ∧ Records s (.cboInval rs1) k info := by
  unfold invalSchemeB at h
  split at h
  · cases h
  · have h := mapNext_fault h
    split at h
    · rename_i k hk
      exact ⟨k, _, raise_fault h, .address rs1 rfl (invwFault_kind hk)⟩
    · cases h

theorem csrAccess_fault {i : Instr} {csr : CsrNum} {rd : RegNum} {form : Word → Option Word}
    (h : csrAccess i csr rd form s = .fault f) : ∃ k info, f = .trap k info s.pc ∧ Records s i k info := by
  unfold csrAccess at h
  split at h
  · cases h
  · split at h
    · rename_i k hk
      exact ⟨k, _, raise_fault h, .word (checkAccess_kind hk)⟩
    · split at h <;> cases h

/-- An instruction that stops the machine does so by an exception it raises at its own pc. -/
theorem exec_fault {i : Instr} (h : exec i s = .fault f) : ∃ k info, f = .trap k info s.pc ∧ Records s i k info := by
  have hshape := exec_shape i s
  rw [h] at hshape
  generalize ho : Host.Outcome.fault f = o at hshape
  cases hshape with
  | invalA rs1 => exact invalSchemeA_fault ho.symm
  | invalB rs1 hB => exact invalSchemeB_fault ho.symm
  | gated i field kind rs1 => exact gatedCacheOp_fault ho.symm
  | noRule i => cases ho
  | csr i csr rd form => exact csrAccess_fault ho.symm

end

/-- A step stops with a trap in the instruction of the word fetched alone. -/
theorem step_trap {s : State} {w : InstrWord} {k : ExceptionKind} {info pc : Word}
    (hfetch : s.arrive.fetchBytes = .ok (bytesOfWord w)) (h : step s = .fault (.trap k info pc)) :
    ∃ i, decode w = .ok i ∧ exec i s.beforeExec = .fault (.trap k info pc) := by
  have hbytes := decodeBytes_bytesOfWord w []
  rw [List.append_nil] at hbytes
  unfold step at h
  rw [hfetch] at h
  simp only [hbytes] at h
  cases hdecode : decode w with
  | error e =>
    rw [hdecode] at h
    split at h <;> cases h
  | ok i =>
    rw [hdecode] at h
    split at h
    · cases h
    · exact ⟨i, rfl, h⟩

/-- Settles O55: the instruction the word decodes to raised the exception, and recorded its word or its address. -/
theorem trapOutcomeRecordsTheWordOrTheAddress : Obligations.TrapOutcomeRecordsTheWordOrTheAddress := by
  intro s w k info pc hfetch h
  obtain ⟨i, hdecode, hexec⟩ := step_trap hfetch h
  obtain ⟨k', info', htrap, hrecords⟩ := exec_fault hexec
  cases htrap
  refine ⟨beforeExec_pc s, ?_⟩
  cases hrecords with
  | word hk =>
    rw [beforeExec_cfg]
    refine ⟨fun _ => instrInfo_of_decode hdecode, fun hfault => ?_⟩
    rcases hk with rfl | rfl <;> simp at hfault
  | address rs1 hi hk =>
    refine ⟨fun hinstr => ?_, fun _ => ⟨rs1, hi ▸ hdecode, x_congr s _ rs1 (beforeExec_cfg s) (beforeExec_xregs s)⟩⟩
    rcases hk with rfl | rfl | rfl <;> simp at hinstr

end Sys2Proof.Machine
end
